-- ==== Sys2Proof/Word.lean ====
section
/-! DEFINITION. The word types of the QM coder core (spec/00_scope.md rules R4, R5). -/

namespace Sys2Proof

/-- A command word, 16 bits (`CMD_WIDTH`, R4, R40). -/
abbrev Word := BitVec 16

/-- A byte of `E.OBUF`, `E.OUT` or `D.IN` (R31). -/
abbrev Byte := BitVec 8

/-- An index into `PROB_TABLE`: 0 to 112 (R4 `N_STATES`, R17, R25). -/
abbrev TableIndex := Fin 113

end Sys2Proof
end

