-- ==== Sys2Proof/Syntax.lean ====
section
/-! DEFINITION. The commands of the block: one constructor for each row of spec/opcode_table.json
(spec/30_encoding.md rule R41), with the operands of rules R42 and R49. -/

namespace Sys2Proof

/-- A command with its operands. The state index `s` of the `tbl.*` commands is the 7-bit field `CW[6:0]`; only 0..112
is well formed (WellFormed.lean, R44). -/
inductive Instr where
  /-- `enc.init` (R60). -/
  | encInit
  /-- `enc.bit D` (R61); `d` is `CW[0]`. -/
  | encBit (d : Bool)
  /-- `enc.flush` (R67). -/
  | encFlush
  /-- `dec.init IN=<bytes>` (R80); `inp` is the side-band operand, passed with the word (R49). -/
  | decInit (inp : List Byte)
  /-- `dec.bit` (R84). -/
  | decBit
  /-- `tbl.qe S` (R52). -/
  | tblQe (s : BitVec 7)
  /-- `tbl.nlps S` (R53). -/
  | tblNlps (s : BitVec 7)
  /-- `tbl.nmps S` (R54). -/
  | tblNmps (s : BitVec 7)
  /-- `tbl.switch S` (R55). -/
  | tblSwitch (s : BitVec 7)
deriving DecidableEq, Repr

end Sys2Proof
end

