-- ==== Sys2Proof/WellFormed.lean ====
section
/-! DEFINITION. Which terms of `Instr` stand for a legal command: the state index of a `tbl.*` command is at most 112
(spec/30_encoding.md rule R44 case 3, spec/40_probability_table.md rule R51). Every other operand is legal at every
value: a bit (R42), a byte sequence of any length (R49). -/

namespace Sys2Proof

/-- The command is legal (R44, R51). -/
def Instr.wf : Instr → Bool
  | .encInit => true
  | .encBit _ => true
  | .encFlush => true
  | .decInit _ => true
  | .decBit => true
  | .tblQe s => decide (s ≤ 112)
  | .tblNlps s => decide (s ≤ 112)
  | .tblNmps s => decide (s ≤ 112)
  | .tblSwitch s => decide (s ≤ 112)

end Sys2Proof
end

