-- ==== Sys2Proof/Decode.lean ====
section
/-! DEFINITION. The decoder (spec/30_encoding.md rules R40 to R45), total on every word and rejecting by name; the
encoder, written from the same rules; and the rows of spec/opcode_table.json as data. -/

namespace Sys2Proof

/-- Why a command word is illegal: the three cases of R44. -/
inductive IllegalWord where
  /-- R44 case 1: `OP` is 0x0, 0x6, 0x7 or 0xC to 0xF. -/
  | opcode
  /-- R44 case 2: a reserved bit of the word's format is 1 (R43). -/
  | reservedBit
  /-- R44 case 3: a `tbl.*` word with `S > 112`. -/
  | stateIndex
deriving DecidableEq, Repr

/-- `OP = CW[15:12]` (R40). -/
def opField (w : Word) : BitVec 4 := w.extractLsb' 12 4

/-- `D = CW[0]` (R42). -/
def bitField (w : Word) : Bool := w.getLsbD 0

/-- `S = CW[6:0]` (R42). -/
def indexField (w : Word) : BitVec 7 := w.extractLsb' 0 7

/-- A word of format N: `CW[11:0]` must be 0 (R40, R43). -/
def decodeN (w : Word) (i : Instr) : Except IllegalWord Instr :=
  if w.extractLsb' 0 12 = 0 then .ok i else .error .reservedBit

/-- A word of format B: `CW[11:1]` must be 0 (R40, R43). -/
def decodeB (w : Word) (mk : Bool → Instr) : Except IllegalWord Instr :=
  if w.extractLsb' 1 11 = 0 then .ok (mk (bitField w)) else .error .reservedBit

/-- A word of format S: `CW[11:7]` must be 0 (R43) and `CW[6:0]` at most 112 (R44). -/
def decodeS (w : Word) (mk : BitVec 7 → Instr) : Except IllegalWord Instr :=
  if w.extractLsb' 7 5 = 0 then
    if indexField w ≤ 112 then .ok (mk (indexField w)) else .error .stateIndex
  else .error .reservedBit

/-- The decode function of R45 on the command word `w` and its side-band operand `inp` (R49), which only `dec.init`
takes. -/
def decode (w : Word) (inp : List Byte) : Except IllegalWord Instr :=
  match (opField w).toNat with
  | 0x1 => decodeN w .encInit
  | 0x2 => decodeB w .encBit
  | 0x3 => decodeN w .encFlush
  | 0x4 => decodeN w (.decInit inp)
  | 0x5 => decodeN w .decBit
  | 0x8 => decodeS w .tblQe
  | 0x9 => decodeS w .tblNlps
  | 0xA => decodeS w .tblNmps
  | 0xB => decodeS w .tblSwitch
  | _ => .error .opcode

/-- The command word of a command, from the opcode map (R41) and the operand places (R42). -/
def encode : Instr → Word
  | .encInit => 0x1000
  | .encBit d => 0x2000 ||| BitVec.setWidth 16 (BitVec.ofBool d)
  | .encFlush => 0x3000
  | .decInit _ => 0x4000
  | .decBit => 0x5000
  | .tblQe s => 0x8000 ||| s.setWidth 16
  | .tblNlps s => 0x9000 ||| s.setWidth 16
  | .tblNmps s => 0xA000 ||| s.setWidth 16
  | .tblSwitch s => 0xB000 ||| s.setWidth 16

/-- The side-band operand that goes with a command's word (R49): the bytes of `dec.init`, nothing for any other. -/
def encodeSideBand : Instr → List Byte
  | .decInit inp => inp
  | _ => []

/-- One row of spec/opcode_table.json. -/
structure OpcodeRow where
  mnemonic : String
  word : Word
  mask : Word
  /-- The row is one of the accessors, legal only for `CW[6:0] <= 112` (the row's note; R44). -/
  indexed : Bool
deriving DecidableEq, Repr

/-- The rows of spec/opcode_table.json, in the table's order. -/
def opcodeTable : List OpcodeRow :=
  [ ⟨"enc.init", 0x1000, 0xFFFF, false⟩,
    ⟨"enc.bit", 0x2000, 0xFFFE, false⟩,
    ⟨"enc.flush", 0x3000, 0xFFFF, false⟩,
    ⟨"dec.init", 0x4000, 0xFFFF, false⟩,
    ⟨"dec.bit", 0x5000, 0xFFFF, false⟩,
    ⟨"tbl.qe", 0x8000, 0xFF80, true⟩,
    ⟨"tbl.nlps", 0x9000, 0xFF80, true⟩,
    ⟨"tbl.nmps", 0xA000, 0xFF80, true⟩,
    ⟨"tbl.switch", 0xB000, 0xFF80, true⟩ ]

/-- "Legal when (CW & mask) == match", and for an accessor `CW[6:0] <= 112` (the notes of the table). -/
def OpcodeRow.accepts (row : OpcodeRow) (w : Word) : Bool :=
  (w &&& row.mask == row.word) && (!row.indexed || decide (w &&& 0x7F ≤ 112))

/-- The mnemonic of a command, as the table spells it. -/
def Instr.mnemonic : Instr → String
  | .encInit => "enc.init"
  | .encBit _ => "enc.bit"
  | .encFlush => "enc.flush"
  | .decInit _ => "dec.init"
  | .decBit => "dec.bit"
  | .tblQe _ => "tbl.qe"
  | .tblNlps _ => "tbl.nlps"
  | .tblNmps _ => "tbl.nmps"
  | .tblSwitch _ => "tbl.switch"

/-- The instruction the decoder reads from the table's word `w` of `nbits` bits: the block has one command length, 16
bits (R40), and the word comes with no side-band bytes. A number that does not fit the bits is no word. -/
def decodeTableWord (nbits w : Nat) : Option Instr :=
  if nbits ≤ 16 ∧ w < 2 ^ nbits then
    match decode (BitVec.ofNat 16 w) [] with
    | .ok i => some i
    | .error _ => none
  else none

end Sys2Proof
end

