-- ==== Sys2Proof/Config.lean ====
section
/-! DEFINITION. What an implementation fixes (the parameters `PROB_TABLE` and `OUT_CAP` of spec/00_scope.md rule R4)
and the model's free values. The default table is `Sys2Proof.Machine.defaultTable` (Machine/Table.lean). -/

namespace Sys2Proof

/-- One row of `PROB_TABLE` (R25): `qe` has 16 bits; the successors are indices in 0..112 (R50), which is fact 1 of
R56 held by the type; `switchMps` is one bit. -/
structure ProbRow where
  qe : BitVec 16
  nextLps : TableIndex
  nextMps : TableIndex
  switchMps : Bool
deriving DecidableEq, Repr

/-- The parameters of the block (R4). They are configuration, carried in State because `exec` takes no other argument,
and written by no command (R25, R38; notes/assumptions/5.md). -/
structure Config where
  /-- `PROB_TABLE`, 113 rows (R25, D15). -/
  probTable : Vector ProbRow 113
  /-- `OUT_CAP`, the capacity of `E.OBUF` not counting the placeholder; `none` is unbounded (R33, D8). -/
  outCap : Option Nat
deriving DecidableEq, Repr

/-- What R56 requires of a table given as a parameter: fact 2, `1 <= qe(s) <= 0x5B12 < 0x8000` for every row (fact 1
is in the type of `ProbRow`). -/
def Config.ok (cfg : Config) : Bool :=
  cfg.probTable.toList.all fun row => decide (1 ≤ row.qe ∧ row.qe ≤ 0x5B12)

/-- The parameters of a platform (R4): those of the block, and `N_ENC` and `N_DEC`, how many independent encoder and
decoder units it holds (R111, D35). -/
structure PlatformConfig where
  block : Config
  /-- `N_ENC`. -/
  nEnc : Nat
  /-- `N_DEC`. -/
  nDec : Nat
deriving DecidableEq, Repr

/-- What R4 requires of a platform's parameters: at least one unit of each kind, over a table that meets R56. -/
def PlatformConfig.ok (cfg : PlatformConfig) : Bool :=
  cfg.block.ok && decide (1 ≤ cfg.nEnc) && decide (1 ≤ cfg.nDec)

/-- FREE VALUE: the byte sequence that `E.OUT` holds after a command has made it undefined (R60, R18; U2). It is
applied to the counter `State.free` (notes/assumptions/3.md). -/
opaque Config.freeBytes : Nat → List Byte

/-- FREE VALUE: the response value of an `enc.flush` whose output length does not fit the 32 bits of the value, which
the spec does not state (R46, R67; notes/assumptions/6.md). It is applied to the counter `State.free`. -/
opaque Config.freeWord : Nat → BitVec 32

end Sys2Proof
end

