-- ==== Sys2Proof/Machine/Table.lean ====
section
/-! DEFINITION. The probability-state table `PROB_TABLE` and its four accessors (spec/40_probability_table.md rules R50
to R55). The rows are the spec's default for the parameter (D15); the spec itself takes them from general knowledge
(G1, notes/assumptions/13.md). -/

namespace Sys2Proof.Machine

/-- Rows 0 to 15 of R50: qe, next_lps, next_mps, switch_mps. -/
def tableRows0 : List ProbRow :=
  [ ⟨0x5A1D, 1, 1, true⟩, ⟨0x2586, 14, 2, false⟩, ⟨0x1114, 16, 3, false⟩, ⟨0x080B, 18, 4, false⟩,
    ⟨0x03D8, 20, 5, false⟩, ⟨0x01DA, 23, 6, false⟩, ⟨0x00E5, 25, 7, false⟩, ⟨0x006F, 28, 8, false⟩,
    ⟨0x0036, 30, 9, false⟩, ⟨0x001A, 33, 10, false⟩, ⟨0x000D, 35, 11, false⟩, ⟨0x0006, 9, 12, false⟩,
    ⟨0x0003, 10, 13, false⟩, ⟨0x0001, 12, 13, false⟩, ⟨0x5A7F, 15, 15, true⟩, ⟨0x3F25, 36, 16, false⟩ ]

/-- Rows 16 to 31 of R50: qe, next_lps, next_mps, switch_mps. -/
def tableRows16 : List ProbRow :=
  [ ⟨0x2CF2, 38, 17, false⟩, ⟨0x207C, 39, 18, false⟩, ⟨0x17B9, 40, 19, false⟩, ⟨0x1182, 42, 20, false⟩,
    ⟨0x0CEF, 43, 21, false⟩, ⟨0x09A1, 45, 22, false⟩, ⟨0x072F, 46, 23, false⟩, ⟨0x055C, 48, 24, false⟩,
    ⟨0x0406, 49, 25, false⟩, ⟨0x0303, 51, 26, false⟩, ⟨0x0240, 52, 27, false⟩, ⟨0x01B1, 54, 28, false⟩,
    ⟨0x0144, 56, 29, false⟩, ⟨0x00F5, 57, 30, false⟩, ⟨0x00B7, 59, 31, false⟩, ⟨0x008A, 60, 32, false⟩ ]

/-- Rows 32 to 47 of R50: qe, next_lps, next_mps, switch_mps. -/
def tableRows32 : List ProbRow :=
  [ ⟨0x0068, 62, 33, false⟩, ⟨0x004E, 63, 34, false⟩, ⟨0x003B, 32, 35, false⟩, ⟨0x002C, 33, 9, false⟩,
    ⟨0x5AE1, 37, 37, true⟩, ⟨0x484C, 64, 38, false⟩, ⟨0x3A0D, 65, 39, false⟩, ⟨0x2EF1, 67, 40, false⟩,
    ⟨0x261F, 68, 41, false⟩, ⟨0x1F33, 69, 42, false⟩, ⟨0x19A8, 70, 43, false⟩, ⟨0x1518, 72, 44, false⟩,
    ⟨0x1177, 73, 45, false⟩, ⟨0x0E74, 74, 46, false⟩, ⟨0x0BFB, 75, 47, false⟩, ⟨0x09F8, 77, 48, false⟩ ]

/-- Rows 48 to 63 of R50: qe, next_lps, next_mps, switch_mps. -/
def tableRows48 : List ProbRow :=
  [ ⟨0x0861, 78, 49, false⟩, ⟨0x0706, 79, 50, false⟩, ⟨0x05CD, 48, 51, false⟩, ⟨0x04DE, 50, 52, false⟩,
    ⟨0x040F, 50, 53, false⟩, ⟨0x0363, 51, 54, false⟩, ⟨0x02D4, 52, 55, false⟩, ⟨0x025C, 53, 56, false⟩,
    ⟨0x01F8, 54, 57, false⟩, ⟨0x01A4, 55, 58, false⟩, ⟨0x0160, 56, 59, false⟩, ⟨0x0125, 57, 60, false⟩,
    ⟨0x00F6, 58, 61, false⟩, ⟨0x00CB, 59, 62, false⟩, ⟨0x00AB, 61, 63, false⟩, ⟨0x008F, 61, 32, false⟩ ]

/-- Rows 64 to 79 of R50: qe, next_lps, next_mps, switch_mps. -/
def tableRows64 : List ProbRow :=
  [ ⟨0x5B12, 65, 65, true⟩, ⟨0x4D04, 80, 66, false⟩, ⟨0x412C, 81, 67, false⟩, ⟨0x37D8, 82, 68, false⟩,
    ⟨0x2FE8, 83, 69, false⟩, ⟨0x293C, 84, 70, false⟩, ⟨0x2379, 86, 71, false⟩, ⟨0x1EDF, 87, 72, false⟩,
    ⟨0x1AA9, 87, 73, false⟩, ⟨0x174E, 72, 74, false⟩, ⟨0x1424, 72, 75, false⟩, ⟨0x119C, 74, 76, false⟩,
    ⟨0x0F6B, 74, 77, false⟩, ⟨0x0D51, 75, 78, false⟩, ⟨0x0BB6, 77, 79, false⟩, ⟨0x0A40, 77, 48, false⟩ ]

/-- Rows 80 to 95 of R50: qe, next_lps, next_mps, switch_mps. -/
def tableRows80 : List ProbRow :=
  [ ⟨0x5832, 80, 81, true⟩, ⟨0x4D1C, 88, 82, false⟩, ⟨0x438E, 89, 83, false⟩, ⟨0x3BDD, 90, 84, false⟩,
    ⟨0x34EE, 91, 85, false⟩, ⟨0x2EAE, 92, 86, false⟩, ⟨0x299A, 93, 87, false⟩, ⟨0x2516, 86, 71, false⟩,
    ⟨0x5570, 88, 89, true⟩, ⟨0x4CA9, 95, 90, false⟩, ⟨0x44D9, 96, 91, false⟩, ⟨0x3E22, 97, 92, false⟩,
    ⟨0x3824, 99, 93, false⟩, ⟨0x32B4, 99, 94, false⟩, ⟨0x2E17, 93, 86, false⟩, ⟨0x56A8, 95, 96, true⟩ ]

/-- Rows 96 to 111 of R50: qe, next_lps, next_mps, switch_mps. -/
def tableRows96 : List ProbRow :=
  [ ⟨0x4F46, 101, 97, false⟩, ⟨0x47E5, 102, 98, false⟩, ⟨0x41CF, 103, 99, false⟩, ⟨0x3C3D, 104, 100, false⟩,
    ⟨0x375E, 99, 93, false⟩, ⟨0x5231, 105, 102, false⟩, ⟨0x4C0F, 106, 103, false⟩, ⟨0x4639, 107, 104, false⟩,
    ⟨0x415E, 103, 99, false⟩, ⟨0x5627, 105, 106, true⟩, ⟨0x50E7, 108, 107, false⟩, ⟨0x4B85, 109, 103, false⟩,
    ⟨0x5597, 110, 109, false⟩, ⟨0x504F, 111, 107, false⟩, ⟨0x5A10, 110, 111, true⟩, ⟨0x5522, 112, 109, false⟩ ]

/-- Rows 112 to 112 of R50: qe, next_lps, next_mps, switch_mps. -/
def tableRows112 : List ProbRow :=
  [ ⟨0x59EB, 112, 111, true⟩ ]

/-- The 113 rows of R50, in order of the state index. -/
def tableRows : List ProbRow :=
  tableRows0 ++ (tableRows16 ++ (tableRows32 ++ (tableRows48 ++ (tableRows64 ++ (tableRows80 ++ (tableRows96 ++ (tableRows112)))))))

/-- `PROB_TABLE` with the rows of R50. -/
def defaultTable : Vector ProbRow 113 := ⟨⟨tableRows⟩, by rfl⟩

/-- The parameters at the spec's defaults (R4): the table of R50, `OUT_CAP = none`. -/
def defaultConfig : Config := { probTable := defaultTable, outCap := none }

/-- Row `s` of `PROB_TABLE`; a table access reads one whole row (R31). -/
def tableRow (cfg : Config) (s : TableIndex) : ProbRow := cfg.probTable[s.val]

/-- Accessor `qe(state)` (R52). -/
def qe (cfg : Config) (s : TableIndex) : BitVec 16 := (tableRow cfg s).qe

/-- Accessor `next_on_lps(state)` (R53). -/
def nextLps (cfg : Config) (s : TableIndex) : TableIndex := (tableRow cfg s).nextLps

/-- Accessor `next_on_mps(state)` (R54). -/
def nextMps (cfg : Config) (s : TableIndex) : TableIndex := (tableRow cfg s).nextMps

/-- Accessor `switch_mps(state)` (R55). -/
def switchMps (cfg : Config) (s : TableIndex) : Bool := (tableRow cfg s).switchMps

end Sys2Proof.Machine
end

