-- ==== Sys2Proof/Machine/State.lean ====
section
/-! DEFINITION. The state of the block (spec/10_state.md), as plain data, and the state after reset (R28, R120). -/

namespace Sys2Proof.Machine

/-- The encoder phase `E.PH` (R11). -/
inductive EncPhase where
  | idle
  | coding
  | done
  | failed
deriving DecidableEq, Repr

/-- The decoder phase `D.PH` (R12). -/
inductive DecPhase where
  | idle
  | decoding
  | failed
deriving DecidableEq, Repr

/-- The statuses of R100. Codes 6 and 7 are never produced (U12) and have no constructor. -/
inductive Status where
  | ok
  | exhausted
  | malformed
  | capacityExceeded
  | illegal
  | notReady
deriving DecidableEq, Repr

/-- The response to one command: a status and a 32-bit value (R46). -/
structure Response where
  status : Status
  value : BitVec 32
deriving DecidableEq, Repr

/-- What reaches the block from outside: a command word with its side-band bytes (R40, R49), or a reset asserted by the
platform between commands (R120). -/
inductive Input where
  | command (word : Word) (sideBand : List Byte)
  | reset
deriving DecidableEq, Repr

/-- The registers of the encoder unit ENC (R11, R13 to R18). -/
structure Enc where
  /-- `E.PH`. -/
  ph : EncPhase
  /-- `E.A`, 17 bits (R13). -/
  a : BitVec 17
  /-- `E.C`, held in 32 bits (R14). -/
  c : BitVec 32
  /-- `E.CT`, 4 bits (R15). -/
  ct : BitVec 4
  /-- `E.ST`, a natural with no bound (R16). -/
  st : Nat
  /-- `E.IDX`, 0 to 112 (R17). -/
  idx : TableIndex
  /-- `E.MPS` (R17). -/
  mps : Bool
  /-- `E.OBUF`, index 0 first; the placeholder is at index 0 (R18). -/
  obuf : List Byte
  /-- `E.OUT`, defined in DONE only (R18). -/
  out : List Byte
deriving DecidableEq, Repr

/-- The registers of the decoder unit DEC (R12, R19 to R24). -/
structure Dec where
  /-- `D.PH`. -/
  ph : DecPhase
  /-- `D.A`, 16 bits; 0 stands for 0x10000 (R19). -/
  a : BitVec 16
  /-- `D.C`, 16 bits (R19). -/
  c : BitVec 16
  /-- `D.D`, the pending input byte, left-aligned (R20). -/
  d : BitVec 8
  /-- `D.CT`, 4 bits (R20). -/
  ct : BitVec 4
  /-- `D.AVAIL` (R21). -/
  avail : Nat
  /-- `D.CUR` (R22). -/
  cur : Nat
  /-- `D.IN` (R23). -/
  inp : List Byte
  /-- `D.IDX`, 0 to 112 (R24). -/
  idx : TableIndex
  /-- `D.MPS` (R24). -/
  mps : Bool
deriving DecidableEq, Repr

/-- The block: its parameters, its two units, and the command interface. -/
structure State where
  /-- `PROB_TABLE` and `OUT_CAP` (R4, R25); nothing writes them. -/
  cfg : Config
  /-- The encoder unit. -/
  enc : Enc
  /-- The decoder unit. -/
  dec : Dec
  /-- What the host has issued and the block has not yet taken, oldest first (the model's field; R10). -/
  inputs : List Input
  /-- The responses given so far, oldest first (the model's field; R46). -/
  responses : List Response
  /-- How many free values have been drawn (the model's field; notes/assumptions/3.md). -/
  free : Nat
deriving DecidableEq, Repr

/-- Why a step stops with a fault. The block itself has no traps (R101) and every command of it terminates (R125):
both reasons belong to register contents that no run reaches. -/
inductive Fault where
  /-- Raised by `enc.bit` only, when its renormalization starts from `E.A = 0`: the loop of R64 would never end. SAFE:
  the model stops where the spec's rule does not terminate; `Inv` rules it out (notes/assumptions/8.md). -/
  | encoderLoopEndless
  /-- Raised by `dec.bit` only, when its renormalization starts from `D.A = 0`: the loop of R83 would never end. SAFE:
  as above. -/
  | decoderLoopEndless
deriving DecidableEq, Repr

/-- Why a step refuses. -/
inductive Refusal where
  /-- Raised by `exec` for a command that has no meaning yet (none in this model). SAFE: the model stops. -/
  | notModelled (mnemonic : String)
deriving DecidableEq, Repr

/-- The encoder right after reset: IDLE (R28, R120). The spec gives the other registers no value; the zeros and empty
sequences here are the model's DESIGN CHOICE (notes/assumptions/4.md), read by no rule before `enc.init`. -/
def Enc.reset : Enc :=
  { ph := .idle, a := 0, c := 0, ct := 0, st := 0, idx := 0, mps := false, obuf := [], out := [] }

/-- The decoder right after reset: IDLE, no input bound (R28, R120). The other values are the model's DESIGN CHOICE
(notes/assumptions/4.md), read by no rule before `dec.init`. -/
def Dec.reset : Dec :=
  { ph := .idle, a := 0, c := 0, d := 0, ct := 0, avail := 0, cur := 0, inp := [], idx := 0, mps := false }

/-- The machine right after reset (R28, R120): both units IDLE, the ROM holding the rows of R50, `OUT_CAP = none` (R4),
no command issued and no response given. -/
def State.reset : State :=
  { cfg := defaultConfig, enc := Enc.reset, dec := Dec.reset, inputs := [], responses := [], free := 0 }

end Sys2Proof.Machine
end

