-- ==== Sys2Proof/Machine/Flags.lean ====
section
/-! DEFINITION. The flag-like state and the statuses: the most probable symbol of each unit (spec/10_state.md rules R17,
R24; R29: the block has no other flags), the status codes (spec/60_exceptions.md rule R100) and the decoder's status
(spec/42_decoder.md rule R88). -/

namespace Sys2Proof.Machine

/-- `MPS` after an LPS coded or decoded in state `s`: complemented exactly when `switch_mps(s) = 1` (R63, R86, R87). -/
def mpsAfterLps (cfg : Config) (s : TableIndex) (mps : Bool) : Bool :=
  if switchMps cfg s then !mps else mps

/-- The 3-bit code of a status (R100). -/
def statusCode : Status → BitVec 3
  | .ok => 0
  | .exhausted => 1
  | .malformed => 2
  | .capacityExceeded => 3
  | .illegal => 4
  | .notReady => 5

/-- `STATUS_D()`, evaluated when a decoder command ends (R88). -/
def statusD (d : Dec) : Status :=
  match d.ph with
  | .failed => .malformed
  | .idle => if d.avail = 0 then .exhausted else .ok
  | .decoding => if d.avail = 0 then .exhausted else .ok

end Sys2Proof.Machine
end

