-- ==== Sys2Proof/Machine/Operands.lean ====
section
/-! DEFINITION. The operand forms of the commands (spec/30_encoding.md rules R42, R46, R49). The bit operand `D` and
the byte sequence `IN` are used as they are. -/

namespace Sys2Proof.Machine

/-- The operand `S` of a `tbl.*` command as an index of the table: unsigned, not scaled (R42); none above 112, outside
the accessors' domain (R44, R51). -/
def tableOperand (s : BitVec 7) : Option TableIndex :=
  if h : s.toNat < 113 then some ⟨s.toNat, h⟩ else none

/-- `zext_32(v)` (R6, R46). -/
def zext32 {w : Nat} (v : BitVec w) : BitVec 32 := v.setWidth 32

/-- A table index as a response value (R46). -/
def indexValue (s : TableIndex) : BitVec 32 := BitVec.ofNat 32 s.val

/-- A bit as a response value: the bit in bit 0, the other bits 0 (R46). -/
def bitValue (b : Bool) : BitVec 32 := zext32 (BitVec.ofBool b)

end Sys2Proof.Machine
end

