-- ==== Sys2Proof/Machine/Ops.lean ====
section
/-! DEFINITION. The operations the commands share: the response and the refusal of a command (spec/30_encoding.md rule
R46, spec/60_exceptions.md rules R101 to R105), the buffer primitives (spec/20_memory.md rules R33, R34), and the
platform's reset (spec/70_reset_and_hazards.md rule R120). The block takes no exceptions and returns from none (R101):
an error is the status of a response, given by `refuse`. -/

namespace Sys2Proof.Machine

/-- `respond(status, value)`: the command ends with this response (R6, R46). -/
def respond (st : Status) (v : BitVec 32) (s : State) : State :=
  { s with responses := s.responses ++ [{ status := st, value := v }] }

/-- A command refused with no state change: response `(status, 0)` (R101; R102 ILLEGAL, R103 NOT_READY, R104 and R105
for the sticky statuses of FAILED). -/
def refuse (st : Status) (s : State) : Host.Outcome State Fault Refusal :=
  .next (respond st 0 s)

/-- How a procedure of the encoder ends. -/
inductive EncRun where
  /-- It ran to its end. -/
  | finished (e : Enc)
  /-- An `OutAppend` raised CAPACITY_EXCEEDED: the command ends there, with the registers as they were at that append
  and `E.PH = FAILED` (R104). -/
  | full (e : Enc)
  /-- A renormalization loop that never ends, from `E.A = 0` (no run reaches it; notes/assumptions/8.md). -/
  | endless
deriving DecidableEq, Repr

/-- The next procedure, unless the command has ended already (R104: "the command ends at that append"). -/
def EncRun.andThen (r : EncRun) (f : Enc → EncRun) : EncRun :=
  match r with
  | .finished e => f e
  | .full e => .full e
  | .endless => .endless

/-- The capacity check of `OutAppend`: `OUT_CAP != none and len(E.OBUF) - 1 >= OUT_CAP` (R33). -/
def bufferFull (cap : Option Nat) (obuf : List Byte) : Bool :=
  match cap with
  | none => false
  | some n => decide (n ≤ obuf.length - 1)

/-- `OutAppend(v)` (R33): append, or fail the encoder with nothing appended. -/
def outAppend (cap : Option Nat) (v : Byte) (e : Enc) : EncRun :=
  if bufferFull cap e.obuf then .full { e with ph := .failed }
  else .finished { e with obuf := e.obuf ++ [v] }

/-- The byte sequence with 1 added to its last byte. -/
def incLast : List Byte → List Byte
  | [] => []
  | [b] => [b + 1]
  | b :: b' :: rest => b :: incLast (b' :: rest)

/-- `OutIncLast()` (R33). -/
def outIncLast (e : Enc) : Enc := { e with obuf := incLast e.obuf }

/-- `InByte(i)`: byte `i` of the input view, defined for `0 <= i < len(D.IN)` (R34). -/
def inByte (d : Dec) (i : Nat) : Option Byte := d.inp[i]?

/-- Reset asserted by the platform between two commands (R120): both units as right after reset, the open operations
and an unread `E.OUT` discarded. The table and the parameters stand; what the host has issued and received is the
host's. -/
def platformReset (s : State) : State :=
  { s with enc := Enc.reset, dec := Dec.reset }

/-- What the host may read of the encoder's output: `E.OUT` in DONE, nothing in any other phase (R36, R18, R123). -/
def hostReadOut (s : State) : Option (List Byte) :=
  match s.enc.ph with
  | .done => some s.enc.out
  | .idle => none
  | .coding => none
  | .failed => none

end Sys2Proof.Machine
end

