-- ==== Sys2Proof/Machine/Decoder.lean ====
section
/-! DEFINITION. The decoder unit (spec/42_decoder.md): its internal procedures, named as there, and the meanings of
`dec.init` and `dec.bit`. -/

namespace Sys2Proof.Machine

/-- FETCH at a byte 0xFF (R81): the stuffed pair counts as one byte; anything else after it, or nothing, is malformed:
FAILED, the cursor not advanced, zero fill. -/
def fetchStuffed (d : Dec) : Byte × Dec :=
  if inByte d (d.cur + 1) = some 0x00 then (0xFF, { d with cur := d.cur + 2, avail := d.avail + 8 })
  else (0x00, { d with ph := .failed })

/-- FETCH (R81), with the zero fill of R82. -/
def fetch (d : Dec) : Byte × Dec :=
  if d.ph = .failed then (0x00, d)
  else
    match inByte d d.cur with
    | none => (0x00, d)
    | some b =>
      if b = 0xFF then fetchStuffed d
      else (b, { d with cur := d.cur + 1, avail := d.avail + 8 })

/-- The refill of RENORM_D: a new pending byte when the last one is used up (R83). -/
def refill (d : Dec) : Dec :=
  if d.ct = 0 then { (fetch d).2 with d := (fetch d).1, ct := 8 } else d

/-- The shift of RENORM_D, with a pending byte at hand (R83): `D.D[7]` goes to `D.C[0]`. -/
def shiftWindow (d : Dec) : Dec :=
  { d with
    a := d.a <<< 1
    c := (d.c <<< 1) ||| (d.d >>> 7).setWidth 16
    d := d.d <<< 1
    ct := d.ct - 1
    avail := d.avail - 1 }

/-- RENORM_D (R83) with `n` passes allowed; none when the loop would never end. The loop runs at most 15 times (R56
fact 4), so `n = 15` leaves nothing out: it is none exactly from `D.A = 0`. -/
def renormD : Nat → Dec → Option Dec
  | 0, d => if d.a < 0x8000 then none else some d
  | n + 1, d => if d.a < 0x8000 then renormD n (shiftWindow (refill d)) else some d

/-- The LPS outcome of an exchange: the bit, taken before any flip, then `D.MPS` and `D.IDX` for the state before the
transition (R86, R87). -/
def decideLps (cfg : Config) (d : Dec) : Bool × Dec :=
  (!d.mps, { d with mps := mpsAfterLps cfg d.idx d.mps, idx := nextLps cfg d.idx })

/-- The MPS outcome of an exchange (R86, R87). -/
def decideMps (cfg : Config) (d : Dec) : Bool × Dec :=
  (d.mps, { d with idx := nextMps cfg d.idx })

/-- COND_MPS_EXCHANGE(q) (R86). -/
def condMpsExchange (cfg : Config) (q : BitVec 16) (d : Dec) : Bool × Dec :=
  if d.a < q then decideLps cfg d else decideMps cfg d

/-- COND_LPS_EXCHANGE(q) (R87). -/
def condLpsExchange (cfg : Config) (q : BitVec 16) (d : Dec) : Bool × Dec :=
  let r := if d.a < q then decideMps cfg { d with c := d.c - d.a } else decideLps cfg { d with c := d.c - d.a }
  (r.1, { r.2 with a := q })

/-- The bit and the registers of an exchange followed by RENORM_D (R84). -/
def renormAfter (r : Bool × Dec) : Option (Bool × Dec) :=
  match renormD 15 r.2 with
  | some d => some (r.1, d)
  | none => none

/-- The decoding of one bit in DECODING, before its response (R84, R85). -/
def decodeBit (cfg : Config) (d : Dec) : Option (Bool × Dec) :=
  let q := qe cfg d.idx
  let d1 := { d with a := d.a - q }
  if d1.c < d1.a then
    if 0x8000 ≤ d1.a then some (d1.mps, d1) else renormAfter (condMpsExchange cfg q d1)
  else renormAfter (condLpsExchange cfg q d1)

/-- The registers of DEC_INIT before its two fetches (R80). -/
def openDecoder (inp : List Byte) : Dec :=
  { ph := .decoding, a := 0, c := 0, d := 0, ct := 0, avail := 0, cur := 0, inp := inp, idx := 0, mps := false }

/-- DEC_INIT before its response (R80): two fetches prime `D.C`, the first byte in `D.C[15:8]` (R32). -/
def initDecoder (inp : List Byte) : Dec :=
  let first := fetch (openDecoder inp)
  let second := fetch first.2
  { second.2 with c := first.1 ++ second.1 }

/-- `dec.init IN=<bytes>` (R80), accepted in every phase. -/
def execDecInit (inp : List Byte) (s : State) : Host.Outcome State Fault Refusal :=
  .next (respond (statusD (initDecoder inp)) 0 { s with dec := initDecoder inp })

/-- `dec.bit` (R84). A marker met inside it leaves the unit FAILED and the response MALFORMED, with the decided bit
(R90). -/
def execDecBit (s : State) : Host.Outcome State Fault Refusal :=
  match s.dec.ph with
  | .failed => refuse .malformed s
  | .idle => refuse .notReady s
  | .decoding =>
    match decodeBit s.cfg s.dec with
    | some (bit, d) => .next (respond (statusD d) (bitValue bit) { s with dec := d })
    | none => .fault .decoderLoopEndless

end Sys2Proof.Machine
end

