-- ==== Sys2Proof/Machine/Encoder.lean ====
section
/-! DEFINITION. The encoder unit (spec/41_encoder.md): its internal procedures, named as there, and the meanings of
`enc.init`, `enc.bit` and `enc.flush`. -/

namespace Sys2Proof.Machine

/-- The draining loop of BYTE_OUT under a carry: each stacked 0xFF goes out as 0x00 (R65). `n` is `E.ST`. -/
def drainCarry (cap : Option Nat) : Nat → Enc → EncRun
  | 0, e => .finished e
  | n + 1, e =>
    (outAppend cap 0x00 e).andThen fun e1 => drainCarry cap n { e1 with st := e1.st - 1 }

/-- The draining loop of BYTE_OUT without a carry: each stacked 0xFF goes out as 0xFF 0x00 (R65). `n` is `E.ST`. -/
def drainPlain (cap : Option Nat) : Nat → Enc → EncRun
  | 0, e => .finished e
  | n + 1, e =>
    (outAppend cap 0xFF e).andThen fun e1 =>
      (outAppend cap 0x00 e1).andThen fun e2 => drainPlain cap n { e2 with st := e2.st - 1 }

/-- The stuffing byte after a carry that made the last byte 0xFF (R65). -/
def stuffAfterCarry (cap : Option Nat) (e : Enc) : EncRun :=
  if e.obuf.getLast? = some 0xFF then outAppend cap 0x00 e else .finished e

/-- BYTE_OUT, the carry case (R65). -/
def byteOutCarry (cap : Option Nat) (t : BitVec 32) (e : Enc) : EncRun :=
  (stuffAfterCarry cap (outIncLast e)).andThen fun e1 =>
    (drainCarry cap e1.st e1).andThen fun e2 => outAppend cap (t.setWidth 8) e2

/-- BYTE_OUT, the case without a carry (R65). -/
def byteOutPlain (cap : Option Nat) (t : BitVec 32) (e : Enc) : EncRun :=
  (drainPlain cap e.st e).andThen fun e1 => outAppend cap (t.setWidth 8) e1

/-- BYTE_OUT up to the masking of `E.C`: carry, stack or plain, by `t = E.C >> 19` (R65). -/
def byteOutCase (cap : Option Nat) (t : BitVec 32) (e : Enc) : EncRun :=
  if 0xFF < t then byteOutCarry cap t e
  else if t = 0xFF then .finished { e with st := e.st + 1 }
  else byteOutPlain cap t e

/-- BYTE_OUT (R65). -/
def byteOut (cap : Option Nat) (e : Enc) : EncRun :=
  (byteOutCase cap (e.c >>> 19) e).andThen fun e1 => .finished { e1 with c := e1.c &&& 0x7FFFF }

/-- The registers after the three assignments of one pass of RENORM_E (R64). -/
def doubleE (e : Enc) : Enc := { e with a := e.a <<< 1, c := e.c <<< 1, ct := e.ct - 1 }

/-- One pass of RENORM_E (R64). -/
def shiftE (cap : Option Nat) (e : Enc) : EncRun :=
  if (doubleE e).ct = 0 then
    (byteOut cap (doubleE e)).andThen fun e1 => .finished { e1 with ct := 8 }
  else .finished (doubleE e)

/-- RENORM_E (R64) with `n` passes allowed. The loop runs at most 15 times (R56 fact 4), so `n = 15` leaves nothing
out: it is `endless` exactly from `E.A = 0`. -/
def renormE (cap : Option Nat) : Nat → Enc → EncRun
  | 0, e => if e.a < 0x8000 then .endless else .finished e
  | n + 1, e => if e.a < 0x8000 then (shiftE cap e).andThen (renormE cap n) else .finished e

/-- `q` as wide as `E.A`. -/
def qeWide (q : BitVec 16) : BitVec 17 := q.setWidth 17

/-- The upper sub-interval, of width `q`: `E.C <- E.C + E.A; E.A <- q` (R62, R63), for `E.A` after the subtraction. -/
def takeUpper (q : BitVec 16) (e : Enc) : Enc :=
  { e with c := e.c + e.a.setWidth 32, a := qeWide q }

/-- CODE_MPS(q) (R62). -/
def codeMps (cfg : Config) (q : BitVec 16) (e : Enc) : EncRun :=
  let e1 := { e with a := e.a - qeWide q }
  if 0x8000 ≤ e1.a then .finished e1
  else
    let e2 := if e1.a < qeWide q then takeUpper q e1 else e1
    renormE cfg.outCap 15 { e2 with idx := nextMps cfg e2.idx }

/-- CODE_LPS(q) (R63). -/
def codeLps (cfg : Config) (q : BitVec 16) (e : Enc) : EncRun :=
  let e1 := { e with a := e.a - qeWide q }
  let e2 := if qeWide q ≤ e1.a then takeUpper q e1 else e1
  renormE cfg.outCap 15
    { e2 with mps := mpsAfterLps cfg e2.idx e2.mps, idx := nextLps cfg e2.idx }

/-- The coding of one bit in CODING (R61). -/
def encodeBit (cfg : Config) (d : Bool) (e : Enc) : EncRun :=
  if d = e.mps then codeMps cfg (qe cfg e.idx) e else codeLps cfg (qe cfg e.idx) e

/-- CLEAR_FINAL_BITS (R68). -/
def clearFinalBits (e : Enc) : Enc :=
  let t := (e.c + e.a.setWidth 32 - 1) &&& 0xFFFF0000
  { e with c := if t < e.c then t + 0x8000 else t }

/-- The first loop of TRIM: the sequence without its trailing zero bytes (R70). -/
def dropTrailingZeros (bytes : List Byte) : List Byte :=
  (bytes.reverse.dropWhile (· == 0x00)).reverse

/-- TRIM (R70). -/
def trim (bytes : List Byte) : List Byte :=
  if (dropTrailingZeros bytes).getLast? = some 0xFF then dropTrailingZeros bytes ++ [0x00]
  else dropTrailingZeros bytes

/-- ENC_FLUSH in CODING, before its response (R67). -/
def flushRun (cap : Option Nat) (e : Enc) : EncRun :=
  let e1 := clearFinalBits e
  (byteOut cap { e1 with c := e1.c <<< e1.ct.toNat }).andThen fun e2 =>
    (byteOut cap { e2 with c := e2.c <<< 8 }).andThen fun e3 =>
      .finished { e3 with out := trim e3.obuf.tail, ph := .done }

/-- The end of an encoder command that was accepted: `respondOk` says how it responds when it completes; a raised
CAPACITY_EXCEEDED is responded with value 0 (R104, R46). -/
def endEncoder (respondOk : State → State) (r : EncRun) (s : State) : Host.Outcome State Fault Refusal :=
  match r with
  | .finished e => .next (respondOk { s with enc := e })
  | .full e => .next (respond .capacityExceeded 0 { s with enc := e })
  | .endless => .fault .encoderLoopEndless

/-- The response of a completed `enc.flush`: `(OK, len(E.OUT))` (R67, R46). A length that does not fit 32 bits is not
stated, and its value is a free value (notes/assumptions/6.md). -/
def respondLength (s : State) : State :=
  if s.enc.out.length < 2 ^ 32 then respond .ok (BitVec.ofNat 32 s.enc.out.length) s
  else respond .ok (Config.freeWord s.free) { s with free := s.free + 1 }

/-- `enc.init` (R60), accepted in every phase. `E.OUT` becomes undefined: a free value (notes/assumptions/3.md). -/
def execEncInit (s : State) : Host.Outcome State Fault Refusal :=
  .next (respond .ok 0
    { s with
      enc :=
        { ph := .coding, a := 0x10000, c := 0, ct := 11, st := 0, idx := 0, mps := false, obuf := [0x00],
          out := Config.freeBytes s.free }
      free := s.free + 1 })

/-- `enc.bit D` (R61). -/
def execEncBit (d : Bool) (s : State) : Host.Outcome State Fault Refusal :=
  match s.enc.ph with
  | .failed => refuse .capacityExceeded s
  | .idle => refuse .notReady s
  | .done => refuse .notReady s
  | .coding => endEncoder (respond .ok 0) (encodeBit s.cfg d s.enc) s

/-- `enc.flush` (R67). -/
def execEncFlush (s : State) : Host.Outcome State Fault Refusal :=
  match s.enc.ph with
  | .failed => refuse .capacityExceeded s
  | .idle => refuse .notReady s
  | .done => refuse .notReady s
  | .coding => endEncoder respondLength (flushRun s.cfg.outCap s.enc) s

end Sys2Proof.Machine
end

