-- ==== Sys2Proof/Machine/Tables.lean ====
section
/-! DEFINITION. The accessor commands `tbl.*` (spec/40_probability_table.md rules R52 to R55). They read only the ROM,
are accepted in every phase of both units, and change no state of either. -/

namespace Sys2Proof.Machine

/-- The template of the accessor commands: the value read from the row, or ILLEGAL for an index outside the table,
which the decoder has refused already (R44 case 3, R102, R107 item 1). -/
def tableRead (s : BitVec 7) (value : TableIndex → BitVec 32) (m : State) : Host.Outcome State Fault Refusal :=
  match tableOperand s with
  | some idx => .next (respond .ok (value idx) m)
  | none => refuse .illegal m

/-- `tbl.qe S` (R52). -/
def execTblQe (s : BitVec 7) (m : State) : Host.Outcome State Fault Refusal :=
  tableRead s (fun idx => zext32 (qe m.cfg idx)) m

/-- `tbl.nlps S` (R53). -/
def execTblNlps (s : BitVec 7) (m : State) : Host.Outcome State Fault Refusal :=
  tableRead s (fun idx => indexValue (nextLps m.cfg idx)) m

/-- `tbl.nmps S` (R54). -/
def execTblNmps (s : BitVec 7) (m : State) : Host.Outcome State Fault Refusal :=
  tableRead s (fun idx => indexValue (nextMps m.cfg idx)) m

/-- `tbl.switch S` (R55). -/
def execTblSwitch (s : BitVec 7) (m : State) : Host.Outcome State Fault Refusal :=
  tableRead s (fun idx => bitValue (switchMps m.cfg idx)) m

end Sys2Proof.Machine
end

