-- ==== Sys2Proof/Machine/Dispatch.lean ====
section
/-! DEFINITION. The dispatch of a decoded command to its meaning: one arm per constructor of `Instr`
(spec/30_encoding.md rule R41). -/

namespace Sys2Proof.Machine

def exec (i : Instr) (s : State) : Host.Outcome State Fault Refusal :=
  match i with
  | .encInit => Sys2Proof.Machine.execEncInit s
  | .encBit d => Sys2Proof.Machine.execEncBit d s
  | .encFlush => Sys2Proof.Machine.execEncFlush s
  | .decInit inp => Sys2Proof.Machine.execDecInit inp s
  | .decBit => Sys2Proof.Machine.execDecBit s
  | .tblQe n => Sys2Proof.Machine.execTblQe n s
  | .tblNlps n => Sys2Proof.Machine.execTblNlps n s
  | .tblNmps n => Sys2Proof.Machine.execTblNmps n s
  | .tblSwitch n => Sys2Proof.Machine.execTblSwitch n s

end Sys2Proof.Machine
end

