-- ==== Sys2Proof/Machine/Fetch.lean ====
section
/-! DEFINITION. How the next command reaches the block: from the host, on the command interface, never from a memory of
the block (spec/20_memory.md rule R37, spec/30_encoding.md rules R40, R45). -/

namespace Sys2Proof.Machine

/-- What a step finds on the command interface, and the state with it taken. -/
inductive Fetched where
  /-- The host has issued nothing: the block executes nothing (R120). -/
  | nothing
  /-- The platform asserts reset (R120). -/
  | resetAsserted (s : State)
  /-- A legal command (R45). -/
  | legal (i : Instr) (s : State)
  /-- An illegal word (R44). -/
  | illegalWord (why : IllegalWord) (s : State)
deriving DecidableEq, Repr

/-- Take the oldest input and decode it (R10: commands are executed in the order the host issues them; R45). -/
def fetchInput (s : State) : Fetched :=
  match s.inputs with
  | [] => .nothing
  | .reset :: rest => .resetAsserted { s with inputs := rest }
  | .command w inp :: rest =>
    match decode w inp with
    | .ok i => .legal i { s with inputs := rest }
    | .error why => .illegalWord why { s with inputs := rest }

/-- `s` with a command word issued so that the next step takes it, before what is pending already. -/
def issueFirst (w : Word) (inp : List Byte) (s : State) : State :=
  { s with inputs := .command w inp :: s.inputs }

end Sys2Proof.Machine
end

