-- ==== Sys2Proof/Machine/Step.lean ====
section
/-! DEFINITION. One step of the block: the next input the host or the platform has given is taken and done, atomically
(spec/00_scope.md rule R7, spec/10_state.md rule R10). -/

namespace Sys2Proof.Machine

/-- One step. Nothing issued: no state changes (R110, R120). Reset: R120. A legal command: its meaning. An illegal word:
`(ILLEGAL, 0)`, no register, buffer or phase of either unit changed (R102). -/
def step (s : State) : Host.Outcome State Fault Refusal :=
  match fetchInput s with
  | .nothing => .next s
  | .resetAsserted s1 => .next (platformReset s1)
  | .legal i s1 => exec i s1
  | .illegalWord _ s1 => refuse .illegal s1

/-- `s` with the table's word `w` of `nbits` bits issued as the next command, with no side-band bytes; the bits above
`nbits` are 0. A program reaches the block from outside only: the host issues its commands one by one (R37, R120;
notes/assumptions/1.md). -/
def State.withFetchWord (s : State) (nbits w : Nat) : State :=
  issueFirst (BitVec.ofNat 16 (w % 2 ^ nbits)) [] s

end Sys2Proof.Machine
end

