-- ==== Sys2Proof/Machine/Asm.lean ====
section
/-! DEFINITION. The assembly language of spec/30_encoding.md rule R47: the text of a command, the pseudo-instructions
with their exact expansions, and the grouping of bits into bytes, most significant bit first (R47, D14; R91). -/

namespace Sys2Proof.Machine

/-- One hexadecimal digit. -/
def hexDigit (n : BitVec 4) : Char :=
  if n < 10 then Char.ofNat (48 + n.toNat) else Char.ofNat (55 + n.toNat)

/-- A byte as two hexadecimal digits. -/
def hexByte (b : Byte) : String :=
  String.ofList [hexDigit (b.extractLsb' 4 4), hexDigit (b.extractLsb' 0 4)]

/-- A command as a line of assembly: `mnemonic [operand]` (R47). -/
def asmText : Instr → String
  | .encInit => "enc.init"
  | .encBit d => "enc.bit " ++ (if d then "1" else "0")
  | .encFlush => "enc.flush"
  | .decInit inp => "dec.init IN=[" ++ " ".intercalate (inp.map hexByte) ++ "]"
  | .decBit => "dec.bit"
  | .tblQe s => "tbl.qe " ++ toString s.toNat
  | .tblNlps s => "tbl.nlps " ++ toString s.toNat
  | .tblNmps s => "tbl.nmps " ++ toString s.toNat
  | .tblSwitch s => "tbl.switch " ++ toString s.toNat

/-- The bits of a byte in the order they are coded: most significant first (R47). -/
def byteBits (v : Byte) : List Bool :=
  [v.getLsbD 7, v.getLsbD 6, v.getLsbD 5, v.getLsbD 4, v.getLsbD 3, v.getLsbD 2, v.getLsbD 1, v.getLsbD 0]

/-- A bit of a byte at place `i`. -/
def bitAt (b : Bool) (i : Nat) : Byte := (BitVec.setWidth 8 (BitVec.ofBool b)) <<< i

/-- The host's byte of eight decoded bits, the first bit the most significant: `sum(bit_i << (7 - i))` (R47). -/
def byteOfBits (b0 b1 b2 b3 b4 b5 b6 b7 : Bool) : Byte :=
  bitAt b0 7 + bitAt b1 6 + bitAt b2 5 + bitAt b3 4 + bitAt b4 3 + bitAt b5 2 + bitAt b6 1 + bitAt b7 0

/-- Decoded bits regrouped into bytes, an incomplete final group dropped (R91, C12). -/
def regroup : List Bool → List Byte
  | b0 :: b1 :: b2 :: b3 :: b4 :: b5 :: b6 :: b7 :: rest => byteOfBits b0 b1 b2 b3 b4 b5 b6 b7 :: regroup rest
  | _ => []

/-- A line of assembly: a command or one of the pseudo-instructions of R47. -/
inductive AsmLine where
  | command (i : Instr)
  /-- `enc.byte v`. -/
  | encByte (v : Byte)
  /-- `enc.bits b1 b2 ... bn`. -/
  | encBits (bits : List Bool)
  /-- `dec.byte`. -/
  | decByte
  /-- `encode v1 ... vn`. -/
  | encodeBytes (vs : List Byte)
deriving DecidableEq, Repr

/-- `enc.byte v`: eight `enc.bit`, most significant bit first (R47). -/
def expandByte (v : Byte) : List Instr := (byteBits v).map .encBit

/-- The commands a line of assembly stands for (R47). -/
def expandLine : AsmLine → List Instr
  | .command i => [i]
  | .encByte v => expandByte v
  | .encBits bits => bits.map .encBit
  | .decByte => List.replicate 8 .decBit
  | .encodeBytes vs => [.encInit] ++ vs.flatMap expandByte ++ [.encFlush]

end Sys2Proof.Machine
end

