-- ==== Sys2Proof/Machine/HostProc.lean ====
section
/-! DEFINITION. The host procedures at the block's boundary (spec/00_scope.md rule R3): `encode` and `encode_stream`
(spec/41_encoder.md rule R71), `decode_stream` (spec/42_decoder.md rule R91) and `decode_n` (R92). Each issues commands
to the block, one step a command, and reads the responses. -/

namespace Sys2Proof.Machine

/-- What issuing one command gives the host: the response of that command, or nothing when the step did not answer a
next state (which no state of a run leads to). -/
inductive Answer where
  | response (r : Response) (s : State)
  | nothing
deriving DecidableEq, Repr

/-- The host issues a command by its word and side-band bytes, the block takes it, and the host reads the response. -/
def issue (i : Instr) (s : State) : Answer :=
  match step (issueFirst (encode i) (encodeSideBand i) s) with
  | .next s1 =>
    match s1.responses.getLast? with
    | some r => .response r s1
    | none => .nothing
  | .fault _ => .nothing
  | .refused _ => .nothing

/-- The result of `encode`: "ok-with-bytes / capacity-error" (R71). -/
inductive EncodeResult where
  | ok (bytes : List Byte)
  | capacityError
  /-- A command got no answer (no state of a run leads here). -/
  | noAnswer
deriving DecidableEq, Repr

/-- The end of `encode`: `enc.flush`, then the host reads `E.OUT` (R71, R36). -/
def encodeFinish (s : State) : EncodeResult × State :=
  match issue .encFlush s with
  | .nothing => (.noAnswer, s)
  | .response r s1 =>
    if r.status = .ok then
      match hostReadOut s1 with
      | some bytes => (.ok bytes, s1)
      | none => (.noAnswer, s1)
    else (.capacityError, s1)

/-- The loop of `encode` over the bits, in order (R71). -/
def encodeLoop : List Bool → State → EncodeResult × State
  | [], s => encodeFinish s
  | b :: rest, s =>
    match issue (.encBit b) s with
    | .nothing => (.noAnswer, s)
    | .response r s1 => if r.status = .ok then encodeLoop rest s1 else (.capacityError, s1)

/-- `encode(B)` (R71). -/
def hostEncode (bits : List Bool) (s : State) : EncodeResult × State :=
  match issue .encInit s with
  | .nothing => (.noAnswer, s)
  | .response _ s1 => encodeLoop bits s1

/-- The conventional trailer `FF D9`, which the host appends and removes (R71, R94, R39). -/
def trailer : List Byte := [0xFF, 0xD9]

/-- `encode_stream(B)` (R71). -/
def hostEncodeStream (bits : List Bool) (s : State) : EncodeResult × State :=
  match hostEncode bits s with
  | (.ok bytes, s1) => (.ok (bytes ++ trailer), s1)
  | (.capacityError, s1) => (.capacityError, s1)
  | (.noAnswer, s1) => (.noAnswer, s1)

/-- The result of a decode: "ok-with-bits / exhausted / malformed" (R91, D25). -/
inductive DecodeResult where
  | ok (bits : List Bool)
  | exhausted (bits : List Bool)
  | malformed (bits : List Bool)
  /-- A command got no answer, or the passes allowed to the loop ran out (no state of a run leads here). -/
  | noAnswer
deriving DecidableEq, Repr

/-- `v[0]` of a response (R91). -/
def responseBit (r : Response) : Bool := r.value.getLsbD 0

/-- The loop of `decode_stream`, with `n` passes allowed; `bits` are those decoded so far (R91). -/
def decodeStreamLoop : Nat → List Bool → State → DecodeResult × State
  | 0, _, s => (.noAnswer, s)
  | n + 1, bits, s =>
    match issue .decBit s with
    | .nothing => (.noAnswer, s)
    | .response r s1 =>
      let bits1 := bits ++ [responseBit r]
      match r.status with
      | .exhausted => (.ok bits1, s1)
      | .malformed => (.malformed bits1, s1)
      | .ok => decodeStreamLoop n bits1 s1
      | .capacityExceeded => decodeStreamLoop n bits1 s1
      | .illegal => decodeStreamLoop n bits1 s1
      | .notReady => decodeStreamLoop n bits1 s1

/-- How many `dec.bit` commands the self-terminating decode of `len` bytes can take: `AVAIL` holds 16 bits at most
beside 8 for each byte still to come, every command off the fast path lowers that by one, and at most 0x8000 commands
in a row take the fast path (R91). -/
def decodeBound (len : Nat) : Nat := (8 * len + 17) * 0x8001

/-- `decode_stream(Bytes)`, the self-terminating form (R91). -/
def hostDecodeStream (bytes : List Byte) (s : State) : DecodeResult × State :=
  match issue (.decInit bytes) s with
  | .nothing => (.noAnswer, s)
  | .response r s1 =>
    match r.status with
    | .malformed => (.malformed [], s1)
    | .exhausted => (.exhausted [], s1)
    | .ok => decodeStreamLoop (decodeBound bytes.length) [] s1
    | .capacityExceeded => decodeStreamLoop (decodeBound bytes.length) [] s1
    | .illegal => decodeStreamLoop (decodeBound bytes.length) [] s1
    | .notReady => decodeStreamLoop (decodeBound bytes.length) [] s1

/-- The loop of `decode_n` (R92). -/
def decodeNLoop : Nat → List Bool → State → DecodeResult × State
  | 0, bits, s => (.ok bits, s)
  | n + 1, bits, s =>
    match issue .decBit s with
    | .nothing => (.noAnswer, s)
    | .response r s1 =>
      let bits1 := bits ++ [responseBit r]
      if r.status = .malformed then (.malformed bits1, s1) else decodeNLoop n bits1 s1

/-- `decode_n(Bytes, n)`, the length-driven form (R92). -/
def hostDecodeN (bytes : List Byte) (n : Nat) (s : State) : DecodeResult × State :=
  match issue (.decInit bytes) s with
  | .nothing => (.noAnswer, s)
  | .response r s1 => if r.status = .malformed then (.malformed [], s1) else decodeNLoop n [] s1

end Sys2Proof.Machine
end

