-- ==== Sys2Proof/Machine/Platform.lean ====
section
/-! DEFINITION. A platform of `N_ENC` encoder units and `N_DEC` decoder units over one table (spec/60_exceptions.md rule
R111, spec/00_scope.md rule R4): "a model of several is the product of copies". A unit's command runs as it does on the
block, on that unit's registers. -/

namespace Sys2Proof.Machine

/-- The parameters at which the spec describes one unit of each (R4, D35). -/
def defaultPlatformConfig : PlatformConfig := { block := defaultConfig, nEnc := 1, nDec := 1 }

/-- Which unit a command runs on: the units have no identifiers in the command word, and the host addresses one by its
own means (R111); an accessor reads the table ROM only (R10). -/
inductive UnitName where
  | encoder (k : Nat)
  | decoder (k : Nat)
  | rom
deriving DecidableEq, Repr

/-- The unit of a command that the host addresses to number `k` of the kind it belongs to (R10, R111). -/
def unitOf (k : Nat) : Instr → UnitName
  | .encInit => .encoder k
  | .encBit _ => .encoder k
  | .encFlush => .encoder k
  | .decInit _ => .decoder k
  | .decBit => .decoder k
  | .tblQe _ => .rom
  | .tblNlps _ => .rom
  | .tblNmps _ => .rom
  | .tblSwitch _ => .rom

/-- An encoder unit of a platform: its registers, and how many free values it has drawn (the model's field). -/
structure EncUnit where
  enc : Enc
  drawn : Nat
deriving DecidableEq, Repr

/-- A platform: its parameters and the units of each kind, number 0 first. -/
structure Platform where
  cfg : PlatformConfig
  encs : List EncUnit
  decs : List Dec
deriving DecidableEq, Repr

/-- The platform holds `N_ENC` encoders and `N_DEC` decoders, of parameters R4 allows. -/
def Platform.wf (p : Platform) : Bool :=
  p.cfg.ok && p.encs.length == p.cfg.nEnc && p.decs.length == p.cfg.nDec

/-- The platform right after reset: every unit as in R28 and R120. -/
def Platform.reset (cfg : PlatformConfig) : Platform :=
  { cfg := cfg
    encs := List.replicate cfg.nEnc { enc := Enc.reset, drawn := 0 }
    decs := List.replicate cfg.nDec Dec.reset }

/-- A unit's view of the block: the parameters, its own registers, and nothing pending (R35: no unit reads another's
registers, so the other unit of the block is any). -/
def Platform.view (p : Platform) (e : Enc) (d : Dec) (free : Nat) : State :=
  { cfg := p.cfg.block, enc := e, dec := d, inputs := [], responses := [], free := free }

/-- Where encoder `k` draws its next free value: the encoders draw from places of their own, so that their undefined
outputs are not tied to one another (notes/assumptions/9.md). -/
def Platform.freeAt (p : Platform) (k : Nat) (u : EncUnit) : Nat := p.cfg.nEnc * u.drawn + k

/-- A command to encoder `k`; none when there is no such unit, or no answer (which no state of a run leads to). -/
def Platform.issueEnc (k : Nat) (i : Instr) (p : Platform) : Option (Response × Platform) :=
  match p.encs[k]? with
  | none => none
  | some u =>
    match issue i (p.view u.enc Dec.reset (p.freeAt k u)) with
    | .nothing => none
    | .response r t =>
      some (r, { p with encs := p.encs.set k { enc := t.enc, drawn := u.drawn + (t.free - p.freeAt k u) } })

/-- A command to decoder `k`; none as for an encoder. -/
def Platform.issueDec (k : Nat) (i : Instr) (p : Platform) : Option (Response × Platform) :=
  match p.decs[k]? with
  | none => none
  | some d =>
    match issue i (p.view Enc.reset d 0) with
    | .nothing => none
    | .response r t => some (r, { p with decs := p.decs.set k t.dec })

/-- An accessor: the shared ROM answers, and no unit changes (R38, R52 to R55). -/
def Platform.issueRom (i : Instr) (p : Platform) : Option (Response × Platform) :=
  match issue i (p.view Enc.reset Dec.reset 0) with
  | .nothing => none
  | .response r _ => some (r, p)

/-- The host issues a command to number `k` of its kind (R111). -/
def Platform.issueTo (k : Nat) (i : Instr) (p : Platform) : Option (Response × Platform) :=
  match unitOf k i with
  | .encoder k => p.issueEnc k i
  | .decoder k => p.issueDec k i
  | .rom => p.issueRom i

/-- The host issues a sequence of addressed commands, and reads their responses in order. -/
def Platform.issueAll : List (Nat × Instr) → Platform → Option (List Response × Platform)
  | [], p => some ([], p)
  | (k, i) :: rest, p =>
    match p.issueTo k i with
    | none => none
    | some (r, p1) =>
      match p1.issueAll rest with
      | none => none
      | some (rs, p2) => some (r :: rs, p2)

/-- Reset asserted on the platform (R120): every unit as right after reset. -/
def Platform.assertReset (p : Platform) : Platform :=
  { p with
    encs := p.encs.map fun u => { u with enc := Enc.reset }
    decs := p.decs.map fun _ => Dec.reset }

end Sys2Proof.Machine
end

