-- ==== Sys2Proof/Safety.lean ====
section
/-! DEFINITION. What counts as a good state of the block, in the terms the statements use: the invariants of
spec/10_state.md rules R26 and R27 with what makes them inductive (spec/41_encoder.md rules R66, R69, R73), and the
exact arithmetic that the encoder's and the decoder's registers stand for (spec/20_memory.md rule R32). -/

namespace Sys2Proof.Machine

/-- Every 0xFF byte is immediately followed by 0x00; a final 0xFF is followed by nothing (R66 item 4, R72 items 1, 2). -/
def stuffed : List Byte → Bool
  | [] => true
  | [b] => b != 0xFF
  | b :: b1 :: rest => (b != 0xFF || b1 == 0x00) && stuffed (b1 :: rest)

/-- The encoder's registers as ENC_INIT leaves them, but for `E.OUT` (R60). -/
def freshEncoder (e : Enc) : Prop :=
  e.a = 0x10000 ∧ e.c = 0 ∧ e.ct = 11 ∧ e.st = 0 ∧ e.idx = 0 ∧ e.mps = false ∧ e.obuf = [0x00]

/-- The encoder between commands in CODING. R26 items 1 to 6 (`E.IDX` and `E.MPS` of item 3 by their types), and what
keeps them: while no byte is in the buffer a carry cannot reach the placeholder (`unspent`, R66 item 3), and the last
byte of the buffer is never a stuffing byte (`body`, R66 items 1, 2, 4). -/
structure EncCoding (e : Enc) : Prop where
  aLow : 0x8000 ≤ e.a.toNat
  aHigh : e.a.toNat ≤ 0x10000
  fresh : e.a.toNat = 0x10000 → freshEncoder e
  ctLow : 1 ≤ e.ct.toNat
  ctHigh : e.ct.toNat ≤ 11
  early : 9 ≤ e.ct.toNat → e.obuf = [0x00] ∧ e.st = 0
  unspent : e.obuf = [0x00] → e.c.toNat + e.a.toNat ≤ 0x10000 * 2 ^ (11 - e.ct.toNat)
  window : e.ct.toNat ≤ 8 → e.c.toNat + e.a.toNat < 0x90000 * 2 ^ (8 - e.ct.toNat)
  placeholder : e.obuf.head? = some 0x00
  lastByte : e.obuf.getLast? ≠ some 0xFF
  body : stuffed e.obuf.dropLast = true

/-- The encoder in DONE: nothing stacked, nothing left in `E.C` (R69), and `E.OUT` is the trimmed buffer (R67, R70). -/
structure EncDone (e : Enc) : Prop where
  stacked : e.st = 0
  code : e.c = 0
  placeholder : e.obuf.head? = some 0x00
  stuffing : stuffed e.obuf = true
  output : e.out = trim e.obuf.tail

/-- The decoder's interval width, `D.A = 0` read as 0x10000 (R19, R27). -/
def decWidth (d : Dec) : Nat := if d.a = 0 then 0x10000 else d.a.toNat

/-- The decoder between commands in DECODING: R27 items 1 to 4 (item 5 by the type of `D.IDX`); `D.A = 0` only before
the first DEC_BIT, when the unit is as DEC_INIT left it; while input is left, every bit held is a real one (`real`:
real bits precede padding bits, R83). -/
structure DecDecoding (d : Dec) : Prop where
  aRange : d.a = 0 ∨ 0x8000 ≤ d.a.toNat
  fresh : d.a = 0 → d = initDecoder d.inp
  window : d.c.toNat < decWidth d
  ctHigh : d.ct.toNat ≤ 7
  pending : d.d.toNat % 2 ^ (8 - d.ct.toNat) = 0
  availHigh : d.avail ≤ 16 + d.ct.toNat
  real : d.cur < d.inp.length → d.avail = 16 + d.ct.toNat

/-- A good state: a table that meets R56, the encoder's and the decoder's invariants in the phases they belong to, and
R22: `0 <= D.CUR <= len(D.IN)`. -/
structure Inv (s : State) : Prop where
  table : s.cfg.ok = true
  coding : s.enc.ph = .coding → EncCoding s.enc
  done : s.enc.ph = .done → EncDone s.enc
  decoding : s.dec.ph = .decoding → DecDecoding s.dec
  cursor : s.dec.cur ≤ s.dec.inp.length

/-- `E.OBUF` holds no more than `OUT_CAP` bytes besides the placeholder (R33). -/
def withinCapacity (s : State) : Prop :=
  ∀ n, s.cfg.outCap = some n → s.enc.obuf.length ≤ n + 1

/-- A safe run: no step of it stops with a fault or a refusal. -/
def safeFor : Nat → State → Prop
  | 0, _ => True
  | n + 1, s => ∃ t, step s = .next t ∧ safeFor n t

/-- The bytes without the stuffing: the byte after each 0xFF is left out. -/
def destuff : List Byte → List Byte
  | [] => []
  | [b] => [b]
  | b :: b1 :: rest => if b = 0xFF then b :: destuff rest else b :: destuff (b1 :: rest)

/-- A byte sequence as one number, most significant byte first (R32). -/
def bytesValue (bytes : List Byte) : Nat :=
  bytes.foldl (fun v b => 256 * v + b.toNat) 0

/-- The bytes the encoder has settled on or stacked: the buffer after the placeholder, destuffed, then `E.ST` bytes
0xFF (R16, R65). -/
def codeBytes (e : Enc) : List Byte :=
  destuff e.obuf.tail ++ List.replicate e.st 0xFF

/-- The whole code value of the encoder, in units of the lowest bit of `E.C`: the bytes above it, most significant
first, and `E.C` (R14, R32). BYTE_OUT moves bits from `E.C` to the bytes and leaves this value as it is. -/
def codeValue (e : Enc) : Nat :=
  bytesValue (codeBytes e) * 2 ^ (27 - e.ct.toNat) + e.c.toNat

/-- The bytes FETCH gives from here on, destuffed, up to the end of the input or the first malformed 0xFF (R81). -/
def plainBytes : List Byte → List Byte
  | [] => []
  | [b] => if b = 0xFF then [] else [b]
  | b :: b1 :: rest =>
    if b = 0xFF then (if b1 = 0x00 then b :: plainBytes rest else []) else b :: plainBytes (b1 :: rest)

/-- How many input bytes a plain byte sequence takes up on the wire: a stuffed 0xFF takes two (R81). -/
def wireLength (bytes : List Byte) : Nat := bytes.length + bytes.count 0xFF

/-- How many bytes FETCH can still give (R81): none in FAILED. -/
def bytesToCome (d : Dec) : Nat :=
  if d.ph = .failed then 0 else (plainBytes (d.inp.drop d.cur)).length

/-- The bits that RENORM_D will bring into `D.C`, before zero fill: those left in `D.D`, then those of the bytes still
to be fetched (R83). -/
def pendingBits (d : Dec) : List Bool :=
  (byteBits d.d).take d.ct.toNat ++
    (if d.ph = .failed then [] else (plainBytes (d.inp.drop d.cur)).flatMap byteBits)

/-- Bit `j` of those RENORM_D will bring into `D.C`, with the zero fill of R82. -/
def nextBit (d : Dec) (j : Nat) : Bool := (pendingBits d).getD j false

/-- The first `k` bits of a stream as a number, the first the most significant. -/
def bitsValue (f : Nat → Bool) : Nat → Nat
  | 0 => 0
  | k + 1 => 2 * bitsValue f k + (f k).toNat

/-- R44 on the number `w` of a word: the cases in which it is illegal, in the rule's order. -/
def illegalOpcode (w : Nat) : Prop :=
  w / 4096 = 0x0 ∨ w / 4096 = 0x6 ∨ w / 4096 = 0x7 ∨ 0xC ≤ w / 4096

/-- R44 case 2, R43: a reserved bit of the word's format is 1. -/
def reservedBitSet (w : Nat) : Prop :=
  (w / 4096 = 0x1 ∨ w / 4096 = 0x3 ∨ w / 4096 = 0x4 ∨ w / 4096 = 0x5) ∧ w % 4096 ≠ 0 ∨
  w / 4096 = 0x2 ∧ w % 4096 / 2 ≠ 0 ∨
  (0x8 ≤ w / 4096 ∧ w / 4096 ≤ 0xB) ∧ w % 4096 / 128 ≠ 0

/-- R44 case 3: a `tbl.*` word with `S > 112`. -/
def stateIndexTooHigh (w : Nat) : Prop :=
  (0x8 ≤ w / 4096 ∧ w / 4096 ≤ 0xB) ∧ 112 < w % 128

/-- The commands of the encoder unit. -/
def forEncoder : Instr → Bool
  | .encInit => true
  | .encBit _ => true
  | .encFlush => true
  | .decInit _ => false
  | .decBit => false
  | .tblQe _ => false
  | .tblNlps _ => false
  | .tblNmps _ => false
  | .tblSwitch _ => false

/-- The commands of the decoder unit. -/
def forDecoder : Instr → Bool
  | .encInit => false
  | .encBit _ => false
  | .encFlush => false
  | .decInit _ => true
  | .decBit => true
  | .tblQe _ => false
  | .tblNlps _ => false
  | .tblNmps _ => false
  | .tblSwitch _ => false

/-- The statuses a legal command can respond with (R100, column "raised by"; R103, R104, R105). -/
def mayRespond (i : Instr) (st : Status) : Bool :=
  match i with
  | .encInit => st == .ok
  | .encBit _ => st == .ok || st == .capacityExceeded || st == .notReady
  | .encFlush => st == .ok || st == .capacityExceeded || st == .notReady
  | .decInit _ => st == .ok || st == .exhausted || st == .malformed
  | .decBit => st == .ok || st == .exhausted || st == .malformed || st == .notReady
  | .tblQe _ => st == .ok
  | .tblNlps _ => st == .ok
  | .tblNmps _ => st == .ok
  | .tblSwitch _ => st == .ok

end Sys2Proof.Machine
end

