-- ==== Sys2Proof/Certificates/Slice0/Obligations.lean ====
section
/-! DEFINITION. The statements about the model, for the provers; OBLIGATIONS.json lists them. -/

open Sys2Proof Sys2Proof.Machine

/-! ### Encoding (spec/30_encoding.md) -/

/-- Decoding the word and side-band bytes of a legal command gives the command back, with every operand (R41, R42, R45,
R49). -/
def Obligations.DecodeOfEncodeIsTheCommand : Prop :=
  ∀ i : Instr, i.wf = true → decode (encode i) (encodeSideBand i) = .ok i

/-- A word the decoder accepts has one meaning: the command is legal, its word is that word, and its side-band operand,
if it takes one, is the one passed (R45, R49). -/
def Obligations.DecodedWordEncodesBack : Prop :=
  ∀ (w : Word) (inp : List Byte) (i : Instr), decode w inp = .ok i →
    i.wf = true ∧ encode i = w ∧ ∀ l, i = .decInit l → l = inp

/-- R45: what each of the 458 legal words decodes to, and that no other word is legal. -/
def Obligations.LegalWordsAreTheListed458 : Prop :=
  (∀ inp, decode 0x1000 inp = .ok .encInit ∧ decode 0x2000 inp = .ok (.encBit false) ∧
    decode 0x2001 inp = .ok (.encBit true) ∧ decode 0x3000 inp = .ok .encFlush ∧
    decode 0x4000 inp = .ok (.decInit inp) ∧ decode 0x5000 inp = .ok .decBit) ∧
  (∀ (inp : List Byte) (s : BitVec 7), s ≤ 112 →
    decode (0x8000 + s.setWidth 16) inp = .ok (.tblQe s) ∧ decode (0x9000 + s.setWidth 16) inp = .ok (.tblNlps s) ∧
    decode (0xA000 + s.setWidth 16) inp = .ok (.tblNmps s) ∧
    decode (0xB000 + s.setWidth 16) inp = .ok (.tblSwitch s)) ∧
  (∀ (inp : List Byte) (w : Word), (∃ i, decode w inp = .ok i) ↔
    w = 0x1000 ∨ w = 0x2000 ∨ w = 0x2001 ∨ w = 0x3000 ∨ w = 0x4000 ∨ w = 0x5000 ∨
    (0x8000 ≤ w ∧ w ≤ 0x8070) ∨ (0x9000 ≤ w ∧ w ≤ 0x9070) ∨ (0xA000 ≤ w ∧ w ≤ 0xA070) ∨
    (0xB000 ≤ w ∧ w ≤ 0xB070)) ∧
  ((List.range 65536).countP fun w => (decode (BitVec.ofNat 16 w) []).isOk) = 458

/-- R44, R102: which words are illegal; the step on one responds (ILLEGAL, 0) and changes no register, buffer or phase
of either unit; and the condition is not sticky: the next legal command runs as it would have without it. -/
def Obligations.IllegalWordsAreRefused : Prop :=
  (∀ (w : Word) (inp : List Byte), (∃ why, decode w inp = .error why) ↔
    illegalOpcode w.toNat ∨ reservedBitSet w.toNat ∨ stateIndexTooHigh w.toNat) ∧
  (∀ (s : State) (w : Word) (inp : List Byte) (rest : List Input),
    s.inputs = .command w inp :: rest → (∃ why, decode w inp = .error why) →
    step s = .next { s with inputs := rest, responses := s.responses ++ [⟨.illegal, 0⟩] } ∧
    ∀ w2 inp2 rest2 i, rest = .command w2 inp2 :: rest2 → decode w2 inp2 = .ok i →
      step { s with inputs := rest, responses := s.responses ++ [⟨.illegal, 0⟩] } =
        exec i { s with inputs := rest2, responses := s.responses ++ [⟨.illegal, 0⟩] }) ∧
  (∀ inp, decode 0x0000 inp = .error .opcode)

/-- The decoder and the rows of the opcode table agree: a word decodes to a command of a row's mnemonic exactly when
the row accepts it (R41, R45; opcode_table.json). -/
def Obligations.DecoderAgreesWithTheOpcodeTable : Prop :=
  ∀ (w : Word) (inp : List Byte) (m : String),
    (∃ i, decode w inp = .ok i ∧ i.mnemonic = m) ↔ ∃ row ∈ opcodeTable, row.mnemonic = m ∧ row.accepts w = true

/-- A few words written out from R41 and R42 decode to the commands they stand for. -/
def Obligations.SampleWordsDecode : Prop :=
  decode 0b0001000000000000 [] = .ok .encInit ∧ decode 0b0010000000000001 [] = .ok (.encBit true) ∧
  decode 0b0100000000000000 [0xFF, 0x00] = .ok (.decInit [0xFF, 0x00]) ∧
  decode 0b1010000000001101 [] = .ok (.tblNmps 13) ∧ decode 0b1011000001110000 [] = .ok (.tblSwitch 112)

/-- The step on a word that decodes runs the command it decodes to, on the state with that word taken (R10, R40, R45). -/
def Obligations.StepRunsTheDecodedCommand : Prop :=
  ∀ (s : State) (w : Word) (inp : List Byte) (rest : List Input) (i : Instr),
    s.inputs = .command w inp :: rest → decode w inp = .ok i → step s = exec i { s with inputs := rest }

/-! ### Reset and the command interface (spec/70_reset_and_hazards.md) -/

/-- A reset asserted by the platform puts both units in IDLE and discards the open operations; the table, the
parameters, the responses given and the commands still to come stand (R120). The values of the registers other than the
phases are the model's choice (notes/assumptions/4.md, 7.md), which this statement names by `Enc.reset` and
`Dec.reset`. With nothing issued, a step changes nothing (R110; the step itself is the model's, notes/assumptions/1.md). -/
def Obligations.ResetAndIdleSteps : Prop :=
  (∀ (s : State) (rest : List Input), s.inputs = .reset :: rest →
    step s = .next { s with inputs := rest, enc := Enc.reset, dec := Dec.reset }) ∧
  Enc.reset.ph = .idle ∧ Dec.reset.ph = .idle ∧ State.reset.cfg.probTable = defaultTable ∧
  (∀ s : State, s.inputs = [] → step s = .next s)

/-! ### The table (spec/40_probability_table.md) -/

/-- R52: the response, the encoding and the example. Two clauses are not the rule's alone: that `exec` itself answers
(ILLEGAL, 0) above 112, where the rule has the decoder refuse the word, is the model's (notes/assumptions/15.md,
DEDUCED); and the corner cases are of the rows of R50 (notes/assumptions/13.md, PRESUMED). -/
def Obligations.TblQeReadsQe : Prop :=
  (∀ (s : State) (n : BitVec 7) (idx : TableIndex), n.toNat = idx.val →
    exec (.tblQe n) s =
      .next { s with responses := s.responses ++ [⟨.ok, (s.cfg.probTable[idx.val].qe).setWidth 32⟩] } ∧
    encode (.tblQe n) = 0x8000 ||| n.setWidth 16) ∧
  (∀ (s : State) (n : BitVec 7), 112 < n.toNat →
    exec (.tblQe n) s = .next { s with responses := s.responses ++ [⟨.illegal, 0⟩] }) ∧
  (∀ idx, qe defaultConfig idx ≤ 0x5B12 ∧ (qe defaultConfig idx = 0x5B12 ↔ idx = 64) ∧
    1 ≤ qe defaultConfig idx ∧ (qe defaultConfig idx = 1 ↔ idx = 13) ∧ qe defaultConfig idx < 0x8000) ∧
  exec (.tblQe 0) State.reset = .next { State.reset with responses := [⟨.ok, 0x00005A1D⟩] }

/-- R53: the response, the encoding and the example. Two clauses are not the rule's alone: that `exec` itself answers
(ILLEGAL, 0) above 112, where the rule has the decoder refuse the word, is the model's (notes/assumptions/15.md,
DEDUCED); and the corner cases are of the rows of R50 (notes/assumptions/13.md, PRESUMED). -/
def Obligations.TblNlpsReadsNextLps : Prop :=
  (∀ (s : State) (n : BitVec 7) (idx : TableIndex), n.toNat = idx.val →
    exec (.tblNlps n) s =
      .next { s with responses := s.responses ++ [⟨.ok, BitVec.ofNat 32 s.cfg.probTable[idx.val].nextLps.val⟩] } ∧
    encode (.tblNlps n) = 0x9000 ||| n.setWidth 16) ∧
  (∀ (s : State) (n : BitVec 7), 112 < n.toNat →
    exec (.tblNlps n) s = .next { s with responses := s.responses ++ [⟨.illegal, 0⟩] }) ∧
  (∀ idx, nextLps defaultConfig idx = idx ↔ idx ∈ ([80, 88, 95, 105, 110, 112] : List TableIndex)) ∧
  exec (.tblNlps 1) State.reset = .next { State.reset with responses := [⟨.ok, 14⟩] }

/-- R54: the response, the encoding and the example. Two clauses are not the rule's alone: that `exec` itself answers
(ILLEGAL, 0) above 112, where the rule has the decoder refuse the word, is the model's (notes/assumptions/15.md,
DEDUCED); and the corner cases are of the rows of R50 (notes/assumptions/13.md, PRESUMED). -/
def Obligations.TblNmpsReadsNextMps : Prop :=
  (∀ (s : State) (n : BitVec 7) (idx : TableIndex), n.toNat = idx.val →
    exec (.tblNmps n) s =
      .next { s with responses := s.responses ++ [⟨.ok, BitVec.ofNat 32 s.cfg.probTable[idx.val].nextMps.val⟩] } ∧
    encode (.tblNmps n) = 0xA000 ||| n.setWidth 16) ∧
  (∀ (s : State) (n : BitVec 7), 112 < n.toNat →
    exec (.tblNmps n) s = .next { s with responses := s.responses ++ [⟨.illegal, 0⟩] }) ∧
  (∀ idx, nextMps defaultConfig idx = idx ↔ idx = 13) ∧
  (∀ idx, idx ≠ 13 → qe defaultConfig (nextMps defaultConfig idx) < qe defaultConfig idx) ∧
  (∀ idx : TableIndex,
    (idx.val ∉ [13, 35, 63, 79, 87, 94, 100, 104, 107, 109, 111, 112] →
      (nextMps defaultConfig idx).val = idx.val + 1)) ∧
  ([35, 63, 79, 87, 94, 100, 104, 107, 109, 111, 112] : List TableIndex).map (nextMps defaultConfig) =
    [9, 32, 48, 71, 86, 93, 99, 103, 107, 109, 111] ∧
  exec (.tblNmps 13) State.reset = .next { State.reset with responses := [⟨.ok, 13⟩] }

/-- R55: the response, the encoding and the examples. Two clauses are not the rule's alone: that `exec` itself answers
(ILLEGAL, 0) above 112, where the rule has the decoder refuse the word, is the model's (notes/assumptions/15.md,
DEDUCED); and the corner cases are of the rows of R50 (notes/assumptions/13.md, PRESUMED). -/
def Obligations.TblSwitchReadsSwitchMps : Prop :=
  (∀ (s : State) (n : BitVec 7) (idx : TableIndex), n.toNat = idx.val →
    exec (.tblSwitch n) s =
      .next { s with
        responses := s.responses ++ [⟨.ok, if s.cfg.probTable[idx.val].switchMps then 1 else 0⟩] } ∧
    encode (.tblSwitch n) = 0xB000 ||| n.setWidth 16) ∧
  (∀ (s : State) (n : BitVec 7), 112 < n.toNat →
    exec (.tblSwitch n) s = .next { s with responses := s.responses ++ [⟨.illegal, 0⟩] }) ∧
  (∀ idx, switchMps defaultConfig idx = true ↔
    idx ∈ ([0, 14, 36, 64, 80, 88, 95, 105, 110, 112] : List TableIndex)) ∧
  exec (.tblSwitch 14) State.reset = .next { State.reset with responses := [⟨.ok, 1⟩] } ∧
  exec (.tblSwitch 15) State.reset = .next { State.reset with responses := [⟨.ok, 0⟩] }

/-! ### The encoder (spec/41_encoder.md) -/

/-- R60: `enc.init`, accepted in every phase, sets every encoder register, opens the operation and responds (OK, 0);
`E.OUT` becomes some undefined sequence. No other command takes the encoder out of FAILED. -/
def Obligations.EncInitOpensAnOperation : Prop :=
  encode .encInit = 0x1000 ∧
  (∀ s : State, ∃ undefinedOut, exec .encInit s =
    .next { s with
      enc :=
        { ph := .coding, a := 0x10000, c := 0, ct := 11, st := 0, idx := 0, mps := false, obuf := [0x00],
          out := undefinedOut }
      free := s.free + 1
      responses := s.responses ++ [⟨.ok, 0⟩] }) ∧
  ∀ (i : Instr) (s t : State), s.enc.ph = .failed → exec i s = .next t → t.enc.ph ≠ .failed → i = .encInit

/-- R103: a command that needs an open operation its unit does not have is refused with (NOT_READY, 0) and no state
change; the INIT commands and the accessors never raise NOT_READY. -/
def Obligations.CommandsOutsideAnOperationAreNotReady : Prop :=
  (∀ s : State, s.enc.ph = .idle ∨ s.enc.ph = .done →
    (∀ d, exec (.encBit d) s = .next { s with responses := s.responses ++ [⟨.notReady, 0⟩] }) ∧
    exec .encFlush s = .next { s with responses := s.responses ++ [⟨.notReady, 0⟩] }) ∧
  (∀ s : State, s.dec.ph = .idle →
    exec .decBit s = .next { s with responses := s.responses ++ [⟨.notReady, 0⟩] }) ∧
  (∀ (i : Instr) (s : State),
    i = .encInit ∨ (∃ inp, i = .decInit inp) ∨
      (∃ n, i = .tblQe n ∨ i = .tblNlps n ∨ i = .tblNmps n ∨ i = .tblSwitch n) →
    ∃ t r, exec i s = .next t ∧ t.responses = s.responses ++ [r] ∧ r.status ≠ .notReady)

/-- The sticky refusals of FAILED: `enc.bit` and `enc.flush` with (CAPACITY_EXCEEDED, 0), `dec.bit` with (MALFORMED,
0), and no state change (R104, R105). -/
def Obligations.FailedUnitsRefuseWithTheirStatus : Prop :=
  (∀ s : State, s.enc.ph = .failed →
    (∀ d, exec (.encBit d) s = .next { s with responses := s.responses ++ [⟨.capacityExceeded, 0⟩] }) ∧
    exec .encFlush s = .next { s with responses := s.responses ++ [⟨.capacityExceeded, 0⟩] }) ∧
  (∀ s : State, s.dec.ph = .failed →
    exec .decBit s = .next { s with responses := s.responses ++ [⟨.malformed, 0⟩] })

/-- The fast path of CODE_MPS: an MPS that leaves `E.A >= 0x8000` changes `E.A` and nothing else (R61, R62). -/
def Obligations.EncBitFastPathChangesOnlyA : Prop :=
  ∀ s : State, s.enc.ph = .coding → 0x8000 + (qe s.cfg s.enc.idx).toNat ≤ s.enc.a.toNat →
    ∃ a' : BitVec 17, a'.toNat = s.enc.a.toNat - (qe s.cfg s.enc.idx).toNat ∧
      exec (.encBit s.enc.mps) s =
        .next { s with enc := { s.enc with a := a' }, responses := s.responses ++ [⟨.ok, 0⟩] }

/-- `enc.bit` in CODING is exact interval coding. After the subtraction of `qe`, the bit takes the lower part (width
`E.A - q`) or, for an LPS with `q <= E.A - q` and for an MPS that falls below both 0x8000 and `q`, the upper part
(width `q`, starting at `E.A - q`); the interval and the whole code value are then doubled the same number of times,
at most 15, until `E.A >= 0x8000`, one bit of output position for each doubling; and `E.IDX` and `E.MPS` follow the table row of the state
before the bit. `E.OUT`, the decoder and the rest of the state are unchanged; the buffer grows at its end, with at most
its last byte incremented (R61 to R65, R32, R33). This holds with an unbounded buffer, and with every capacity unless
the command fails on it (R104). -/
def Obligations.EncBitIsExactIntervalCoding : Prop :=
  ∀ (s : State) (d : Bool), Inv s → s.enc.ph = .coding →
    (s.cfg.outCap = none ∨ ∃ t, exec (.encBit d) s = .next t ∧ t.enc.ph ≠ .failed) →
    let e := s.enc
    let q := (qe s.cfg e.idx).toNat
    let low := e.a.toNat - q
    let upper := if d = e.mps then decide (low < 0x8000 ∧ low < q) else decide (q ≤ low)
    ∃ (e' : Enc) (k : Nat),
      exec (.encBit d) s = .next { s with enc := e', responses := s.responses ++ [⟨.ok, 0⟩] } ∧
      e'.ph = .coding ∧ e'.out = e.out ∧ (e.obuf <+: e'.obuf ∨ incLast e.obuf <+: e'.obuf) ∧
      k ≤ 15 ∧ 0x8000 ≤ e'.a.toNat ∧ e'.a.toNat ≤ 0xFFFF ∧
      e'.a.toNat = (if upper then q else low) * 2 ^ k ∧
      codeValue e' = (codeValue e + (if upper then low else 0)) * 2 ^ k ∧
      8 * (codeBytes e').length + e.ct.toNat = 8 * (codeBytes e).length + e'.ct.toNat + k ∧
      e'.idx =
        (if d = e.mps then (if 0x8000 ≤ low then e.idx else (s.cfg.probTable[e.idx.val]).nextMps)
         else (s.cfg.probTable[e.idx.val]).nextLps) ∧
      e'.mps = (if d = e.mps then e.mps else if (s.cfg.probTable[e.idx.val]).switchMps then !e.mps else e.mps)

/-- `enc.flush` in CODING closes the operation: DONE, `E.C = 0`, `E.ST = 0`, the other registers as they were, `E.OUT`
the trimmed buffer without the placeholder, and the response (OK, len(E.OUT)), for a length that fits the value (R67,
R69, R70; a longer one is a free value, notes/assumptions/6.md). This holds with an unbounded buffer, and with every
capacity unless the command fails on it (R104). -/
def Obligations.EncFlushClosesTheOperation : Prop :=
  ∀ s : State, Inv s → s.enc.ph = .coding →
    (s.cfg.outCap = none ∨ ∃ t, exec .encFlush s = .next t ∧ t.enc.ph ≠ .failed) →
    ∃ (obuf' : List Byte) (v : BitVec 32) (f : Nat),
      exec .encFlush s =
        .next { s with
          enc := { s.enc with ph := .done, c := 0, st := 0, obuf := obuf', out := trim obuf'.tail }
          free := f
          responses := s.responses ++ [⟨.ok, v⟩] } ∧
      ((trim obuf'.tail).length < 2 ^ 32 → v = BitVec.ofNat 32 (trim obuf'.tail).length ∧ f = s.free) ∧
      (s.enc.obuf <+: obuf' ∨ incLast s.enc.obuf <+: obuf') ∧
      (trim obuf'.tail).length ≤ obuf'.length - 1

/-- The bytes a flush leaves in `E.OUT` stand for a code inside the final interval: destuffed, and with the trimmed
zero bytes put back, they are a number in `[V, V + E.A)`, where `V` is the code value before the flush (R32, R67,
R68, R70). -/
def Obligations.FlushedCodeLiesInTheFinalInterval : Prop :=
  ∀ (s t : State), Inv s → s.enc.ph = .coding → exec .encFlush s = .next t → t.enc.ph = .done →
    let plain := destuff t.enc.out
    let n := (codeBytes s.enc).length + 2
    plain.length ≤ n ∧
    ∃ code, codeValue s.enc ≤ code ∧ code < codeValue s.enc + s.enc.a.toNat ∧
      bytesValue (plain ++ List.replicate (n - plain.length) 0x00) * 2 ^ (27 - s.enc.ct.toNat) = code * 2 ^ 16

/-- TRIM on a sequence written as a part that does not end in 0x00 followed by zero bytes: the zeros go, and one 0x00
comes back after a final 0xFF (R70). -/
def Obligations.TrimRemovesTrailingZeros : Prop :=
  ∀ (body : List Byte) (n : Nat), body.getLast? ≠ some 0x00 →
    trim (body ++ List.replicate n 0x00) = if body.getLast? = some 0xFF then body ++ [0x00] else body

/-- The output of a completed operation is well stuffed: each 0xFF is followed at once by 0x00, the last byte is not
0xFF, and a last byte 0x00 comes after a 0xFF (R72 items 1 to 3, R39). -/
def Obligations.FinishedOutputIsStuffed : Prop :=
  ∀ (s : State) (out : List Byte), Inv s → hostReadOut s = some out →
    (∀ i : Nat, out[i]? = some 0xFF → out[i + 1]? = some 0x00) ∧
    out.getLast? ≠ some 0xFF ∧
    (out.getLast? = some 0x00 → out.dropLast.getLast? = some 0xFF)

/-- A command of the encoder that fails on capacity ends at the failed append: FAILED, the buffer full, `E.OUT` and the
decoder untouched, the response (CAPACITY_EXCEEDED, 0); a command that does not fail responds OK (R33, R104). -/
def Obligations.CapacityFailureEndsTheCommand : Prop :=
  ∀ (s t : State) (i : Instr) (n : Nat), Inv s → withinCapacity s → s.enc.ph = .coding → s.cfg.outCap = some n →
    (∃ d, i = .encBit d) ∨ i = .encFlush → exec i s = .next t →
    t.cfg = s.cfg ∧ t.dec = s.dec ∧ t.inputs = s.inputs ∧
    ∃ r, t.responses = s.responses ++ [r] ∧
      (t.enc.ph = .failed → r = ⟨.capacityExceeded, 0⟩ ∧ t.enc.obuf.length = n + 1 ∧ t.enc.out = s.enc.out) ∧
      (t.enc.ph ≠ .failed → r.status = .ok)

/-- Whether `enc.bit` or `enc.flush` fails on a capacity `n` is decided by the buffer it would leave without one: when
that buffer fits, the command does exactly what it does unbounded; when it does not, the command fails with the buffer
full (R33, R104). -/
def Obligations.CapacityOnlyDecidesFailure : Prop :=
  ∀ (s : State) (i : Instr) (n : Nat), Inv s → withinCapacity s → s.cfg.outCap = some n →
    (∃ d, i = .encBit d) ∨ i = .encFlush →
    ∃ t, exec i { s with cfg := { s.cfg with outCap := none } } = .next t ∧
      (t.enc.obuf.length ≤ n + 1 → exec i s = .next { t with cfg := s.cfg }) ∧
      (n + 1 < t.enc.obuf.length →
        ∃ e, exec i s = .next { s with enc := e, responses := s.responses ++ [⟨.capacityExceeded, 0⟩] } ∧
          e.ph = .failed ∧ e.obuf.length = n + 1)

/-- No step takes the encoder buffer past `OUT_CAP` (R33, R104). -/
def Obligations.BufferStaysWithinCapacity : Prop :=
  ∀ s t : State, withinCapacity s → step s = .next t → withinCapacity t

/-- With `OUT_CAP = none` no step fails the encoder (R71, R104: "With the default ... the condition never arises"). -/
def Obligations.UnboundedBufferNeverFails : Prop :=
  ∀ s t : State, s.cfg.outCap = none → s.enc.ph ≠ .failed → step s = .next t →
    t.enc.ph ≠ .failed ∧
    ∀ r, t.responses = s.responses ++ [r] → r.status ≠ .capacityExceeded

/-! ### The decoder (spec/42_decoder.md) -/

/-- R81, with its three remarks: FETCH at the end of the input or in FAILED, at a plain byte (0x00 among them), at a
stuffed pair, and at a 0xFF followed by another byte or by nothing; the status of a FAILED decoder is MALFORMED. -/
def Obligations.FetchReadsTheInput : Prop :=
  ∀ d : Dec,
    (d.ph = .failed ∨ d.inp.length ≤ d.cur → fetch d = (0x00, d)) ∧
    (∀ b, d.ph ≠ .failed → d.inp[d.cur]? = some b → b ≠ 0xFF →
      fetch d = (b, { d with cur := d.cur + 1, avail := d.avail + 8 })) ∧
    (d.ph ≠ .failed → d.inp[d.cur]? = some 0xFF → d.inp[d.cur + 1]? = some 0x00 →
      fetch d = (0xFF, { d with cur := d.cur + 2, avail := d.avail + 8 })) ∧
    (d.ph ≠ .failed → d.inp[d.cur]? = some 0xFF → d.inp[d.cur + 1]? ≠ some 0x00 →
      fetch d = (0x00, { d with ph := .failed })) ∧
    (d.ph = .failed → statusD d = .malformed)

/-- `dec.init`, accepted in every phase, binds the input and primes the window with its first two destuffed bytes, zero
for each that is missing; it fails exactly when fewer than two bytes come before a malformed 0xFF; its status is that
of R88 and its value 0 (R80, R81, R82, R88). -/
def Obligations.DecInitPrimesTheWindow : Prop :=
  ∀ (s : State) (inp : List Byte),
    let plain := plainBytes inp
    let malformed := plain.length < 2 ∧ wireLength plain < inp.length
    ∃ (d : Dec) (st : Status),
      exec (.decInit inp) s = .next { s with dec := d, responses := s.responses ++ [⟨st, 0⟩] } ∧
      d.ph = (if malformed then .failed else .decoding) ∧ d.inp = inp ∧
      d.a = 0 ∧ d.d = 0 ∧ d.ct = 0 ∧ d.idx = 0 ∧ d.mps = false ∧
      d.c.toNat = 256 * (plain.getD 0 0x00).toNat + (plain.getD 1 0x00).toNat ∧
      d.avail = 8 * (plain.take 2).length ∧ d.cur = wireLength (plain.take 2) ∧
      st = (if malformed then .malformed else if plain = [] then .exhausted else .ok)

/-- The fast path of DEC_BIT: `D.MPS` is the bit, and no register but `D.A` changes; the status is OK or EXHAUSTED as
`D.AVAIL` already stood (R84, R85). -/
def Obligations.DecBitFastPathChangesOnlyA : Prop :=
  ∀ s : State, s.dec.ph = .decoding → 0x8000 + (qe s.cfg s.dec.idx).toNat ≤ decWidth s.dec →
    s.dec.c.toNat < decWidth s.dec - (qe s.cfg s.dec.idx).toNat →
    decWidth s.dec - (qe s.cfg s.dec.idx).toNat < 0x10000 →
    ∃ a' : BitVec 16, a'.toNat = decWidth s.dec - (qe s.cfg s.dec.idx).toNat ∧
      exec .decBit s =
        .next { s with
          dec := { s.dec with a := a' }
          responses := s.responses ++
            [⟨if s.dec.avail = 0 then .exhausted else .ok, if s.dec.mps then 1 else 0⟩] }

/-- `dec.bit` in DECODING is exact interval decoding. The window picks the lower part (width `D.A - q`) or the upper
part (width `q`); the bit is that of the table of R85; interval and window are then doubled the same number of times,
at most 15, the window taking in the next bits of the destuffed input with zero fill, until `D.A >= 0x8000`; `D.AVAIL`
loses one for each real bit that leaves; `D.IDX` and `D.MPS` follow the table row of the state before the bit; the
status is that of R88, with the bit as the value, even when a marker is met (R82 to R88, R90). -/
def Obligations.DecBitIsExactIntervalDecoding : Prop :=
  ∀ s : State, Inv s → s.dec.ph = .decoding →
    let d := s.dec
    let q := (qe s.cfg d.idx).toNat
    let low := decWidth d - q
    let upper := decide (low ≤ d.c.toNat)
    let lps := if upper then decide (q ≤ low) else decide (low < 0x8000 ∧ low < q)
    ∃ (d' : Dec) (k : Nat),
      exec .decBit s =
        .next { s with
          dec := d'
          responses := s.responses ++
            [⟨if d'.ph = .failed then .malformed else if d'.avail = 0 then .exhausted else .ok,
              if (lps != d.mps) then 1 else 0⟩] } ∧
      k ≤ 15 ∧ 0x8000 ≤ d'.a.toNat ∧
      d'.a.toNat = (if upper then q else low) * 2 ^ k ∧
      d'.c.toNat = (d.c.toNat - (if upper then low else 0)) * 2 ^ k + bitsValue (nextBit d) k ∧
      (∀ j, nextBit d' j = nextBit d (j + k)) ∧
      d'.inp = d.inp ∧ d'.avail + 8 * bytesToCome d' = d.avail + 8 * bytesToCome d - k ∧
      d'.idx =
        (if lps then (s.cfg.probTable[d.idx.val]).nextLps
         else if upper = false ∧ 0x8000 ≤ low then d.idx else (s.cfg.probTable[d.idx.val]).nextMps) ∧
      d'.mps = (if lps ∧ (s.cfg.probTable[d.idx.val]).switchMps then !d.mps else d.mps)

/-- A `dec.bit` leaves the unit FAILED only at a malformed 0xFF, which the cursor then points at; on input without one
the unit stays DECODING (R81, R90, R105). -/
def Obligations.DecBitFailsOnlyAtAMarker : Prop :=
  ∀ (s t : State), Inv s → s.dec.ph = .decoding → exec .decBit s = .next t →
    (t.dec.ph = .failed →
      t.dec.inp[t.dec.cur]? = some 0xFF ∧ t.dec.inp[t.dec.cur + 1]? ≠ some 0x00 ∧
      ∃ r, t.responses = s.responses ++ [r] ∧ r.status = .malformed) ∧
    (s.dec.cur + wireLength (plainBytes (s.dec.inp.drop s.dec.cur)) = s.dec.inp.length → t.dec.ph = .decoding)

/-- After the real bits are used up the unit goes on decoding padding bits: DECODING, every later `dec.bit` again
EXHAUSTED, the cursor at the end of the input (R82, R88, R106). -/
def Obligations.ExhaustedDecoderGoesOnDecoding : Prop :=
  ∀ s : State, Inv s → s.dec.ph = .decoding → s.dec.avail = 0 →
    ∃ (d' : Dec) (v : BitVec 32),
      exec .decBit s = .next { s with dec := d', responses := s.responses ++ [⟨.exhausted, v⟩] } ∧
      d'.ph = .decoding ∧ d'.avail = 0 ∧ d'.cur = s.dec.cur ∧ s.dec.cur = s.dec.inp.length ∧ v.toNat ≤ 1

/-! ### The whole machine -/

/-- The invariants of R26 and R27, with what makes them inductive, hold after every step from a state that has them. -/
def Obligations.EveryStepKeepsTheInvariant : Prop :=
  ∀ s t : State, Inv s → step s = .next t → Inv t

/-- The state after reset has the invariants. -/
def Obligations.ResetStateHasTheInvariant : Prop :=
  Inv State.reset ∧ withinCapacity State.reset

/-- From a state that has the invariants every step answers a next state, so every run of every length is safe: no
command is refused by the model, and none of its loops is endless (R101, R125). -/
def Obligations.EveryRunFromTheInvariantIsSafe : Prop :=
  ∀ (s : State) (n : Nat), Inv s → safeFor n s

/-- Every legal command, in every good state, answers a next state with exactly one response, of a status R100 allows
it, and with the value R46 gives it: 0 where the table says 0, the decoded bit (R85) for a `dec.bit` in DECODING, the
output length for a completed `enc.flush` of a length that fits, the row's field for an accessor (R46, R100, R125). -/
def Obligations.EveryCommandRespondsOnce : Prop :=
  ∀ (i : Instr) (s : State), Inv s → i.wf = true →
    ∃ t r, exec i s = .next t ∧ t.responses = s.responses ++ [r] ∧ mayRespond i r.status = true ∧
      (i = .encInit ∨ (∃ d, i = .encBit d) ∨ (∃ inp, i = .decInit inp) → r.value = 0) ∧
      (i = .encFlush → (r.status ≠ .ok → r.value = 0) ∧
        (r.status = .ok → t.enc.out.length < 2 ^ 32 → r.value = BitVec.ofNat 32 t.enc.out.length)) ∧
      (i = .decBit →
        let q := (qe s.cfg s.dec.idx).toNat
        let low := decWidth s.dec - q
        let lps := if low ≤ s.dec.c.toNat then decide (q ≤ low) else decide (low < 0x8000 ∧ low < q)
        r.value = if s.dec.ph = .decoding ∧ lps ≠ s.dec.mps then 1 else 0) ∧
      ∀ (n : BitVec 7) (idx : TableIndex), n.toNat = idx.val →
        let row := s.cfg.probTable[idx.val]
        (i = .tblQe n → r.value = row.qe.setWidth 32) ∧
        (i = .tblNlps n → r.value = BitVec.ofNat 32 row.nextLps.val) ∧
        (i = .tblNmps n → r.value = BitVec.ofNat 32 row.nextMps.val) ∧
        (i = .tblSwitch n → r.value = if row.switchMps then 1 else 0)

/-- The codes of the statuses (R100): distinct, and 6 and 7 never produced. -/
def Obligations.StatusCodesAreThoseOfTheTable : Prop :=
  [Status.ok, .exhausted, .malformed, .capacityExceeded, .illegal, .notReady].map statusCode = [0, 1, 2, 3, 4, 5] ∧
  (∀ a b, statusCode a = statusCode b → a = b) ∧ ∀ a, statusCode a ≠ 6 ∧ statusCode a ≠ 7

/-- What each command leaves alone when it answers a next state: the parameters and the commands to come always; the
encoder but for the encoder's commands, the decoder but for the decoder's; `E.OUT` for `enc.bit`; the input view for
`dec.bit`; and of the buffer every byte, but for its last one, which a carry may increment (R10, R30, R33, R35, R37). -/
def Obligations.CommandFrames : Prop :=
  ∀ (i : Instr) (s t : State), exec i s = .next t →
    t.cfg = s.cfg ∧ t.inputs = s.inputs ∧ s.responses <+: t.responses ∧
    (forEncoder i = false → t.enc = s.enc ∧ t.free = s.free) ∧
    (forDecoder i = false → t.dec = s.dec) ∧
    (i = .decBit → t.dec.inp = s.dec.inp) ∧
    (∀ d, i = .encBit d → t.enc.out = s.enc.out ∧ t.free = s.free) ∧
    ((∃ d, i = .encBit d) ∨ i = .encFlush →
      s.enc.obuf <+: t.enc.obuf ∨ incLast s.enc.obuf <+: t.enc.obuf)

/-- The two units share no mutable state: what a unit's command does depends on the parameters and that unit alone, and
not on the other unit, the commands to come or the responses given (R10, R35). -/
def Obligations.UnitsDoNotReadEachOther : Prop :=
  (∀ (i : Instr) (s u s' : State), forEncoder i = true → s.cfg = u.cfg → s.enc = u.enc → s.free = u.free →
    exec i s = .next s' →
    ∃ u' r, exec i u = .next u' ∧ u'.enc = s'.enc ∧ u'.free = s'.free ∧
      s'.responses = s.responses ++ [r] ∧ u'.responses = u.responses ++ [r]) ∧
  (∀ (i : Instr) (s u s' : State), forDecoder i = true → s.cfg = u.cfg → s.dec = u.dec → exec i s = .next s' →
    ∃ u' r, exec i u = .next u' ∧ u'.dec = s'.dec ∧
      s'.responses = s.responses ++ [r] ∧ u'.responses = u.responses ++ [r])

/-- R38: no step changes the table, every read of a row gives the same row after it as before, and the instances of a
platform share one table whatever is issued to them. -/
def Obligations.NoStepChangesTheTable : Prop :=
  (∀ s t : State, step s = .next t →
    t.cfg = s.cfg ∧ ∀ idx, tableRow t.cfg idx = tableRow s.cfg idx) ∧
  ∀ (p p1 : Platform) (k : Nat) (i : Instr) (r : Response),
    p.issueTo k i = some (r, p1) → p1.cfg = p.cfg

/-- The phases change by the listed events only (R11, R12). -/
def Obligations.PhasesChangeOnlyByTheListedEvents : Prop :=
  (∀ (i : Instr) (s t : State), exec i s = .next t →
    t.enc.ph = s.enc.ph ∨ (i = .encInit ∧ t.enc.ph = .coding) ∨
      (s.enc.ph = .coding ∧ i = .encFlush ∧ t.enc.ph = .done) ∨
      (s.enc.ph = .coding ∧ s.cfg.outCap ≠ none ∧ (i = .encFlush ∨ ∃ d, i = .encBit d) ∧ t.enc.ph = .failed)) ∧
  (∀ (i : Instr) (s t : State), exec i s = .next t →
    t.dec.ph = s.dec.ph ∨ (∃ inp, i = .decInit inp ∧ (t.dec.ph = .decoding ∨ t.dec.ph = .failed)) ∨
      (s.dec.ph = .decoding ∧ i = .decBit ∧ t.dec.ph = .failed)) ∧
  (∀ s t : State, exec .encInit s = .next t → t.enc.ph = .coding) ∧
  (∀ s t : State, Inv s → s.enc.ph = .coding → exec .encFlush s = .next t → t.enc.ph = .done ∨ t.enc.ph = .failed) ∧
  (∀ (s t : State) (inp : List Byte), exec (.decInit inp) s = .next t → t.dec.ph ≠ .idle)

/-- R108: the only way out of FAILED is the unit's INIT, or reset; they lead where the rule says; and neither INIT
reads any state left by the failed operation. -/
def Obligations.OnlyInitLeavesFailed : Prop :=
  (∀ s : State, ∃ t, exec .encInit s = .next t ∧ t.enc.ph = .coding) ∧
  (∀ (s : State) (inp : List Byte), ∃ t, exec (.decInit inp) s = .next t ∧
    (t.dec.ph = .decoding ∨
      t.dec.ph = .failed ∧ (plainBytes inp).length < 2 ∧ wireLength (plainBytes inp) < inp.length)) ∧
  (∀ (s : State) (rest : List Input), s.inputs = .reset :: rest →
    ∃ t, step s = .next t ∧ t.enc.ph = .idle ∧ t.dec.ph = .idle) ∧
  (∀ s t : State, s.enc.ph = .failed → step s = .next t →
    t.enc.ph = .failed ∨
    (∃ w inp rest, s.inputs = .command w inp :: rest ∧ decode w inp = .ok .encInit ∧ t.enc.ph = .coding) ∨
    (∃ rest, s.inputs = .reset :: rest ∧ t.enc.ph = .idle)) ∧
  (∀ s t : State, s.dec.ph = .failed → step s = .next t →
    t.dec.ph = .failed ∨
    (∃ w inp rest, s.inputs = .command w inp :: rest ∧ decode w inp = .ok (.decInit inp) ∧ t.dec.ph = .decoding) ∨
    (∃ rest, s.inputs = .reset :: rest ∧ t.dec.ph = .idle)) ∧
  (∀ (s : State) (e : Enc), exec .encInit { s with enc := e } = exec .encInit s) ∧
  (∀ (s : State) (d : Dec) (inp : List Byte), exec (.decInit inp) { s with dec := d } = exec (.decInit inp) s)

/-! ### The host procedures (R71, R91, R92, R93) and several instances (R111) -/

/-- With an unbounded buffer `encode` always succeeds, whatever the block was doing (R71, R60). -/
def Obligations.UnboundedEncodeSucceeds : Prop :=
  ∀ (s : State) (bits : List Bool), s.cfg.ok = true → s.cfg.outCap = none →
    ∃ bytes t, hostEncode bits s = (.ok bytes, t) ∧ t.enc.ph = .done ∧ t.enc.out = bytes ∧
      hostEncodeStream bits s = (.ok (bytes ++ [0xFF, 0xD9]), t)

/-- `encode` depends on the bits and the parameters alone: nothing left over in the block, and no free value, can be
seen in its output (R72 item 4). -/
def Obligations.EncodeIsDeterministic : Prop :=
  ∀ (s u : State) (bits : List Bool), s.cfg = u.cfg → (hostEncode bits s).1 = (hostEncode bits u).1

/-- The round trip: what `encode` makes of any bit sequence, with an unbounded buffer, the length-driven decode of a
block with the same table turns back into it (R93). -/
def Obligations.RoundTripRecoversEveryBitSequence : Prop :=
  ∀ (s u : State) (bits : List Bool), s.cfg.ok = true → s.cfg.outCap = none →
    u.cfg.probTable = s.cfg.probTable →
    ∃ bytes t v, hostEncode bits s = (.ok bytes, t) ∧ hostDecodeN bytes bits.length u = (.ok bits, v)

/-- The self-terminating decode of an encoded sequence agrees with it on the bits both have (R91, R93). -/
def Obligations.SelfTerminatingDecodeAgrees : Prop :=
  ∀ (s u t : State) (bits : List Bool) (bytes : List Byte), s.cfg.ok = true →
    u.cfg.probTable = s.cfg.probTable → hostEncode bits s = (.ok bytes, t) →
    (bytes = [] ∧ (hostDecodeStream bytes u).1 = .exhausted []) ∨
    ∃ decoded, (hostDecodeStream bytes u).1 = .ok decoded ∧ (decoded <+: bits ∨ bits <+: decoded)

/-- The loop of `decode_stream` ends for every finite input: the passes the model allows it never run out (R91). -/
def Obligations.DecodeStreamTerminates : Prop :=
  ∀ (s : State) (bytes : List Byte), s.cfg.ok = true → (hostDecodeStream bytes s).1 ≠ .noAnswer

/-- Bits regrouped by eight, most significant first and with an incomplete last group dropped, give back the bytes
whose bits `enc.byte` codes (R47, R91). -/
def Obligations.RegroupingRecoversTheBytes : Prop :=
  ∀ (vs : List Byte) (extra : List Bool), extra.length < 8 → regroup (vs.flatMap byteBits ++ extra) = vs

/-- Commands to different units may be interleaved in any order (R111, R10, R35). On one block, two commands that are
not both the encoder's and not both the decoder's (an encoder's and a decoder's among them) run in either order to the
same two units, parameters, inputs and free-value counter, each with the same response. On a platform, commands to two
different units, of one kind or of two, give the same responses and the same platform in either order. -/
def Obligations.InterleavingDoesNotMatter : Prop :=
  (∀ (i j : Instr) (s t u : State),
    forEncoder i = false ∨ forEncoder j = false → forDecoder i = false ∨ forDecoder j = false →
    exec i s = .next t → exec j t = .next u →
    ∃ t' ri rj, exec j s = .next t' ∧ exec i t' = .next { u with responses := s.responses ++ [rj, ri] } ∧
      t.responses = s.responses ++ [ri] ∧ u.responses = s.responses ++ [ri, rj] ∧
      t'.responses = s.responses ++ [rj]) ∧
  (∀ (p : Platform) (j k : Nat) (a b : Instr) (r1 r2 : Response) (p1 p2 : Platform), unitOf j a ≠ unitOf k b →
    p.issueTo j a = some (r1, p1) → p1.issueTo k b = some (r2, p2) →
    ∃ p3, p.issueTo k b = some (r2, p3) ∧ p3.issueTo j a = some (r1, p2))

/-- "Any interleaving of commands to different units gives each unit the same result as issuing its commands alone"
(R111): whatever sequence of commands a platform has answered, the commands of one unit in it, issued alone from the
same platform, give that unit the same registers and those commands the same responses. -/
def Obligations.EachUnitRunsAsIfAlone : Prop :=
  ∀ (p p1 : Platform) (cs : List (Nat × Instr)) (rs : List Response) (u : UnitName),
    p.issueAll cs = some (rs, p1) →
    ∃ p2, p.issueAll (cs.filter fun c => unitOf c.1 c.2 = u) =
        some (((cs.zip rs).filter fun c => unitOf c.1.1 c.1.2 = u).map Prod.snd, p2) ∧
      (∀ k, u = .encoder k → p2.encs[k]? = p1.encs[k]?) ∧
      (∀ k, u = .decoder k → p2.decs[k]? = p1.decs[k]?)

/-- Each unit of a platform is a copy of the block's (R111, R4): a command to it gives the response, and leaves it the
registers, that the command gives on any block of those parameters and registers; no other unit changes; and a platform
of `N_ENC` encoders and `N_DEC` decoders stays one. -/
def Obligations.PlatformUnitsAreCopiesOfTheBlock : Prop :=
  (∀ (p : Platform) (k : Nat) (i : Instr) (u : EncUnit) (s t : State) (r : Response),
    unitOf k i = .encoder k → p.encs[k]? = some u → s.cfg = p.cfg.block → s.enc = u.enc → s.free = p.freeAt k u →
    issue i s = .response r t →
    ∃ p1 u1, p.issueTo k i = some (r, p1) ∧ p1.encs[k]? = some u1 ∧ u1.enc = t.enc ∧
      p1.decs = p.decs ∧ ∀ j, j ≠ k → p1.encs[j]? = p.encs[j]?) ∧
  (∀ (p : Platform) (k : Nat) (i : Instr) (s t : State) (r : Response),
    unitOf k i = .decoder k → p.decs[k]? = some s.dec → s.cfg = p.cfg.block → issue i s = .response r t →
    ∃ p1, p.issueTo k i = some (r, p1) ∧ p1.decs[k]? = some t.dec ∧
      p1.encs = p.encs ∧ ∀ j, j ≠ k → p1.decs[j]? = p.decs[j]?) ∧
  (∀ (p : Platform) (k : Nat) (i : Instr) (s t : State) (r : Response),
    unitOf k i = .rom → s.cfg = p.cfg.block → issue i s = .response r t → p.issueTo k i = some (r, p)) ∧
  (∀ (p p1 : Platform) (k : Nat) (i : Instr) (r : Response),
    p.wf = true → p.issueTo k i = some (r, p1) → p1.wf = true) ∧
  (∀ cfg : PlatformConfig, cfg.ok = true → (Platform.reset cfg).wf = true)
end

