-- ==== Sys2Proof/Laws/State.lean ====
section
/-! SUPPORT. What each named update of State or of a unit leaves in each field. -/

namespace Sys2Proof.Machine

@[simp] theorem respond_cfg (st : Status) (v : BitVec 32) (s : State) : (respond st v s).cfg = s.cfg := rfl
@[simp] theorem respond_enc (st : Status) (v : BitVec 32) (s : State) : (respond st v s).enc = s.enc := rfl
@[simp] theorem respond_dec (st : Status) (v : BitVec 32) (s : State) : (respond st v s).dec = s.dec := rfl
@[simp] theorem respond_inputs (st : Status) (v : BitVec 32) (s : State) : (respond st v s).inputs = s.inputs := rfl
@[simp] theorem respond_free (st : Status) (v : BitVec 32) (s : State) : (respond st v s).free = s.free := rfl
@[simp] theorem respond_responses (st : Status) (v : BitVec 32) (s : State) :
    (respond st v s).responses = s.responses ++ [⟨st, v⟩] := rfl

@[simp] theorem platformReset_cfg (s : State) : (platformReset s).cfg = s.cfg := rfl
@[simp] theorem platformReset_enc (s : State) : (platformReset s).enc = Enc.reset := rfl
@[simp] theorem platformReset_dec (s : State) : (platformReset s).dec = Dec.reset := rfl
@[simp] theorem platformReset_inputs (s : State) : (platformReset s).inputs = s.inputs := rfl
@[simp] theorem platformReset_responses (s : State) : (platformReset s).responses = s.responses := rfl
@[simp] theorem platformReset_free (s : State) : (platformReset s).free = s.free := rfl

@[simp] theorem issueFirst_cfg (w : Word) (inp : List Byte) (s : State) : (issueFirst w inp s).cfg = s.cfg := rfl
@[simp] theorem issueFirst_enc (w : Word) (inp : List Byte) (s : State) : (issueFirst w inp s).enc = s.enc := rfl
@[simp] theorem issueFirst_dec (w : Word) (inp : List Byte) (s : State) : (issueFirst w inp s).dec = s.dec := rfl
@[simp] theorem issueFirst_inputs (w : Word) (inp : List Byte) (s : State) :
    (issueFirst w inp s).inputs = .command w inp :: s.inputs := rfl
@[simp] theorem issueFirst_responses (w : Word) (inp : List Byte) (s : State) :
    (issueFirst w inp s).responses = s.responses := rfl
@[simp] theorem issueFirst_free (w : Word) (inp : List Byte) (s : State) : (issueFirst w inp s).free = s.free := rfl

@[simp] theorem outIncLast_ph (e : Enc) : (outIncLast e).ph = e.ph := rfl
@[simp] theorem outIncLast_a (e : Enc) : (outIncLast e).a = e.a := rfl
@[simp] theorem outIncLast_c (e : Enc) : (outIncLast e).c = e.c := rfl
@[simp] theorem outIncLast_ct (e : Enc) : (outIncLast e).ct = e.ct := rfl
@[simp] theorem outIncLast_st (e : Enc) : (outIncLast e).st = e.st := rfl
@[simp] theorem outIncLast_idx (e : Enc) : (outIncLast e).idx = e.idx := rfl
@[simp] theorem outIncLast_mps (e : Enc) : (outIncLast e).mps = e.mps := rfl
@[simp] theorem outIncLast_obuf (e : Enc) : (outIncLast e).obuf = incLast e.obuf := rfl
@[simp] theorem outIncLast_out (e : Enc) : (outIncLast e).out = e.out := rfl

@[simp] theorem doubleE_ph (e : Enc) : (doubleE e).ph = e.ph := rfl
@[simp] theorem doubleE_a (e : Enc) : (doubleE e).a = e.a <<< 1 := rfl
@[simp] theorem doubleE_c (e : Enc) : (doubleE e).c = e.c <<< 1 := rfl
@[simp] theorem doubleE_ct (e : Enc) : (doubleE e).ct = e.ct - 1 := rfl
@[simp] theorem doubleE_st (e : Enc) : (doubleE e).st = e.st := rfl
@[simp] theorem doubleE_idx (e : Enc) : (doubleE e).idx = e.idx := rfl
@[simp] theorem doubleE_mps (e : Enc) : (doubleE e).mps = e.mps := rfl
@[simp] theorem doubleE_obuf (e : Enc) : (doubleE e).obuf = e.obuf := rfl
@[simp] theorem doubleE_out (e : Enc) : (doubleE e).out = e.out := rfl

@[simp] theorem takeUpper_ph (q : BitVec 16) (e : Enc) : (takeUpper q e).ph = e.ph := rfl
@[simp] theorem takeUpper_a (q : BitVec 16) (e : Enc) : (takeUpper q e).a = qeWide q := rfl
@[simp] theorem takeUpper_c (q : BitVec 16) (e : Enc) : (takeUpper q e).c = e.c + e.a.setWidth 32 := rfl
@[simp] theorem takeUpper_ct (q : BitVec 16) (e : Enc) : (takeUpper q e).ct = e.ct := rfl
@[simp] theorem takeUpper_st (q : BitVec 16) (e : Enc) : (takeUpper q e).st = e.st := rfl
@[simp] theorem takeUpper_idx (q : BitVec 16) (e : Enc) : (takeUpper q e).idx = e.idx := rfl
@[simp] theorem takeUpper_mps (q : BitVec 16) (e : Enc) : (takeUpper q e).mps = e.mps := rfl
@[simp] theorem takeUpper_obuf (q : BitVec 16) (e : Enc) : (takeUpper q e).obuf = e.obuf := rfl
@[simp] theorem takeUpper_out (q : BitVec 16) (e : Enc) : (takeUpper q e).out = e.out := rfl

@[simp] theorem clearFinalBits_ph (e : Enc) : (clearFinalBits e).ph = e.ph := rfl
@[simp] theorem clearFinalBits_a (e : Enc) : (clearFinalBits e).a = e.a := rfl
@[simp] theorem clearFinalBits_ct (e : Enc) : (clearFinalBits e).ct = e.ct := rfl
@[simp] theorem clearFinalBits_st (e : Enc) : (clearFinalBits e).st = e.st := rfl
@[simp] theorem clearFinalBits_idx (e : Enc) : (clearFinalBits e).idx = e.idx := rfl
@[simp] theorem clearFinalBits_mps (e : Enc) : (clearFinalBits e).mps = e.mps := rfl
@[simp] theorem clearFinalBits_obuf (e : Enc) : (clearFinalBits e).obuf = e.obuf := rfl
@[simp] theorem clearFinalBits_out (e : Enc) : (clearFinalBits e).out = e.out := rfl

@[simp] theorem shiftWindow_ph (d : Dec) : (shiftWindow d).ph = d.ph := rfl
@[simp] theorem shiftWindow_a (d : Dec) : (shiftWindow d).a = d.a <<< 1 := rfl
@[simp] theorem shiftWindow_c (d : Dec) :
    (shiftWindow d).c = (d.c <<< 1) ||| (d.d >>> 7).setWidth 16 := rfl
@[simp] theorem shiftWindow_d (d : Dec) : (shiftWindow d).d = d.d <<< 1 := rfl
@[simp] theorem shiftWindow_ct (d : Dec) : (shiftWindow d).ct = d.ct - 1 := rfl
@[simp] theorem shiftWindow_avail (d : Dec) : (shiftWindow d).avail = d.avail - 1 := rfl
@[simp] theorem shiftWindow_cur (d : Dec) : (shiftWindow d).cur = d.cur := rfl
@[simp] theorem shiftWindow_inp (d : Dec) : (shiftWindow d).inp = d.inp := rfl
@[simp] theorem shiftWindow_idx (d : Dec) : (shiftWindow d).idx = d.idx := rfl
@[simp] theorem shiftWindow_mps (d : Dec) : (shiftWindow d).mps = d.mps := rfl

end Sys2Proof.Machine
end

