-- ==== Sys2Proof/Laws/Ops.lean ====
section
/-! SUPPORT. What the shared operations can do: the ways a procedure of the encoder ends, the buffer primitives, and
the byte sequences they build (spec/20_memory.md rule R33, spec/41_encoder.md rule R66). -/

namespace Sys2Proof.Machine

/-! ### How a procedure of the encoder ends -/

/-- The procedure ends, with `good` of its registers when it finishes and `bad` when it fails on capacity. -/
def EncRun.Ends (r : EncRun) (good bad : Enc → Prop) : Prop :=
  match r with
  | .finished e => good e
  | .full e => bad e
  | .endless => False

@[simp] theorem andThen_finished (e : Enc) (f : Enc → EncRun) : (EncRun.finished e).andThen f = f e := rfl
@[simp] theorem andThen_full (e : Enc) (f : Enc → EncRun) : (EncRun.full e).andThen f = .full e := rfl
@[simp] theorem andThen_endless (f : Enc → EncRun) : EncRun.endless.andThen f = .endless := rfl

@[simp] theorem ends_finished (e : Enc) (good bad : Enc → Prop) : (EncRun.finished e).Ends good bad ↔ good e := Iff.rfl
@[simp] theorem ends_full (e : Enc) (good bad : Enc → Prop) : (EncRun.full e).Ends good bad ↔ bad e := Iff.rfl
@[simp] theorem ends_endless (good bad : Enc → Prop) : EncRun.endless.Ends good bad ↔ False := Iff.rfl

theorem EncRun.Ends.andThen {r : EncRun} {f : Enc → EncRun} {mid good bad : Enc → Prop} (h : r.Ends mid bad)
    (hf : ∀ e, mid e → (f e).Ends good bad) : (r.andThen f).Ends good bad := by
  cases r with
  | finished e => exact hf e h
  | full e => exact h
  | endless => exact h

theorem EncRun.Ends.imp {r : EncRun} {good bad good' bad' : Enc → Prop} (h : r.Ends good bad)
    (hg : ∀ e, good e → good' e) (hb : ∀ e, bad e → bad' e) : r.Ends good' bad' := by
  cases r with
  | finished e => exact hg e h
  | full e => exact hb e h
  | endless => exact h

theorem EncRun.Ends.cases {r : EncRun} {good bad : Enc → Prop} (h : r.Ends good bad) :
    (∃ e, r = .finished e ∧ good e) ∨ ∃ e, r = .full e ∧ bad e := by
  cases r with
  | finished e => exact .inl ⟨e, rfl, h⟩
  | full e => exact .inr ⟨e, rfl, h⟩
  | endless => exact h.elim

/-! ### `OutAppend` and `OutIncLast` -/

@[simp] theorem bufferFull_none (obuf : List Byte) : bufferFull none obuf = false := rfl
@[simp] theorem bufferFull_some (n : Nat) (obuf : List Byte) :
    bufferFull (some n) obuf = decide (n ≤ obuf.length - 1) := rfl

theorem outAppend_ends (cap : Option Nat) (v : Byte) (e : Enc) :
    (outAppend cap v e).Ends
      (fun e' => bufferFull cap e.obuf = false ∧ e' = { e with obuf := e.obuf ++ [v] })
      (fun e' => bufferFull cap e.obuf = true ∧ e' = { e with ph := .failed }) := by
  unfold outAppend
  cases h : bufferFull cap e.obuf <;> simp

@[simp] theorem outAppend_none (v : Byte) (e : Enc) :
    outAppend none v e = .finished { e with obuf := e.obuf ++ [v] } := rfl

theorem incLast_append_singleton (body : List Byte) (x : Byte) : incLast (body ++ [x]) = body ++ [x + 1] := by
  induction body with
  | nil => rfl
  | cons b rest ih =>
    cases rest with
    | nil => rfl
    | cons c rest => simpa [incLast] using ih

@[simp] theorem incLast_length (bytes : List Byte) : (incLast bytes).length = bytes.length := by
  induction bytes with
  | nil => rfl
  | cons b rest ih =>
    cases rest with
    | nil => rfl
    | cons c rest => simpa [incLast] using ih

theorem incLast_append (body rest : List Byte) (h : rest ≠ []) : incLast (body ++ rest) = body ++ incLast rest := by
  obtain ⟨init, x, rfl⟩ := (List.eq_nil_or_concat rest).resolve_left h
  rw [List.concat_eq_append, ← List.append_assoc, incLast_append_singleton, incLast_append_singleton,
    List.append_assoc]

/-! ### Stuffing -/

@[simp] theorem stuffed_nil : stuffed [] = true := rfl
@[simp] theorem stuffed_singleton (b : Byte) : stuffed [b] = (b != 0xFF) := rfl
theorem stuffed_cons_cons (b c : Byte) (rest : List Byte) :
    stuffed (b :: c :: rest) = ((b != 0xFF || c == 0x00) && stuffed (c :: rest)) := rfl

/-- A well stuffed sequence may be followed by anything well stuffed. -/
theorem stuffed_append {xs ys : List Byte} (hx : stuffed xs = true) (hy : stuffed ys = true) :
    stuffed (xs ++ ys) = true := by
  induction xs with
  | nil => exact hy
  | cons b rest ih =>
    cases rest with
    | nil =>
      cases ys with
      | nil => exact hx
      | cons c rest =>
        rw [stuffed_singleton] at hx
        simp only [List.cons_append, List.nil_append, stuffed_cons_cons, hx, Bool.true_or, hy, Bool.and_self]
    | cons c rest =>
      rw [stuffed_cons_cons, Bool.and_eq_true] at hx
      simp only [List.cons_append, stuffed_cons_cons, hx.1, Bool.true_and]
      exact ih hx.2

theorem stuffed_of_forall {xs : List Byte} (h : ∀ b ∈ xs, b ≠ 0xFF) : stuffed xs = true := by
  induction xs with
  | nil => rfl
  | cons b rest ih =>
    have hb : (b != 0xFF) = true := by simpa using h b (by simp)
    cases rest with
    | nil => exact hb
    | cons c rest =>
      rw [stuffed_cons_cons, hb, Bool.true_or, Bool.true_and]
      exact ih fun x hx => h x (by simp [hx])

/-- `n` stuffed bytes 0xFF. -/
def stuffedRun : Nat → List Byte
  | 0 => []
  | n + 1 => 0xFF :: 0x00 :: stuffedRun n

theorem stuffedRun_cons_stuffed (n : Nat) (x : Byte) (hx : x ≠ 0xFF) :
    stuffed (x :: stuffedRun n) = true := by
  induction n generalizing x with
  | zero => simpa [stuffedRun] using hx
  | succ n ih =>
    have h0 := ih 0x00 (by decide)
    simp only [stuffedRun, stuffed_cons_cons, h0, Bool.and_true]
    simpa using hx

theorem stuffed_stuffedRun (n : Nat) : stuffed (stuffedRun n) = true := by
  cases n with
  | zero => rfl
  | succ n => simpa [stuffedRun, stuffed_cons_cons] using stuffedRun_cons_stuffed n 0x00 (by decide)

@[simp] theorem stuffedRun_length (n : Nat) : (stuffedRun n).length = 2 * n := by
  induction n with
  | zero => rfl
  | succ n ih => simp only [stuffedRun, List.length_cons, ih]; omega

/-! ### Destuffing and the value of a byte sequence -/

@[simp] theorem destuff_nil : destuff [] = [] := rfl
@[simp] theorem destuff_singleton (b : Byte) : destuff [b] = [b] := rfl
theorem destuff_cons_cons (b c : Byte) (rest : List Byte) :
    destuff (b :: c :: rest) = if b = 0xFF then b :: destuff rest else b :: destuff (c :: rest) := rfl

theorem destuff_cons_of_ne {b : Byte} (rest : List Byte) (hb : b ≠ 0xFF) : destuff (b :: rest) = b :: destuff rest := by
  cases rest with
  | nil => rfl
  | cons c rest => rw [destuff_cons_cons, if_neg hb]

theorem destuff_append {xs : List Byte} (ys : List Byte) (hx : stuffed xs = true) :
    destuff (xs ++ ys) = destuff xs ++ destuff ys := by
  induction xs using destuff.induct with
  | case1 => rfl
  | case2 b =>
    have hb : b ≠ 0xFF := by simpa using hx
    simpa using destuff_cons_of_ne ys hb
  | case3 c rest ih =>
    rw [stuffed_cons_cons, Bool.and_eq_true] at hx
    have hr : stuffed rest = true := by
      cases rest with
      | nil => rfl
      | cons d rest => exact (Bool.and_eq_true _ _ ▸ stuffed_cons_cons c d rest ▸ hx.2).2
    simp only [List.cons_append, destuff_cons_cons, if_pos, ih hr]
  | case4 b c rest hb ih =>
    rw [stuffed_cons_cons, Bool.and_eq_true] at hx
    have h := ih hx.2
    simp only [List.cons_append] at h ⊢
    simp only [destuff_cons_cons, if_neg hb, h, List.cons_append]

theorem destuff_of_forall {xs : List Byte} (h : ∀ b ∈ xs, b ≠ 0xFF) : destuff xs = xs := by
  induction xs with
  | nil => rfl
  | cons b rest ih =>
    rw [destuff_cons_of_ne rest (h b (by simp)), ih fun x hx => h x (by simp [hx])]

theorem destuff_stuffedRun (n : Nat) (ys : List Byte) :
    destuff (stuffedRun n ++ ys) = List.replicate n 0xFF ++ destuff ys := by
  induction n with
  | zero => rfl
  | succ n ih => simp [stuffedRun, destuff_cons_cons, ih, List.replicate_succ]

theorem foldl_bytesValue (v : Nat) (bytes : List Byte) :
    bytes.foldl (fun v b => 256 * v + b.toNat) v = v * 256 ^ bytes.length + bytesValue bytes := by
  induction bytes generalizing v with
  | nil => simp [bytesValue]
  | cons b rest ih =>
    simp only [List.foldl_cons, bytesValue, List.length_cons]
    rw [ih, ih (256 * 0 + b.toNat)]
    ring

@[simp] theorem bytesValue_nil : bytesValue [] = 0 := rfl

theorem bytesValue_append (xs ys : List Byte) :
    bytesValue (xs ++ ys) = bytesValue xs * 256 ^ ys.length + bytesValue ys := by
  rw [bytesValue, List.foldl_append, foldl_bytesValue]; rfl

theorem bytesValue_cons (b : Byte) (rest : List Byte) :
    bytesValue (b :: rest) = b.toNat * 256 ^ rest.length + bytesValue rest := by
  simpa [bytesValue] using bytesValue_append [b] rest

theorem bytesValue_zeros (n : Nat) : bytesValue (List.replicate n 0x00) = 0 := by
  induction n with
  | zero => rfl
  | succ n ih => rw [List.replicate_succ, bytesValue_cons, ih]; simp

theorem bytesValue_ones (n : Nat) : bytesValue (List.replicate n 0xFF) + 1 = 256 ^ n := by
  induction n with
  | zero => rfl
  | succ n ih =>
    have h : bytesValue (List.replicate (n + 1) 0xFF) = 255 * 256 ^ n + bytesValue (List.replicate n 0xFF) := by
      simp [List.replicate_succ, bytesValue_cons]
    rw [h, pow_succ]; omega

theorem bytesValue_lt (bytes : List Byte) : bytesValue bytes < 256 ^ bytes.length := by
  induction bytes with
  | nil => simp
  | cons b rest ih =>
    have hb : b.toNat < 256 := b.isLt
    rw [bytesValue_cons, List.length_cons, pow_succ]
    nlinarith [Nat.mul_le_mul_right (256 ^ rest.length) (Nat.le_of_lt_succ hb)]

end Sys2Proof.Machine
end

