-- ==== Sys2Proof/Laws/ByteOut.lean ====
section
/-! SUPPORT. BYTE_OUT (spec/41_encoder.md rules R65, R66): what it appends, how it can fail, and that it moves bits of
the code value from `E.C` to the bytes without changing that value. -/

namespace Sys2Proof.Machine

/-! ### How the buffer grows -/

/-- `after` extends `before`, or `before` with its last byte incremented. -/
def Grown (before after : List Byte) : Prop := before <+: after ∨ incLast before <+: after

/-- The buffer is as before, or it is extended by at least one byte, perhaps with the old last byte incremented. -/
def Grows (before after : List Byte) : Prop :=
  after = before ∨ ∃ base tail, (base = before ∨ base = incLast before) ∧ tail ≠ [] ∧ after = base ++ tail

theorem Grows.refl (b : List Byte) : Grows b b := .inl rfl

theorem Grows.grown {b b' : List Byte} (h : Grows b b') : Grown b b' := by
  obtain rfl | ⟨base, tail, rfl | rfl, -, rfl⟩ := h
  · exact .inl (List.prefix_refl _)
  · exact .inl (List.prefix_append _ _)
  · exact .inr (List.prefix_append _ _)

theorem Grows.trans {b b' b'' : List Byte} (h : Grows b b') (h' : Grows b' b'') : Grows b b'' := by
  obtain rfl | ⟨base, tail, hb, ht, rfl⟩ := h
  · exact h'
  · obtain rfl | ⟨base', tail', rfl | rfl, ht', rfl⟩ := h'
    · exact .inr ⟨base, tail, hb, ht, rfl⟩
    · exact .inr ⟨base, tail ++ tail', hb, by simp [ht], by simp⟩
    · exact .inr ⟨base, incLast tail ++ tail', hb, by simp [ht'], by rw [incLast_append _ _ ht, List.append_assoc]⟩

theorem Grows.trans_grown {b b' b'' : List Byte} (h : Grows b b') (h' : Grown b' b'') : Grown b b'' := by
  obtain rfl | ⟨base, tail, hb, ht, rfl⟩ := h
  · exact h'
  · have hbase : base <+: b'' := by
      obtain h' | h' := h'
      · exact (List.prefix_append _ _).trans h'
      · rw [incLast_append _ _ ht] at h'
        exact (List.prefix_append _ _).trans h'
    obtain rfl | rfl := hb
    · exact .inl hbase
    · exact .inr hbase

/-- The buffer holds no more than the capacity beside the placeholder. -/
def Fits (cap : Option Nat) (obuf : List Byte) : Prop := ∀ n, cap = some n → obuf.length ≤ n + 1

theorem fits_of_not_full {cap : Option Nat} {obuf : List Byte} (v : Byte) (h : bufferFull cap obuf = false) :
    Fits cap (obuf ++ [v]) := by
  rintro n rfl
  simp only [bufferFull_some, decide_eq_false_iff_not] at h
  simp only [List.length_append, List.length_singleton]
  omega

/-- A command of the encoder, begun with the registers `e`, has failed on capacity with the registers `e'` (R104). -/
structure Stopped (cap : Option Nat) (e e' : Enc) : Prop where
  ph : e'.ph = .failed
  full : bufferFull cap e'.obuf = true
  grown : Grown e.obuf e'.obuf
  out : e'.out = e.out
  within : Fits cap e.obuf → Fits cap e'.obuf

theorem Stopped.of_grows {cap : Option Nat} {e e1 e' : Enc} (h : Stopped cap e1 e') (hg : Grows e.obuf e1.obuf)
    (ho : e1.out = e.out) (hw : Fits cap e.obuf → Fits cap e1.obuf) : Stopped cap e e' :=
  ⟨h.ph, h.full, hg.trans_grown h.grown, h.out.trans ho, fun hf => h.within (hw hf)⟩

theorem Stopped.cap_ne_none {cap : Option Nat} {e e' : Enc} (h : Stopped cap e e') : cap ≠ none := by
  rintro rfl; simpa using h.full

/-! ### BYTE_OUT -/

theorem grown_of_append {b base tail : List Byte} (hb : base = b ∨ base = incLast b) : Grown b (base ++ tail) := by
  obtain rfl | rfl := hb
  · exact .inl (List.prefix_append _ _)
  · exact .inr (List.prefix_append _ _)

/-- A run of appends by an encoder procedure: what it has appended when it finishes, or where it stopped. `base` is the
buffer it started from. -/
def Appends (cap : Option Nat) (base : List Byte) (e : Enc) (tail : List Byte) (st : Nat) (r : EncRun) : Prop :=
  r.Ends
    (fun e' => e' = { e with obuf := e.obuf ++ tail, st := st } ∧ (Fits cap base → Fits cap e'.obuf))
    (fun e' => e'.ph = .failed ∧ bufferFull cap e'.obuf = true ∧ e.obuf <+: e'.obuf ∧ e'.out = e.out ∧
      (Fits cap base → Fits cap e'.obuf))

theorem outAppend_appends (cap : Option Nat) (base : List Byte) (v : Byte) (e : Enc)
    (hw : Fits cap base → Fits cap e.obuf) : Appends cap base e [v] e.st (outAppend cap v e) :=
  (outAppend_ends cap v e).imp
    (by rintro _ ⟨h, rfl⟩; exact ⟨rfl, fun _ => fits_of_not_full v h⟩)
    (by rintro _ ⟨h, rfl⟩; exact ⟨rfl, h, List.prefix_refl _, rfl, hw⟩)

theorem Appends.andThen {cap : Option Nat} {base : List Byte} {e : Enc} {tail tail' : List Byte} {st st' : Nat}
    {r : EncRun} {f : Enc → EncRun} (h : Appends cap base e tail st r)
    (hf : ∀ e1, e1 = { e with obuf := e.obuf ++ tail, st := st } → (Fits cap base → Fits cap e1.obuf) →
      Appends cap base e1 tail' st' (f e1)) :
    Appends cap base e (tail ++ tail') st' (r.andThen f) := by
  refine EncRun.Ends.andThen h fun e1 he1 => ?_
  refine (hf e1 he1.1 he1.2).imp ?_ ?_
  · rintro e2 ⟨rfl, hw⟩
    refine ⟨?_, hw⟩
    rw [he1.1]; simp
  · rintro e2 ⟨hp, hb, hx, ho, hw⟩
    refine ⟨hp, hb, ?_, ?_, hw⟩
    · exact (he1.1 ▸ List.prefix_append e.obuf tail : e.obuf <+: e1.obuf).trans hx
    · rw [ho, he1.1]

theorem drainCarry_appends (cap : Option Nat) (base : List Byte) (n : Nat) (e : Enc)
    (hw : Fits cap base → Fits cap e.obuf) :
    Appends cap base e (List.replicate n 0x00) (e.st - n) (drainCarry cap n e) := by
  induction n generalizing e with
  | zero => exact ⟨by simp, hw⟩
  | succ n ih =>
    have h := (outAppend_appends cap base 0x00 e hw).andThen
      (f := fun e1 => drainCarry cap n { e1 with st := e1.st - 1 })
      (tail' := List.replicate n 0x00) (st' := e.st - (n + 1)) (by
        rintro e1 rfl hw1
        have := ih { e with obuf := e.obuf ++ [0x00], st := e.st - 1 } hw1
        rwa [show e.st - 1 - n = e.st - (n + 1) by omega] at this)
    rwa [List.singleton_append, ← List.replicate_succ] at h

theorem drainPlain_appends (cap : Option Nat) (base : List Byte) (n : Nat) (e : Enc)
    (hw : Fits cap base → Fits cap e.obuf) :
    Appends cap base e (stuffedRun n) (e.st - n) (drainPlain cap n e) := by
  induction n generalizing e with
  | zero => exact ⟨by simp [stuffedRun], hw⟩
  | succ n ih =>
    have h := (outAppend_appends cap base 0xFF e hw).andThen
      (f := fun e1 => (outAppend cap 0x00 e1).andThen fun e2 => drainPlain cap n { e2 with st := e2.st - 1 })
      (tail' := [0x00] ++ stuffedRun n) (st' := e.st - (n + 1)) (by
        rintro e1 rfl hw1
        refine (outAppend_appends cap base 0x00 _ hw1).andThen ?_
        rintro e2 rfl hw2
        have := ih { e with obuf := e.obuf ++ [0xFF] ++ [0x00], st := e.st - 1 } hw2
        rwa [show e.st - 1 - n = e.st - (n + 1) by omega] at this)
    exact h

/-- What BYTE_OUT leaves in the buffer and in `E.ST` when it finishes (R65). -/
def emitted (t : BitVec 32) (e : Enc) : List Byte × Nat :=
  if 0xFF < t then
    (incLast e.obuf ++
      ((if (incLast e.obuf).getLast? = some 0xFF then [0x00] else []) ++
        (List.replicate e.st 0x00 ++ [t.setWidth 8])), 0)
  else if t = 0xFF then (e.obuf, e.st + 1)
  else (e.obuf ++ (stuffedRun e.st ++ [t.setWidth 8]), 0)

theorem emitted_grows (t : BitVec 32) (e : Enc) : Grows e.obuf (emitted t e).1 := by
  unfold emitted
  split
  · exact .inr ⟨_, _, .inr rfl, by simp, rfl⟩
  · split
    · exact .refl _
    · exact .inr ⟨_, _, .inl rfl, by simp, rfl⟩

theorem byteOutCase_ends (cap : Option Nat) (t : BitVec 32) (e : Enc) :
    (byteOutCase cap t e).Ends
      (fun e' => e' = { e with obuf := (emitted t e).1, st := (emitted t e).2 } ∧
        (Fits cap e.obuf → Fits cap e'.obuf))
      (Stopped cap e) := by
  unfold byteOutCase emitted
  split
  · have hinc : Fits cap e.obuf → Fits cap (incLast e.obuf) := fun h n hn => by
      rw [incLast_length]; exact h n hn
    have hstuff : Appends cap e.obuf (outIncLast e)
        (if (incLast e.obuf).getLast? = some 0xFF then [0x00] else []) e.st
        (stuffAfterCarry cap (outIncLast e)) := by
      unfold stuffAfterCarry
      by_cases hff : (incLast e.obuf).getLast? = some 0xFF
      · rw [outIncLast_obuf, if_pos hff, if_pos hff]
        exact outAppend_appends cap _ 0x00 (outIncLast e) hinc
      · rw [outIncLast_obuf, if_neg hff, if_neg hff]
        exact ⟨by simp [outIncLast], hinc⟩
    refine (hstuff.andThen (st' := 0) (tail' := List.replicate e.st 0x00 ++ [t.setWidth 8]) ?_).imp ?_ ?_
    · rintro e1 rfl hw1
      refine (drainCarry_appends cap _ e.st _ hw1).andThen ?_
      rintro e2 rfl hw2
      simpa using outAppend_appends cap e.obuf (t.setWidth 8) _ hw2
    · rintro e' ⟨rfl, hw⟩
      exact ⟨by simp [outIncLast], hw⟩
    · rintro e' ⟨hp, hb, hx, ho, hw⟩
      exact ⟨hp, hb, .inr hx, ho, hw⟩
  · split
    · exact ⟨rfl, id⟩
    · refine ((drainPlain_appends cap e.obuf e.st e id).andThen (st' := 0)
        (tail' := [t.setWidth 8]) ?_).imp ?_ ?_
      · rintro e1 rfl hw1
        simpa using outAppend_appends cap e.obuf (t.setWidth 8) _ hw1
      · rintro e' ⟨rfl, hw⟩
        exact ⟨rfl, hw⟩
      · rintro e' ⟨hp, hb, hx, ho, hw⟩
        exact ⟨hp, hb, .inl hx, ho, hw⟩

/-- The registers after a BYTE_OUT that finishes. -/
def afterByteOut (e : Enc) : Enc :=
  { e with
    obuf := (emitted (e.c >>> 19) e).1
    st := (emitted (e.c >>> 19) e).2
    c := e.c &&& 0x7FFFF }

/-- All that BYTE_OUT can do (R65, R104). -/
theorem byteOut_ends (cap : Option Nat) (e : Enc) :
    (byteOut cap e).Ends (fun e' => e' = afterByteOut e ∧ (Fits cap e.obuf → Fits cap e'.obuf)) (Stopped cap e) := by
  refine (byteOutCase_ends cap (e.c >>> 19) e).andThen ?_
  rintro e1 ⟨rfl, hw⟩
  exact ⟨rfl, hw⟩

/-! ### BYTE_OUT on a good buffer -/

/-- The buffer of an encoder in CODING: the placeholder first, and a data byte other than 0xFF last (R66 item 1). -/
structure BufferOk (obuf : List Byte) : Prop where
  placeholder : obuf.head? = some 0x00
  lastByte : obuf.getLast? ≠ some 0xFF
  body : stuffed obuf.dropLast = true

theorem BufferOk.split {obuf : List Byte} (h : BufferOk obuf) :
    ∃ body x, obuf = body ++ [x] ∧ stuffed body = true ∧ x ≠ 0xFF := by
  obtain rfl | ⟨body, x, rfl⟩ := List.eq_nil_or_concat obuf
  · simpa using h.placeholder
  · rw [List.concat_eq_append] at h ⊢
    exact ⟨body, x, rfl, by simpa using h.body, by simpa using h.lastByte⟩

theorem BufferOk.stuffed {obuf : List Byte} (h : BufferOk obuf) : stuffed obuf = true := by
  obtain ⟨body, x, rfl, hb, hx⟩ := h.split
  exact stuffed_append hb (by simpa using hx)

theorem bufferOk_append {body : List Byte} {x : Byte} (hh : body.head? = some 0x00) (hb : stuffed body = true)
    (hx : x ≠ 0xFF) : BufferOk (body ++ [x]) :=
  ⟨by cases body <;> simp_all, by simpa using hx, by simpa using hb⟩

theorem bufferOk_placeholder : BufferOk [0x00] := ⟨rfl, by decide, rfl⟩

/-- The low byte of `t` in the carry case is a data byte below 0xFF (R66 item 1, R73 item 3). -/
theorem carry_byte {t : BitVec 32} (h1 : 0xFF < t) (h2 : t.toNat ≤ 0x11F) :
    (t.setWidth 8).toNat = t.toNat - 256 ∧ t.setWidth 8 ≠ (0xFF : Byte) := by
  have h1' : 255 < t.toNat := by simpa [BitVec.lt_def] using h1
  have hv : (t.setWidth 8).toNat = t.toNat - 256 := by
    rw [BitVec.toNat_setWidth]; omega
  refine ⟨hv, fun h => ?_⟩
  rw [h] at hv
  simp at hv; omega

/-- Without a carry `t` is its own low byte (R65). -/
theorem plain_byte {t : BitVec 32} (h1 : ¬0xFF < t) (h2 : t ≠ 0xFF) :
    (t.setWidth 8).toNat = t.toNat ∧ t.setWidth 8 ≠ (0xFF : Byte) := by
  have h1' : ¬255 < t.toNat := by simpa [BitVec.lt_def] using h1
  have hv : (t.setWidth 8).toNat = t.toNat := by
    rw [BitVec.toNat_setWidth]; omega
  refine ⟨hv, fun h => h2 (BitVec.eq_of_toNat_eq ?_)⟩
  rw [← hv, h]; rfl

/-- BYTE_OUT on a good buffer: the buffer stays good; it is the placeholder alone only if it was and the byte was
stacked; and the bytes stand for the old ones followed by `t`, a carry included (R66, R32). -/
theorem emitted_spec {t : BitVec 32} {e : Enc} (hb : BufferOk e.obuf) (ht : t.toNat ≤ 0x11F)
    (hfresh : e.obuf = [0x00] → t.toNat ≤ 0xFF) :
    BufferOk (emitted t e).1 ∧
    ((emitted t e).1 = [0x00] → e.obuf = [0x00] ∧ t.toNat = 0xFF) ∧
    bytesValue (destuff (emitted t e).1 ++ List.replicate (emitted t e).2 0xFF) =
      bytesValue (destuff e.obuf ++ List.replicate e.st 0xFF) * 256 + t.toNat ∧
    (destuff (emitted t e).1).length + (emitted t e).2 = (destuff e.obuf).length + e.st + 1 := by
  obtain ⟨body, x, hbuf, hbody, hx⟩ := hb.split
  have hd : destuff e.obuf = destuff body ++ [x] := by rw [hbuf, destuff_append _ hbody]; rfl
  have hones := bytesValue_ones e.st
  unfold emitted
  split
  next hcarry =>
    obtain ⟨htv, htne⟩ := carry_byte hcarry ht
    have h255 : 255 < t.toNat := by simpa [BitVec.lt_def] using hcarry
    have hbodyne : body ≠ [] := by
      rintro rfl
      have hx0 : x = 0x00 := by simpa [hbuf] using hb.placeholder
      have := hfresh (by rw [hbuf, hx0]; rfl)
      omega
    have hhead : body.head? = some 0x00 := by
      have := hb.placeholder
      rw [hbuf] at this
      cases body <;> simp_all
    have hzeros : ∀ b ∈ List.replicate e.st (0x00 : Byte) ++ [t.setWidth 8], b ≠ 0xFF := by
      intro b hmem
      rw [List.mem_append, List.mem_replicate, List.mem_singleton] at hmem
      obtain ⟨-, rfl⟩ | rfl := hmem
      · decide
      · exact htne
    have hxv : (x + 1).toNat = x.toNat + 1 := by
      have : x.toNat ≠ 255 := fun h => hx (BitVec.eq_of_toNat_eq h)
      have := x.isLt
      rw [BitVec.toNat_add]; simp; omega
    have hinc : incLast e.obuf = body ++ [x + 1] := by rw [hbuf, incLast_append_singleton]
    have hstuffed : stuffed (body ++ [x + 1] ++ (if x + 1 = 0xFF then [0x00] else [])) = true := by
      rw [List.append_assoc]
      refine stuffed_append hbody ?_
      split
      next h => rw [h]; rfl
      next h => simpa using h
    have hfront : destuff (body ++ [x + 1] ++ (if x + 1 = 0xFF then [0x00] else [])) = destuff body ++ [x + 1] := by
      rw [List.append_assoc, destuff_append _ hbody]
      split
      next h => rw [h]; rfl
      next h => rfl
    have hall : incLast e.obuf ++
        ((if (incLast e.obuf).getLast? = some 0xFF then [0x00] else []) ++
          (List.replicate e.st 0x00 ++ [t.setWidth 8])) =
        body ++ [x + 1] ++ (if x + 1 = 0xFF then [0x00] else []) ++
          (List.replicate e.st 0x00 ++ [t.setWidth 8]) := by
      rw [hinc]
      have : ((body ++ [x + 1]).getLast? = some 0xFF) = (x + 1 = 0xFF) := by simp
      simp only [this, List.append_assoc]
    rw [hall]
    have hds : destuff (body ++ [x + 1] ++ (if x + 1 = 0xFF then [0x00] else []) ++
          (List.replicate e.st 0x00 ++ [t.setWidth 8])) =
        destuff body ++ [x + 1] ++ (List.replicate e.st 0x00 ++ [t.setWidth 8]) := by
      rw [destuff_append _ hstuffed, hfront, destuff_of_forall hzeros]
    refine ⟨?_, ?_, ?_, ?_⟩
    · rw [← List.append_assoc]
      refine bufferOk_append ?_ ?_ htne
      · cases body <;> simp_all
      · exact stuffed_append hstuffed (stuffed_of_forall fun b hb => hzeros b (List.mem_append_left _ hb))
    · intro h
      have := congrArg List.length h
      cases body with
      | nil => exact absurd rfl hbodyne
      | cons b body => simp at this
    · show bytesValue (destuff _ ++ List.replicate 0 0xFF) = _
      rw [hds, hd]
      simp only [List.replicate_zero, List.append_nil, bytesValue_append, bytesValue_zeros, bytesValue_cons,
        bytesValue_nil, List.length_append, List.length_replicate, List.length_singleton, List.length_nil, hxv,
        htv, pow_zero, pow_succ]
      generalize 256 ^ e.st = y at *
      have : bytesValue (List.replicate e.st 0xFF) = y - 1 := by omega
      rw [this]
      obtain ⟨z, rfl⟩ : ∃ z, y = z + 1 := ⟨y - 1, by omega⟩
      obtain ⟨u, hu⟩ : ∃ u, t.toNat = u + 256 := ⟨t.toNat - 256, by omega⟩
      rw [hu]
      simp only [Nat.add_sub_cancel]
      ring
    · show (destuff _).length + 0 = _
      rw [hds, hd]; simp; omega
  next hcarry =>
    split
    next hff =>
      have htv : t.toNat = 0xFF := by rw [hff]; rfl
      refine ⟨hb, fun h => ⟨h, htv⟩, ?_, (Nat.add_assoc _ _ _).symm⟩
      rw [List.replicate_succ', ← List.append_assoc, bytesValue_append, htv]
      rfl
    next hff =>
      obtain ⟨htv, htne⟩ := plain_byte hcarry hff
      have hds : destuff (e.obuf ++ (stuffedRun e.st ++ [t.setWidth 8])) =
          destuff e.obuf ++ List.replicate e.st 0xFF ++ [t.setWidth 8] := by
        rw [destuff_append _ hb.stuffed, destuff_stuffedRun, List.append_assoc]; rfl
      refine ⟨?_, ?_, ?_, ?_⟩
      · rw [← List.append_assoc]
        refine bufferOk_append ?_ (stuffed_append hb.stuffed (stuffed_stuffedRun _)) htne
        have := hb.placeholder
        cases h : e.obuf <;> simp_all
      · intro h
        have := congrArg List.length h
        rw [hbuf] at this
        simp at this; omega
      · show bytesValue (destuff _ ++ List.replicate 0 0xFF) = _
        rw [hds, List.replicate_zero, List.append_nil, bytesValue_append]
        simp [bytesValue_cons, htv]
      · show (destuff _).length + 0 = _
        rw [hds]; simp; omega

end Sys2Proof.Machine
end

