-- ==== Sys2Proof/Laws/Fetch.lean ====
section
/-! SUPPORT. FETCH and RENORM_D of the decoder (spec/42_decoder.md rules R81 to R83): the byte each fetch gives, the
bits that come into the window, and the count of the real ones. -/

namespace Sys2Proof.Machine

/-! ### The input as plain bytes -/

/-- What stands at the front of the input: nothing, a plain byte, a stuffed pair, or a malformed 0xFF (R81). -/
theorem plainBytes_cases (rest : List Byte) :
    rest = [] ∨ (∃ b r, b ≠ 0xFF ∧ rest = b :: r ∧ plainBytes rest = b :: plainBytes r) ∨
      (∃ r, rest = 0xFF :: 0x00 :: r ∧ plainBytes rest = 0xFF :: plainBytes r) ∨
      ∃ r, rest = 0xFF :: r ∧ r.head? ≠ some 0x00 ∧ plainBytes rest = [] := by
  match rest with
  | [] => exact .inl rfl
  | [b] =>
    by_cases hb : b = 0xFF
    · exact .inr (.inr (.inr ⟨[], by rw [hb], by simp, by rw [hb]; rfl⟩))
    · exact .inr (.inl ⟨b, [], hb, rfl, by simp only [plainBytes]; rw [if_neg hb]⟩)
  | b :: c :: r =>
    by_cases hb : b = 0xFF
    · by_cases hc : c = 0x00
      · exact .inr (.inr (.inl ⟨r, by rw [hb, hc], by rw [hb, hc]; rfl⟩))
      · exact .inr (.inr (.inr ⟨c :: r, by rw [hb], by simpa using hc,
          by rw [plainBytes, if_pos hb, if_neg hc]⟩))
    · exact .inr (.inl ⟨b, c :: r, hb, rfl, by rw [plainBytes, if_neg hb]⟩)

theorem getElem?_of_drop_cons {inp : List Byte} {i : Nat} {b : Byte} {r : List Byte} (h : inp.drop i = b :: r) :
    inp[i]? = some b ∧ inp[i + 1]? = r.head? ∧ inp.drop (i + 1) = r ∧ i + 1 ≤ inp.length := by
  have h0 : (inp.drop i)[0]? = some b := by rw [h]; rfl
  have h1 : (inp.drop i)[1]? = r.head? := by rw [h]; cases r <;> rfl
  rw [List.getElem?_drop] at h0 h1
  refine ⟨h0, h1, ?_, ?_⟩
  · have := congrArg (List.drop 1) h
    rwa [List.drop_drop] at this
  · have := (List.getElem?_eq_some_iff.mp h0).1
    omega

/-- FETCH outside FAILED (R81, R82): zero fill at the end; the next plain byte, one or two places on the wire; or a
malformed 0xFF, where the cursor stays. -/
theorem fetch_cases {d : Dec} (hph : d.ph ≠ .failed) (hcur : d.cur ≤ d.inp.length) :
    (d.cur = d.inp.length ∧ fetch d = (0x00, d)) ∨
    (∃ b n, plainBytes (d.inp.drop d.cur) = b :: plainBytes (d.inp.drop (d.cur + n)) ∧
      n = wireLength [b] ∧ d.cur + n ≤ d.inp.length ∧
      fetch d = (b, { d with cur := d.cur + n, avail := d.avail + 8 })) ∨
    (plainBytes (d.inp.drop d.cur) = [] ∧ d.inp[d.cur]? = some 0xFF ∧ d.inp[d.cur + 1]? ≠ some 0x00 ∧
      d.cur < d.inp.length ∧ fetch d = (0x00, { d with ph := .failed })) := by
  unfold fetch
  rw [if_neg hph]
  unfold fetchStuffed inByte
  obtain hr | ⟨b, r, hb, hr, hp⟩ | ⟨r, hr, hp⟩ | ⟨r, hr, hhd, hp⟩ := plainBytes_cases (d.inp.drop d.cur)
  · left
    have hlen : d.inp.length ≤ d.cur := List.drop_eq_nil_iff.mp hr
    rw [List.getElem?_eq_none hlen]
    exact ⟨Nat.le_antisymm hcur hlen, rfl⟩
  · right; left
    obtain ⟨h0, -, h2, h3⟩ := getElem?_of_drop_cons hr
    refine ⟨b, 1, ?_, ?_, h3, ?_⟩
    · rw [hp, h2]
    · rw [wireLength, List.count_eq_zero.mpr (by simpa [eq_comm] using hb)]; rfl
    · rw [h0]; simp only; rw [if_neg hb]
  · right; left
    obtain ⟨h0, h1, h2, h3⟩ := getElem?_of_drop_cons hr
    obtain ⟨-, -, h5, h6⟩ := getElem?_of_drop_cons h2
    refine ⟨0xFF, 2, ?_, rfl, h6, ?_⟩
    · rw [hp]
      exact congrArg (fun l => (0xFF : Byte) :: plainBytes l) h5.symm
    · rw [h0]; simp only [if_true]; exact if_pos h1
  · right; right
    obtain ⟨h0, h1, -, h3⟩ := getElem?_of_drop_cons hr
    refine ⟨hp, h0, by rw [h1]; exact hhd, h3, ?_⟩
    rw [h0]; simp only [if_true]; rw [if_neg (by rw [h1]; exact hhd)]

theorem fetch_failed {d : Dec} (h : d.ph = .failed) : fetch d = (0x00, d) := by rw [fetch, if_pos h]

/-! ### The decoder between two shifts -/

/-- The input from the cursor on holds no malformed 0xFF. -/
def CleanInput (d : Dec) : Prop := d.cur + wireLength (plainBytes (d.inp.drop d.cur)) = d.inp.length

/-- The decoder inside RENORM_D: what holds between two shifts, FAILED included. -/
structure DecOpen (d : Dec) : Prop where
  phase : d.ph ≠ .idle
  window : d.c.toNat < d.a.toNat
  ctHigh : d.ct.toNat ≤ 7
  pending : d.d.toNat % 2 ^ (8 - d.ct.toNat) = 0
  availHigh : d.avail ≤ 16 + d.ct.toNat
  real : d.ph = .decoding → d.cur < d.inp.length → d.avail = 16 + d.ct.toNat
  cursor : d.cur ≤ d.inp.length
  marker : d.ph = .failed → d.inp[d.cur]? = some 0xFF ∧ d.inp[d.cur + 1]? ≠ some 0x00

/-- The decoder with a pending byte at hand, before the shift. -/
structure DecLoaded (d : Dec) : Prop where
  phase : d.ph ≠ .idle
  window : d.c.toNat < d.a.toNat
  ctLow : 1 ≤ d.ct.toNat
  ctHigh : d.ct.toNat ≤ 8
  pending : d.d.toNat % 2 ^ (8 - d.ct.toNat) = 0
  availHigh : d.avail ≤ 16 + d.ct.toNat
  real : d.ph = .decoding → d.cur < d.inp.length → d.avail = 16 + d.ct.toNat
  cursor : d.cur ≤ d.inp.length
  marker : d.ph = .failed → d.inp[d.cur]? = some 0xFF ∧ d.inp[d.cur + 1]? ≠ some 0x00

/-- `d'` is `d` after `k` shifts of interval and window. -/
structure DecShifted (k : Nat) (d d' : Dec) : Prop where
  opened : DecOpen d'
  a : d'.a.toNat = d.a.toNat * 2 ^ k
  c : d'.c.toNat = d.c.toNat * 2 ^ k + bitsValue (nextBit d) k
  stream : ∀ j, nextBit d' j = nextBit d (j + k)
  inp : d'.inp = d.inp
  count : d'.avail + 8 * bytesToCome d' = d.avail + 8 * bytesToCome d - k
  idx : d'.idx = d.idx
  mps : d'.mps = d.mps
  ended : d.cur = d.inp.length → d'.cur = d.cur
  clean : d.ph = .decoding → CleanInput d → d'.ph = .decoding ∧ CleanInput d'

/-! ### Bits -/

theorem bitsValue_succ_front (f : Nat → Bool) (k : Nat) :
    bitsValue f (k + 1) = (f 0).toNat * 2 ^ k + bitsValue (fun j => f (j + 1)) k := by
  induction k with
  | zero => simp [bitsValue]
  | succ k ih => rw [bitsValue, ih, bitsValue]; ring

theorem byteBits_cons (b : Byte) : byteBits b = b.getLsbD 7 :: (byteBits b).tail := rfl

theorem byteBits_shift (b : Byte) : byteBits (b <<< 1) = (byteBits b).tail ++ [false] := by
  revert b; decide +kernel

theorem topBit_toNat (b : Byte) : (b >>> 7).toNat = (b.getLsbD 7).toNat := by
  revert b; decide +kernel

theorem byteBits_zero : byteBits 0x00 = List.replicate 8 false := by decide

theorem windowIn_toNat {c : BitVec 16} (b : Byte) (h : c.toNat < 0x8000) :
    ((c <<< 1) ||| (b >>> 7).setWidth 16).toNat = 2 * c.toNat + (b.getLsbD 7).toNat := by
  have hb : (b.getLsbD 7).toNat < 2 ^ 1 := by cases b.getLsbD 7 <;> decide
  have h1 : (c <<< 1).toNat = c.toNat <<< 1 := by
    rw [BitVec.toNat_shiftLeft, Nat.shiftLeft_eq]; omega
  have h2 : ((b >>> 7).setWidth 16).toNat = (b.getLsbD 7).toNat := by
    rw [BitVec.toNat_setWidth, topBit_toNat]; omega
  rw [BitVec.toNat_or, h1, h2, ← Nat.shiftLeft_add_eq_or_of_lt hb, Nat.shiftLeft_eq]
  omega

/-! ### The refill -/

theorem getD_replicate_false (n j : Nat) : (List.replicate n false).getD j false = false := by
  rw [List.getD_eq_getElem?_getD, List.getElem?_replicate]
  split <;> rfl

theorem pendingBits_full {d : Dec} (h : d.ct.toNat = 8) :
    pendingBits d = byteBits d.d ++
      (if d.ph = .failed then [] else (plainBytes (d.inp.drop d.cur)).flatMap byteBits) := by
  rw [pendingBits, h]; rfl

theorem pendingBits_empty {d : Dec} (h : d.ct = 0) :
    pendingBits d = if d.ph = .failed then [] else (plainBytes (d.inp.drop d.cur)).flatMap byteBits := by
  rw [pendingBits, h]; rfl

theorem nextBit_zero_fill {d : Dec} {bits : List Bool} (h : pendingBits d = []) (hb : bits = List.replicate 8 false)
    (j : Nat) : bits.getD j false = nextBit d j := by
  rw [nextBit, h, hb, getD_replicate_false]; rfl

/-- The refill of RENORM_D keeps the bits to come and the count of the real ones (R81 to R83). -/
theorem refill_spec {d : Dec} (h : DecOpen d) :
    DecLoaded (refill d) ∧ (∀ j, nextBit (refill d) j = nextBit d j) ∧
      (refill d).a = d.a ∧ (refill d).c = d.c ∧ (refill d).inp = d.inp ∧ (refill d).idx = d.idx ∧
      (refill d).mps = d.mps ∧
      (refill d).avail + 8 * bytesToCome (refill d) = d.avail + 8 * bytesToCome d ∧
      (d.cur = d.inp.length → (refill d).cur = d.cur) ∧
      (d.ph = .decoding → CleanInput d → (refill d).ph = .decoding ∧ CleanInput (refill d)) := by
  unfold refill
  split
  next hz =>
    have hav : d.avail ≤ 16 := by have := h.availHigh; rw [hz] at this; simpa using this
    by_cases hf : d.ph = .failed
    · rw [fetch_failed hf]
      refine ⟨⟨h.phase, h.window, (by decide : 1 ≤ (8 : BitVec 4).toNat), (by decide : (8 : BitVec 4).toNat ≤ 8),
        by simp [Nat.mod_one], ?_, fun h' => by simp [hf] at h', h.cursor, h.marker⟩, fun j => ?_, rfl, rfl, rfl, rfl, rfl, rfl,
        fun _ => rfl, fun h' => by simp [hf] at h'⟩
      · show d.avail ≤ 16 + (8 : BitVec 4).toNat
        omega
      · refine nextBit_zero_fill (by rw [pendingBits_empty hz, if_pos hf]) ?_ j
        rw [pendingBits_full rfl]; simp [hf]; rfl
    · have hdec : d.ph = .decoding := by
        have := h.phase
        cases hp : d.ph <;> simp_all
      obtain ⟨hend, hfe⟩ | ⟨b, n, hp, hn, hlen, hfe⟩ | ⟨hp, hm1, hm2, hlt, hfe⟩ := fetch_cases hf h.cursor
      · rw [hfe]
        have hdrop : d.inp.drop d.cur = [] := by rw [hend]; exact List.drop_length
        refine ⟨⟨h.phase, h.window, (by decide : 1 ≤ (8 : BitVec 4).toNat), (by decide : (8 : BitVec 4).toNat ≤ 8),
          by simp [Nat.mod_one], ?_, fun _ h' => ?_, h.cursor, h.marker⟩, fun j => ?_, rfl, rfl, rfl, rfl, rfl, rfl, fun _ => rfl,
          fun h1 h2 => ⟨h1, h2⟩⟩
        · show d.avail ≤ 16 + (8 : BitVec 4).toNat
          omega
        · exact absurd h' (by show ¬d.cur < d.inp.length; omega)
        · refine nextBit_zero_fill (by rw [pendingBits_empty hz, if_neg hf, hdrop]; rfl) ?_ j
          rw [pendingBits_full rfl]; simp [hf, hdrop, plainBytes]; rfl
      · rw [hfe]
        have hreal : d.avail = 16 := by
          have hn1 : 1 ≤ n := by rw [hn]; simp [wireLength]
          have := h.real hdec (by omega)
          rw [hz] at this; simpa using this
        refine ⟨⟨h.phase, h.window, (by decide : 1 ≤ (8 : BitVec 4).toNat), (by decide : (8 : BitVec 4).toNat ≤ 8),
          by simp [Nat.mod_one], ?_, fun _ _ => ?_, hlen, fun h' => absurd h' hf⟩, fun j => ?_, rfl, rfl, rfl, rfl, rfl, ?_,
          fun h' => ?_, fun h1 h2 => ⟨h1, ?_⟩⟩
        · show d.avail + 8 ≤ 16 + (8 : BitVec 4).toNat
          rw [hreal]; decide
        · show d.avail + 8 = 16 + (8 : BitVec 4).toNat
          rw [hreal]; decide
        · rw [nextBit, nextBit, pendingBits_full rfl, pendingBits_empty hz, if_neg hf, if_neg hf, hp]
          rfl
        · show d.avail + 8 + 8 * bytesToCome { d with d := b, ct := 8, cur := d.cur + n, avail := d.avail + 8 } = _
          rw [bytesToCome, bytesToCome, if_neg hf, if_neg hf, hp, List.length_cons]
          ring
        · have hn1 : 1 ≤ n := by rw [hn]; simp [wireLength]
          omega
        · have h3 : d.cur + wireLength (plainBytes (d.inp.drop d.cur)) = d.inp.length := h2
          rw [hp] at h3
          show d.cur + n + wireLength (plainBytes (d.inp.drop (d.cur + n))) = d.inp.length
          rw [← h3, hn]
          simp only [wireLength, List.length_cons, List.count_cons, List.length_nil, List.count_nil]
          omega
      · rw [hfe]
        have hreal : d.avail = 16 := by
          have := h.real hdec hlt
          rw [hz] at this; simpa using this
        refine ⟨⟨by simp, h.window, (by decide : 1 ≤ (8 : BitVec 4).toNat), (by decide : (8 : BitVec 4).toNat ≤ 8),
          by simp [Nat.mod_one], ?_, fun h' => by simp at h', h.cursor, fun _ => ⟨hm1, hm2⟩⟩, fun j => ?_, rfl, rfl, rfl, rfl, rfl,
          ?_, fun _ => rfl, fun h1 h2 => ?_⟩
        · show d.avail ≤ 16 + (8 : BitVec 4).toNat
          omega
        · refine nextBit_zero_fill (by rw [pendingBits_empty hz, if_neg hf, hp]; rfl) ?_ j
          rw [pendingBits_full rfl]; simp; rfl
        · rw [bytesToCome, bytesToCome, if_pos rfl, if_neg hf, hp]; rfl
        · have h3 : d.cur + wireLength (plainBytes (d.inp.drop d.cur)) = d.inp.length := h2
          rw [hp] at h3
          simp [wireLength] at h3
          omega
  next hz =>
    have hct : 1 ≤ d.ct.toNat := by
      by_contra hlt
      exact hz (BitVec.eq_of_toNat_eq (by simp; omega))
    exact ⟨⟨h.phase, h.window, hct, by have := h.ctHigh; omega, h.pending, h.availHigh, h.real, h.cursor, h.marker⟩,
      fun _ => rfl, rfl, rfl, rfl, rfl, rfl, rfl, fun _ => rfl, fun h1 h2 => ⟨h1, h2⟩⟩

/-! ### The shift -/

theorem decCounterDown_toNat {ct : BitVec 4} (h : 1 ≤ ct.toNat) : (ct - 1).toNat = ct.toNat - 1 := by
  rw [BitVec.toNat_sub]
  have := ct.isLt
  simp
  omega

/-- The bits to come after a shift: the first is gone into the window (R83). -/
theorem pendingBits_shift {d : Dec} (h1 : 1 ≤ d.ct.toNat) (h2 : d.ct.toNat ≤ 8) :
    pendingBits d = d.d.getLsbD 7 :: pendingBits (shiftWindow d) := by
  have hct : (shiftWindow d).ct.toNat = d.ct.toNat - 1 := decCounterDown_toNat h1
  obtain ⟨m, hm⟩ : ∃ m, d.ct.toNat = m + 1 := ⟨d.ct.toNat - 1, by omega⟩
  rw [pendingBits, pendingBits, hct, hm, byteBits_cons]
  rw [show (shiftWindow d).d = d.d <<< 1 from rfl, byteBits_shift]
  have htl : (byteBits d.d).tail.length = 7 := rfl
  rw [Nat.add_sub_cancel, List.take_append_of_le_length (by rw [htl]; omega), List.take_succ_cons, List.cons_append]
  rfl

/-- One shift of RENORM_D (R83). -/
theorem shiftWindow_spec {d : Dec} (h : DecLoaded d) (ha : d.a.toNat < 0x8000)
    (hcount : 1 ≤ d.avail ∨ d.cur = d.inp.length ∨ d.ph = .failed) : DecShifted 1 d (shiftWindow d) := by
  have hct := decCounterDown_toNat h.ctLow
  have hw := h.window
  have hA : (d.a <<< 1).toNat = 2 * d.a.toNat := by
    rw [BitVec.toNat_shiftLeft, Nat.shiftLeft_eq]; omega
  have hC := windowIn_toNat (c := d.c) d.d (by omega)
  have hbit : (d.d.getLsbD 7).toNat ≤ 1 := by cases d.d.getLsbD 7 <;> decide
  have hnb : ∀ j, nextBit (shiftWindow d) j = nextBit d (j + 1) := fun j => by
    rw [nextBit, nextBit, pendingBits_shift h.ctLow h.ctHigh]; rfl
  have hfirst : nextBit d 0 = d.d.getLsbD 7 := by
    rw [nextBit, pendingBits_shift h.ctLow h.ctHigh]; rfl
  have hlo := h.ctLow
  have hhi := h.ctHigh
  refine ⟨⟨h.phase, ?_, ?_, ?_, ?_, ?_, h.cursor, h.marker⟩, ?_, ?_, hnb, rfl, ?_, rfl, rfl, fun _ => rfl,
    fun h1 h2 => ⟨h1, h2⟩⟩
  · show ((d.c <<< 1) ||| (d.d >>> 7).setWidth 16).toNat < (d.a <<< 1).toNat
    omega
  · show (d.ct - 1).toNat ≤ 7
    omega
  · have hp := h.pending
    show (d.d <<< 1).toNat % 2 ^ (8 - (d.ct - 1).toNat) = 0
    rw [hct, BitVec.toNat_shiftLeft, Nat.shiftLeft_eq]
    interval_cases d.ct.toNat <;> omega
  · have := h.availHigh
    show d.avail - 1 ≤ 16 + (d.ct - 1).toNat
    omega
  · intro h1 h2
    have := h.real h1 h2
    show d.avail - 1 = 16 + (d.ct - 1).toNat
    omega
  · show (d.a <<< 1).toNat = d.a.toNat * 2 ^ 1
    omega
  · show ((d.c <<< 1) ||| (d.d >>> 7).setWidth 16).toNat = d.c.toNat * 2 ^ 1 + bitsValue (nextBit d) 1
    rw [hC, bitsValue, bitsValue, hfirst]; omega
  · show d.avail - 1 + 8 * bytesToCome (shiftWindow d) = d.avail + 8 * bytesToCome d - 1
    have hb : bytesToCome (shiftWindow d) = bytesToCome d := rfl
    rw [hb]
    obtain h1 | h1 | h1 := hcount
    · omega
    · have : bytesToCome d = 0 := by
        rw [bytesToCome, h1, List.drop_length]; split <;> rfl
      omega
    · have : bytesToCome d = 0 := by rw [bytesToCome, if_pos h1]
      omega

theorem DecShifted.trans {k l : Nat} {d d' d'' : Dec} (h : DecShifted k d d') (h' : DecShifted l d' d'') :
    DecShifted (k + l) d d'' where
  opened := h'.opened
  a := by rw [h'.a, h.a, pow_add, Nat.mul_assoc]
  c := by
    have hs : ∀ l, bitsValue (nextBit d) (k + l) = bitsValue (nextBit d) k * 2 ^ l + bitsValue (nextBit d') l := by
      intro l
      induction l with
      | zero => simp [bitsValue]
      | succ l ih =>
        rw [← Nat.add_assoc, bitsValue, ih, bitsValue, h.stream l, Nat.add_comm l k]; ring
    rw [h'.c, h.c, hs, pow_add]; ring
  stream := fun j => by rw [h'.stream, h.stream, Nat.add_assoc, Nat.add_comm l k]
  inp := h'.inp.trans h.inp
  count := by have := h.count; have := h'.count; omega
  idx := h'.idx.trans h.idx
  mps := h'.mps.trans h.mps
  ended := fun he => by
    have h1 := h.ended he
    rw [h'.ended (by rw [h1, h.inp]; exact he), h1]
  clean := fun h1 h2 => (h.clean h1 h2).elim h'.clean

theorem DecShifted.refl {d : Dec} (h : DecOpen d) : DecShifted 0 d d where
  opened := h
  a := by simp
  c := by simp [bitsValue]
  stream := fun _ => rfl
  inp := rfl
  count := by omega
  idx := rfl
  mps := rfl
  ended := fun _ => rfl
  clean := fun h1 h2 => ⟨h1, h2⟩

/-- One pass of RENORM_D, the refill and the shift (R83). -/
theorem refill_shift_spec {d : Dec} (h : DecOpen d) (ha : d.a.toNat < 0x8000) :
    DecShifted 1 d (shiftWindow (refill d)) := by
  obtain ⟨r1, r2, r3, r4, r5, r6, r7, r8, r9, r10⟩ := refill_spec h
  have hcount : 1 ≤ (refill d).avail ∨ (refill d).cur = (refill d).inp.length ∨ (refill d).ph = .failed := by
    by_cases hf : (refill d).ph = .failed
    · exact .inr (.inr hf)
    · have hdec : (refill d).ph = .decoding := by
        have := r1.phase
        cases hp : (refill d).ph <;> simp_all
      rcases Nat.lt_or_ge (refill d).cur (refill d).inp.length with hlt | hge
      · exact .inl (by have := r1.real hdec hlt; omega)
      · exact .inr (.inl (Nat.le_antisymm r1.cursor hge))
  have hs := shiftWindow_spec r1 (by rw [r3]; exact ha) hcount
  refine ⟨hs.opened, by rw [hs.a, r3], ?_, fun j => by rw [hs.stream, r2], hs.inp.trans r5, by rw [hs.count, r8],
    hs.idx.trans r6, hs.mps.trans r7, fun he => ?_, fun h1 h2 => ?_⟩
  · rw [hs.c, r4, bitsValue, bitsValue, bitsValue, bitsValue, r2]
  · rw [hs.ended (by rw [r9 he, r5]; exact he), r9 he]
  · obtain ⟨h3, h4⟩ := r10 h1 h2
    exact hs.clean h3 h4

theorem narrow_lt {a : BitVec 16} : a < 0x8000 ↔ a.toNat < 0x8000 := by
  rw [BitVec.lt_def]; rfl

/-- RENORM_D with enough passes (R83). -/
theorem renormD_spec (n : Nat) {d : Dec} (h : DecOpen d) (hn : 0x8000 ≤ d.a.toNat * 2 ^ n) :
    ∃ d' k, renormD n d = some d' ∧ k ≤ n ∧ DecShifted k d d' ∧ 0x8000 ≤ d'.a.toNat ∧
      (d.a.toNat < 0x8000 → 1 ≤ k) := by
  induction n generalizing d with
  | zero =>
    have : ¬d.a < 0x8000 := by rw [narrow_lt]; omega
    exact ⟨d, 0, by rw [renormD, if_neg this], Nat.le_refl 0, .refl h, by omega, fun h => by omega⟩
  | succ n ih =>
    rw [renormD]
    split
    next hlt =>
      rw [narrow_lt] at hlt
      have h1 := refill_shift_spec h hlt
      have ha1 : 0x8000 ≤ (shiftWindow (refill d)).a.toNat * 2 ^ n := by
        rw [h1.a]
        calc 0x8000 ≤ d.a.toNat * 2 ^ (n + 1) := hn
          _ = d.a.toNat * 2 ^ 1 * 2 ^ n := by rw [Nat.mul_assoc, ← pow_add, Nat.add_comm 1 n]
      obtain ⟨d', k, hr, hk, hs, ha, -⟩ := ih h1.opened ha1
      exact ⟨d', 1 + k, hr, by omega, h1.trans hs, ha, fun _ => by omega⟩
    next hge =>
      rw [narrow_lt] at hge
      exact ⟨d, 0, rfl, Nat.zero_le _, .refl h, by omega, fun h => absurd h hge⟩

end Sys2Proof.Machine
end

