-- ==== Sys2Proof/Laws/Table.lean ====
section
/-! SUPPORT. What R56 gives the coding rules: the bounds of `qe` in a table that meets it, and that the table of R50
does. -/

namespace Sys2Proof.Machine

/-- Fact 2 of R56, row by row. -/
theorem qe_bounds {cfg : Config} (h : cfg.ok = true) (s : TableIndex) :
    1 ≤ (qe cfg s).toNat ∧ (qe cfg s).toNat ≤ 0x5B12 := by
  have hmem : tableRow cfg s ∈ cfg.probTable.toList := by
    rw [Vector.mem_toList_iff]; exact Vector.getElem_mem _
  have := of_decide_eq_true (List.all_eq_true.mp h _ hmem)
  simpa [BitVec.le_def, qe] using this

/-- The table of R50 meets R56. -/
theorem defaultConfig_ok : defaultConfig.ok = true := by decide +kernel

end Sys2Proof.Machine
end

