-- ==== Sys2Proof/Laws/Decoder.lean ====
section
/-! SUPPORT. DEC_INIT and DEC_BIT of the decoder (spec/42_decoder.md rules R80, R84 to R87): the exact interval
arithmetic they carry out and the invariants they keep. -/

namespace Sys2Proof.Machine

/-! ### DEC_BIT -/

/-- The width left to the lower sub-interval (R84). -/
def decLow (cfg : Config) (d : Dec) : Nat := decWidth d - (qe cfg d.idx).toNat

/-- Whether the window lies in the upper sub-interval (R84). -/
def inUpper (cfg : Config) (d : Dec) : Bool := decide (decLow cfg d ≤ d.c.toNat)

/-- Whether the bit is the LPS (R85). -/
def isLps (cfg : Config) (d : Dec) : Bool :=
  if inUpper cfg d then decide ((qe cfg d.idx).toNat ≤ decLow cfg d)
  else decide (decLow cfg d < 0x8000 ∧ decLow cfg d < (qe cfg d.idx).toNat)

/-- `d'` is the decoder `d` after one bit, with `k` shifts. -/
structure BitDecoded (cfg : Config) (k : Nat) (d d' : Dec) : Prop where
  opened : DecOpen d'
  shifts : k ≤ 15
  aLow : 0x8000 ≤ d'.a.toNat
  a : d'.a.toNat = (if inUpper cfg d then (qe cfg d.idx).toNat else decLow cfg d) * 2 ^ k
  c : d'.c.toNat = (d.c.toNat - (if inUpper cfg d then decLow cfg d else 0)) * 2 ^ k + bitsValue (nextBit d) k
  stream : ∀ j, nextBit d' j = nextBit d (j + k)
  inp : d'.inp = d.inp
  count : d'.avail + 8 * bytesToCome d' = d.avail + 8 * bytesToCome d - k
  ended : d.cur = d.inp.length → d'.cur = d.cur
  clean : CleanInput d → d'.ph = .decoding ∧ CleanInput d'
  idx : d'.idx =
    (if isLps cfg d then nextLps cfg d.idx
     else if inUpper cfg d = false ∧ 0x8000 ≤ decLow cfg d then d.idx else nextMps cfg d.idx)
  mps : d'.mps = (if isLps cfg d then mpsAfterLps cfg d.idx d.mps else d.mps)

/-- The decoder after the choice of a sub-interval, before any shift: `base` is where the sub-interval starts. -/
structure Chosen (base width : Nat) (d d1 : Dec) : Prop where
  a : d1.a.toNat = width
  c : d1.c.toNat = d.c.toNat - base
  rest : { d1 with a := d.a, c := d.c, idx := d.idx, mps := d.mps } = d

theorem Chosen.opened {base width : Nat} {d d1 : Dec} (h : Chosen base width d d1) (hd : DecDecoding d)
    (hph : d.ph = .decoding) (hcur : d.cur ≤ d.inp.length) (hin : d.c.toNat - base < width) : DecOpen d1 := by
  obtain ⟨ph1, a1, c1, d1, ct1, av1, cur1, inp1, idx1, mps1⟩ := d1
  obtain ⟨ph, a, c, d, ct, av, cur, inp, idx, mps⟩ := d
  obtain ⟨h1, h2, h3⟩ := h
  simp only [Dec.mk.injEq, true_and, and_true] at h3 h1 h2 hin hph hcur
  obtain ⟨rfl, rfl, rfl, rfl, rfl, rfl⟩ := h3
  exact ⟨by simp [hph], by simpa only [h1, h2] using hin, hd.ctHigh, hd.pending, hd.availHigh,
    fun _ => hd.real, hcur, fun hf => by simp [hph] at hf⟩

theorem Chosen.stream {base width : Nat} {d d1 : Dec} (h : Chosen base width d d1) :
    nextBit d1 = nextBit d ∧ bytesToCome d1 = bytesToCome d ∧ d1.avail = d.avail ∧ d1.cur = d.cur ∧
      d1.inp = d.inp ∧ d1.ph = d.ph ∧ (CleanInput d → CleanInput d1) := by
  have h3 := h.rest
  obtain ⟨ph1, a1, c1, d1, ct1, av1, cur1, inp1, idx1, mps1⟩ := d1
  obtain ⟨ph, a, c, d, ct, av, cur, inp, idx, mps⟩ := d
  simp only [Dec.mk.injEq, true_and, and_true] at h3
  obtain ⟨rfl, rfl, rfl, rfl, rfl, rfl⟩ := h3
  exact ⟨rfl, rfl, rfl, rfl, rfl, rfl, id⟩

/-- The choice of a sub-interval followed by `k` shifts is the bit's whole effect on the registers (R84). -/
theorem Chosen.decoded {cfg : Config} {d d1 d' : Dec} {k : Nat}
    (h : Chosen (if inUpper cfg d then decLow cfg d else 0)
      (if inUpper cfg d then (qe cfg d.idx).toNat else decLow cfg d) d d1)
    (hph : d.ph = .decoding) (hs : DecShifted k d1 d') (hk : k ≤ 15) (ha : 0x8000 ≤ d'.a.toNat)
    (hidx : d1.idx =
      (if isLps cfg d then nextLps cfg d.idx
       else if inUpper cfg d = false ∧ 0x8000 ≤ decLow cfg d then d.idx else nextMps cfg d.idx))
    (hmps : d1.mps = (if isLps cfg d then mpsAfterLps cfg d.idx d.mps else d.mps)) : BitDecoded cfg k d d' := by
  obtain ⟨h1, h2, h3, h4, h5, h6, h7⟩ := h.stream
  exact ⟨hs.opened, hk, ha, by rw [hs.a, h.a], by rw [hs.c, h.c, h1], fun j => by rw [hs.stream, h1],
    hs.inp.trans h5, by rw [hs.count, h2, h3], fun he => by rw [hs.ended (by rw [h4, h5]; exact he), h4],
    fun hc => hs.clean (h6.trans hph) (h7 hc), hs.idx.trans hidx, hs.mps.trans hmps⟩

theorem renormAfter_spec {b : Bool} {d : Dec} (h : DecOpen d) (hpos : 1 ≤ d.a.toNat) :
    ∃ d' k, renormAfter (b, d) = some (b, d') ∧ k ≤ 15 ∧ DecShifted k d d' ∧ 0x8000 ≤ d'.a.toNat := by
  obtain ⟨d', k, hr, hk, hs, ha, -⟩ := renormD_spec 15 h (by omega)
  exact ⟨d', k, by rw [renormAfter, hr], hk, hs, ha⟩

theorem decWidth_bounds {d : Dec} (h : DecDecoding d) : 0x8000 ≤ decWidth d ∧ decWidth d ≤ 0x10000 := by
  rw [decWidth]
  have := d.a.isLt
  split
  · omega
  next hz => have := h.aRange.resolve_left hz; omega

theorem sub_qe_toNat {cfg : Config} {d : Dec} (hok : cfg.ok = true) (h : DecDecoding d) :
    (d.a - qe cfg d.idx).toNat = decLow cfg d := by
  obtain ⟨hq1, hq2⟩ := qe_bounds hok d.idx
  have hw := decWidth_bounds h
  rw [decLow, decWidth, BitVec.toNat_sub]
  have := d.a.isLt
  split
  next hz =>
    have h0 : d.a.toNat = 0 := by rw [hz]; rfl
    omega
  next hz => have := h.aRange.resolve_left hz; omega

/-- The decoding of one bit in DECODING (R84 to R87), all it can do. -/
theorem decodeBit_spec {cfg : Config} {d : Dec} (hok : cfg.ok = true) (h : DecDecoding d) (hph : d.ph = .decoding)
    (hcur : d.cur ≤ d.inp.length) :
    ∃ d' k, decodeBit cfg d = some (isLps cfg d != d.mps, d') ∧ BitDecoded cfg k d d' := by
  obtain ⟨hq1, hq2⟩ := qe_bounds hok d.idx
  obtain ⟨hw1, hw2⟩ := decWidth_bounds h
  have hlow := sub_qe_toNat hok h
  have hl : decLow cfg d = decWidth d - (qe cfg d.idx).toNat := rfl
  have hwin := h.window
  unfold decodeBit
  simp only
  by_cases hc : d.c < d.a - qe cfg d.idx
  · have hc' : d.c.toNat < decLow cfg d := by rw [BitVec.lt_def, hlow] at hc; exact hc
    have hup : inUpper cfg d = false := by rw [inUpper]; simp; omega
    rw [if_pos hc]
    have hch : ∀ idx mps, Chosen (if inUpper cfg d then decLow cfg d else 0)
        (if inUpper cfg d then (qe cfg d.idx).toNat else decLow cfg d) d
        { d with a := d.a - qe cfg d.idx, idx := idx, mps := mps } := fun idx mps =>
      ⟨by rw [hup]; exact hlow, by rw [hup]; rfl, rfl⟩
    have hop : ∀ idx mps, DecOpen { d with a := d.a - qe cfg d.idx, idx := idx, mps := mps } := fun idx mps =>
      (hch idx mps).opened h hph hcur (by rw [hup]; simpa using hc')
    by_cases hf : 0x8000 ≤ d.a - qe cfg d.idx
    · have hf' : 0x8000 ≤ decLow cfg d := by rw [BitVec.le_def, hlow] at hf; exact hf
      have hlps : isLps cfg d = false := by rw [isLps, hup]; simp; omega
      rw [if_pos hf]
      refine ⟨_, 0, by rw [hlps, Bool.false_bne], (hch d.idx d.mps).decoded hph (.refl (hop d.idx d.mps)) (by omega)
        (by rw [(hch d.idx d.mps).a, hup]; exact hf') (by rw [hlps, hup]; simp [hf']) (by rw [hlps]; rfl)⟩
    · have hf' : decLow cfg d < 0x8000 := by
        rw [BitVec.le_def, hlow] at hf; exact Nat.lt_of_not_le hf
      rw [if_neg hf]
      unfold condMpsExchange
      by_cases hx : d.a - qe cfg d.idx < qe cfg d.idx
      · have hx' : decLow cfg d < (qe cfg d.idx).toNat := by rw [BitVec.lt_def, hlow] at hx; exact hx
        have hlps : isLps cfg d = true := by rw [isLps, hup]; simp; omega
        rw [if_pos hx]
        obtain ⟨d', k, hr, hk, hs, ha⟩ :=
          renormAfter_spec (b := !d.mps) (hop (nextLps cfg d.idx) (mpsAfterLps cfg d.idx d.mps))
            (show 1 ≤ (d.a - qe cfg d.idx).toNat by omega)
        exact ⟨d', k, by rw [hlps, Bool.true_bne]; exact hr,
          (hch _ _).decoded hph hs hk ha (by rw [hlps]; rfl) (by rw [hlps]; rfl)⟩
      · have hx' : (qe cfg d.idx).toNat ≤ decLow cfg d := by
          rw [BitVec.lt_def, hlow] at hx; omega
        have hlps : isLps cfg d = false := by rw [isLps, hup]; simp; omega
        rw [if_neg hx]
        obtain ⟨d', k, hr, hk, hs, ha⟩ :=
          renormAfter_spec (b := d.mps) (hop (nextMps cfg d.idx) d.mps)
            (show 1 ≤ (d.a - qe cfg d.idx).toNat by omega)
        exact ⟨d', k, by rw [hlps, Bool.false_bne]; exact hr,
          (hch _ _).decoded hph hs hk ha (by rw [hlps]; simp; omega) (by rw [hlps]; rfl)⟩
  · have hc' : decLow cfg d ≤ d.c.toNat := by rw [BitVec.lt_def, hlow] at hc; omega
    have hup : inUpper cfg d = true := by rw [inUpper]; simpa using hc'
    rw [if_neg hc]
    have hsub : (d.c - (d.a - qe cfg d.idx)).toNat = d.c.toNat - decLow cfg d := by
      rw [BitVec.toNat_sub_of_le (by rw [BitVec.le_def, hlow]; exact hc'), hlow]
    have hch : ∀ idx mps, Chosen (if inUpper cfg d then decLow cfg d else 0)
        (if inUpper cfg d then (qe cfg d.idx).toNat else decLow cfg d) d
        { d with a := qe cfg d.idx, c := d.c - (d.a - qe cfg d.idx), idx := idx, mps := mps } := fun idx mps =>
      ⟨by rw [hup]; rfl, by rw [hup]; exact hsub, rfl⟩
    have hop : ∀ idx mps,
        DecOpen { d with a := qe cfg d.idx, c := d.c - (d.a - qe cfg d.idx), idx := idx, mps := mps } :=
      fun idx mps => (hch idx mps).opened h hph hcur (by rw [hup]; simp only [if_true]; omega)
    unfold condLpsExchange
    by_cases hx : d.a - qe cfg d.idx < qe cfg d.idx
    · have hx' : decLow cfg d < (qe cfg d.idx).toNat := by rw [BitVec.lt_def, hlow] at hx; exact hx
      have hlps : isLps cfg d = false := by rw [isLps, hup]; simp; omega
      simp only [if_pos hx]
      obtain ⟨d', k, hr, hk, hs, ha⟩ := renormAfter_spec (b := d.mps) (hop (nextMps cfg d.idx) d.mps) hq1
      exact ⟨d', k, by rw [hlps, Bool.false_bne]; exact hr,
        (hch _ _).decoded hph hs hk ha (by rw [hlps, hup]; rfl) (by rw [hlps]; rfl)⟩
    · have hx' : (qe cfg d.idx).toNat ≤ decLow cfg d := by
        rw [BitVec.lt_def, hlow] at hx; omega
      have hlps : isLps cfg d = true := by rw [isLps, hup]; simp; omega
      simp only [if_neg hx]
      obtain ⟨d', k, hr, hk, hs, ha⟩ :=
        renormAfter_spec (b := !d.mps) (hop (nextLps cfg d.idx) (mpsAfterLps cfg d.idx d.mps)) hq1
      exact ⟨d', k, by rw [hlps, Bool.true_bne]; exact hr,
        (hch _ _).decoded hph hs hk ha (by rw [hlps]; rfl) (by rw [hlps]; rfl)⟩

/-- A decoder that has shifted to the end of a bit is a good one again, if it is still DECODING (R27). -/
theorem BitDecoded.decoding {cfg : Config} {k : Nat} {d d' : Dec} (h : BitDecoded cfg k d d')
    (hph : d'.ph = .decoding) : DecDecoding d' := by
  have hz : d'.a ≠ 0 := fun hz => by
    have ha := h.aLow
    rw [hz] at ha
    exact absurd ha (by decide)
  exact ⟨.inr h.aLow, fun ha => absurd ha hz, by rw [decWidth, if_neg hz]; exact h.opened.window,
    h.opened.ctHigh, h.opened.pending, h.opened.availHigh, h.opened.real hph⟩

/-! ### DEC_INIT -/

/-- FETCH moves the cursor within the input, leaves the other registers alone, and never goes idle (R81). -/
theorem fetch_frame {d : Dec} (hcur : d.cur ≤ d.inp.length) :
    (fetch d).2.cur ≤ d.inp.length ∧ (fetch d).2.inp = d.inp ∧ (fetch d).2.a = d.a ∧ (fetch d).2.d = d.d ∧
      (fetch d).2.ct = d.ct ∧ (fetch d).2.idx = d.idx ∧ (fetch d).2.mps = d.mps ∧
      ((fetch d).2.ph = d.ph ∨ (fetch d).2.ph = .failed) ∧ (fetch d).2.avail ≤ d.avail + 8 ∧
      ((fetch d).2.ph ≠ .failed → (fetch d).2.cur < d.inp.length →
        (fetch d).2.avail = d.avail + 8 ∧ d.cur < d.inp.length) := by
  by_cases hf : d.ph = .failed
  · rw [fetch_failed hf]
    exact ⟨hcur, rfl, rfl, rfl, rfl, rfl, rfl, .inl rfl, Nat.le_add_right _ _, fun h => absurd hf h⟩
  · obtain ⟨hend, hfe⟩ | ⟨b, n, -, hn, hlen, hfe⟩ | ⟨-, -, -, -, hfe⟩ := fetch_cases hf hcur <;> rw [hfe]
    · exact ⟨hcur, rfl, rfl, rfl, rfl, rfl, rfl, .inl rfl, Nat.le_add_right _ _,
        fun _ hlt => absurd hlt (by show ¬d.cur < d.inp.length; omega)⟩
    · exact ⟨hlen, rfl, rfl, rfl, rfl, rfl, rfl, .inl rfl, Nat.le_refl _,
        fun _ hlt => ⟨rfl, by
          have h3 : d.cur + n < d.inp.length := hlt
          omega⟩⟩
    · exact ⟨hcur, rfl, rfl, rfl, rfl, rfl, rfl, .inr rfl, Nat.le_add_right _ _, fun h => absurd rfl h⟩

/-- DEC_INIT leaves a good decoder, DECODING or FAILED, with the cursor within the input it is given (R27, R80). -/
theorem initDecoder_spec (inp : List Byte) :
    ((initDecoder inp).ph = .decoding ∨ (initDecoder inp).ph = .failed) ∧ (initDecoder inp).inp = inp ∧
      (initDecoder inp).cur ≤ inp.length ∧ ((initDecoder inp).ph = .decoding → DecDecoding (initDecoder inp)) := by
  have h0 : (openDecoder inp).cur ≤ (openDecoder inp).inp.length := Nat.zero_le _
  obtain ⟨a1, a2, a3, a4, a5, -, -, a8, a9, a10⟩ := fetch_frame h0
  obtain ⟨b1, b2, b3, b4, b5, -, -, b8, b9, b10⟩ :=
    fetch_frame (d := (fetch (openDecoder inp)).2) (by rw [a2]; exact a1)
  have hinp : (initDecoder inp).inp = inp := b2.trans a2
  have hcur : (initDecoder inp).cur ≤ inp.length := by
    rw [a2] at b1; exact b1
  have ha : (initDecoder inp).a = 0 := b3.trans a3
  have hct : (initDecoder inp).ct = 0 := b5.trans a5
  have hd : (initDecoder inp).d = 0 := b4.trans a4
  refine ⟨?_, hinp, hcur, fun hph => ?_⟩
  · obtain h | h := b8
    · obtain h' | h' := a8
      · exact .inl (h.trans h')
      · exact .inr (h.trans h')
    · exact .inr h
  · have hav0 : (openDecoder inp).avail = 0 := rfl
    refine ⟨.inl ha, fun _ => by rw [hinp], ?_, by rw [hct]; decide, by rw [hd, hct]; rfl, ?_, fun hlt => ?_⟩
    · rw [decWidth, if_pos ha]; exact (initDecoder inp).c.isLt
    · rw [hct]
      show (fetch (fetch (openDecoder inp)).2).2.avail ≤ 16
      omega
    · rw [hct]
      have hnf : (fetch (fetch (openDecoder inp)).2).2.ph ≠ .failed := by
        rw [show (fetch (fetch (openDecoder inp)).2).2.ph = .decoding from hph]; decide
      have hlt' : (fetch (fetch (openDecoder inp)).2).2.cur < (fetch (openDecoder inp)).2.inp.length := by
        rw [hinp] at hlt; rw [a2]; exact hlt
      obtain ⟨c1, c2⟩ := b10 hnf hlt'
      have hnf1 : (fetch (openDecoder inp)).2.ph ≠ .failed := fun hf => by
        rw [fetch_failed hf] at hnf; exact hnf hf
      obtain ⟨e1, -⟩ := a10 hnf1 (by rw [a2] at c2; exact c2)
      show (fetch (fetch (openDecoder inp)).2).2.avail = 16
      omega

end Sys2Proof.Machine
end

