-- ==== Sys2Proof/Laws/Renorm.lean ====
section
/-! SUPPORT. RENORM_E (spec/41_encoder.md rule R64): interval and code value are doubled the same number of times, and
the encoder's invariants (spec/10_state.md rule R26) are kept, the byte output included. -/

namespace Sys2Proof.Machine

/-- The encoder inside an operation, between two shifts: the invariants of `EncCoding` that do not say that the
interval is renormalized. -/
structure EncOpen (e : Enc) : Prop where
  aHigh : e.a.toNat ≤ 0xFFFF
  ctLow : 1 ≤ e.ct.toNat
  ctHigh : e.ct.toNat ≤ 11
  early : 9 ≤ e.ct.toNat → e.obuf = [0x00] ∧ e.st = 0
  unspent : e.obuf = [0x00] → e.c.toNat + e.a.toNat ≤ 0x10000 * 2 ^ (11 - e.ct.toNat)
  window : e.ct.toNat ≤ 8 → e.c.toNat + e.a.toNat < 0x90000 * 2 ^ (8 - e.ct.toNat)
  buffer : BufferOk e.obuf

theorem EncCoding.buffer {e : Enc} (h : EncCoding e) : BufferOk e.obuf := ⟨h.placeholder, h.lastByte, h.body⟩

theorem EncOpen.coding {e : Enc} (h : EncOpen e) (ha : 0x8000 ≤ e.a.toNat) : EncCoding e where
  aLow := ha
  aHigh := by have := h.aHigh; omega
  fresh := fun h' => by have := h.aHigh; omega
  ctLow := h.ctLow
  ctHigh := h.ctHigh
  early := h.early
  unspent := h.unspent
  window := h.window
  placeholder := h.buffer.placeholder
  lastByte := h.buffer.lastByte
  body := h.buffer.body

theorem destuff_buffer {obuf : List Byte} (h : obuf.head? = some 0x00) : destuff obuf = 0x00 :: destuff obuf.tail := by
  cases obuf with
  | nil => simp at h
  | cons b rest =>
    obtain rfl : b = 0x00 := by simpa using h
    exact destuff_cons_of_ne rest (by decide)

theorem codeBytes_value {e : Enc} (h : BufferOk e.obuf) :
    bytesValue (codeBytes e) = bytesValue (destuff e.obuf ++ List.replicate e.st 0xFF) := by
  rw [destuff_buffer h.placeholder, List.cons_append, bytesValue_cons]
  simp [codeBytes]

theorem codeBytes_length {e : Enc} (h : BufferOk e.obuf) :
    (codeBytes e).length + 1 = (destuff e.obuf).length + e.st := by
  rw [destuff_buffer h.placeholder]
  simp [codeBytes]; omega

/-- What a shift, a procedure of shifts, or a coding path leaves alone. -/
structure SameContext (e e' : Enc) : Prop where
  ph : e'.ph = e.ph
  idx : e'.idx = e.idx
  mps : e'.mps = e.mps
  out : e'.out = e.out
  grows : Grows e.obuf e'.obuf

theorem SameContext.refl (e : Enc) : SameContext e e := ⟨rfl, rfl, rfl, rfl, .refl _⟩

theorem SameContext.trans {e e' e'' : Enc} (h : SameContext e e') (h' : SameContext e' e'') : SameContext e e'' :=
  ⟨h'.ph.trans h.ph, h'.idx.trans h.idx, h'.mps.trans h.mps, h'.out.trans h.out, h.grows.trans h'.grows⟩

/-- `e'` is `e` after `k` shifts of interval and code value. -/
structure Shifted (k : Nat) (e e' : Enc) : Prop where
  opened : EncOpen e'
  a : e'.a.toNat = e.a.toNat * 2 ^ k
  value : codeValue e' = codeValue e * 2 ^ k
  place : 8 * (codeBytes e').length + e.ct.toNat = 8 * (codeBytes e).length + e'.ct.toNat + k
  same : SameContext e e'

theorem Shifted.trans {k l : Nat} {e e' e'' : Enc} (h : Shifted k e e') (h' : Shifted l e' e'') :
    Shifted (k + l) e e'' where
  opened := h'.opened
  a := by rw [h'.a, h.a, pow_add, Nat.mul_assoc]
  value := by rw [h'.value, h.value, pow_add, Nat.mul_assoc]
  place := by have := h.place; have := h'.place; omega
  same := h.same.trans h'.same

theorem maskCode_toNat (c : BitVec 32) : (c &&& 0x7FFFF).toNat = c.toNat % 2 ^ 19 := by
  rw [BitVec.toNat_and, show (0x7FFFF : BitVec 32).toNat = 2 ^ 19 - 1 from rfl, Nat.and_two_pow_sub_one_eq_mod]

theorem shiftCode_toNat (c : BitVec 32) : (c >>> 19).toNat = c.toNat / 2 ^ 19 := by
  rw [BitVec.toNat_ushiftRight, Nat.shiftRight_eq_div_pow]

theorem doubleCode_toNat (c : BitVec 32) (h : c.toNat < 2 ^ 31) : (c <<< 1).toNat = 2 * c.toNat := by
  rw [BitVec.toNat_shiftLeft, Nat.shiftLeft_eq]; omega

theorem doubleWide_toNat (a : BitVec 17) (h : a.toNat < 0x8000) : (a <<< 1).toNat = 2 * a.toNat := by
  rw [BitVec.toNat_shiftLeft, Nat.shiftLeft_eq]; omega

theorem counterDown_toNat (ct : BitVec 4) (h : 1 ≤ ct.toNat) : (ct - 1).toNat = ct.toNat - 1 := by
  rw [BitVec.toNat_sub]
  have := ct.isLt
  simp
  omega

/-- A BYTE_OUT when the last of `E.CT` shifts has been made, in terms of the code value (R65, R66). -/
theorem afterByteOut_spec {e : Enc} (hb : BufferOk e.obuf) (hc : e.c.toNat < 0x9000000)
    (hfresh : e.obuf = [0x00] → e.c.toNat < 0x8000000) :
    BufferOk (afterByteOut e).obuf ∧
    ((afterByteOut e).obuf = [0x00] → e.obuf = [0x00] ∧ e.c.toNat = 0xFF * 2 ^ 19 + (afterByteOut e).c.toNat) ∧
    bytesValue (codeBytes (afterByteOut e)) * 2 ^ 19 + (afterByteOut e).c.toNat =
      bytesValue (codeBytes e) * 2 ^ 27 + e.c.toNat ∧
    (codeBytes (afterByteOut e)).length = (codeBytes e).length + 1 ∧
    (afterByteOut e).c.toNat < 2 ^ 19 := by
  have ht : (e.c >>> 19).toNat = e.c.toNat / 2 ^ 19 := shiftCode_toNat e.c
  have hm : (afterByteOut e).c.toNat = e.c.toNat % 2 ^ 19 := maskCode_toNat e.c
  obtain ⟨h1, h2, h3, h4⟩ := emitted_spec (t := e.c >>> 19) (e := e) hb (by rw [ht]; omega)
    (fun h => by have := hfresh h; rw [ht]; omega)
  have h1' : BufferOk (afterByteOut e).obuf := h1
  refine ⟨h1', fun h => ?_, ?_, ?_, by omega⟩
  · obtain ⟨h5, h6⟩ := h2 h
    refine ⟨h5, ?_⟩
    rw [ht] at h6; omega
  · rw [codeBytes_value h1', codeBytes_value hb]
    have h3' : bytesValue (destuff (afterByteOut e).obuf ++ List.replicate (afterByteOut e).st 0xFF) = _ := h3
    rw [h3', ht, hm]
    omega
  · have h5 := codeBytes_length h1'
    have h6 := codeBytes_length hb
    have h4' : (destuff (afterByteOut e).obuf).length + (afterByteOut e).st = _ := h4
    omega

theorem codeBytes_congr {e e' : Enc} (ho : e'.obuf = e.obuf) (hs : e'.st = e.st) : codeBytes e' = codeBytes e := by
  rw [codeBytes, codeBytes, ho, hs]

theorem codeValue_withCounter (e : Enc) (ct : BitVec 4) :
    codeValue { e with ct := ct } = bytesValue (codeBytes e) * 2 ^ (27 - ct.toNat) + e.c.toNat := rfl

/-- One pass of RENORM_E (R64). -/
theorem shiftE_ends (cap : Option Nat) {e : Enc} (h : EncOpen e) (ha : e.a.toNat < 0x8000) (hpos : 1 ≤ e.a.toNat) :
    (shiftE cap e).Ends (fun e' => Shifted 1 e e' ∧ (Fits cap e.obuf → Fits cap e'.obuf)) (Stopped cap e) := by
  have hct := h.ctLow
  have hcth := h.ctHigh
  have hearly := h.early
  have hunspent := h.unspent
  have hwindow := h.window
  have hc31 : e.c.toNat < 2 ^ 31 := by
    by_cases h9 : 9 ≤ e.ct.toNat
    · have := hunspent (hearly h9).1
      interval_cases e.ct.toNat <;> omega
    · have := hwindow (by omega)
      interval_cases e.ct.toNat <;> omega
  have hc := doubleCode_toNat e.c hc31
  have hA := doubleWide_toNat e.a ha
  have hcd := counterDown_toNat e.ct hct
  unfold shiftE
  split
  next hz =>
    have hct1 : e.ct.toNat = 1 := by
      have := congrArg BitVec.toNat hz
      rw [doubleE_ct, hcd] at this
      simp at this; omega
    rw [hct1] at hearly hunspent hwindow
    have hw := hwindow (by omega)
    have hb : BufferOk (doubleE e).obuf := h.buffer
    obtain ⟨s1, s2, s3, s4, s5⟩ := afterByteOut_spec (e := doubleE e) hb (by rw [doubleE_c, hc]; omega)
      (fun hf => by have := hunspent hf; rw [doubleE_c, hc]; omega)
    refine ((byteOut_ends cap (doubleE e)).imp (fun _ h => h) ?_).andThen ?_
    · intro e' he'
      exact he'.of_grows (.refl _) rfl id
    · rintro e1 ⟨rfl, hfit⟩
      refine ⟨⟨⟨?_, show 1 ≤ (8 : BitVec 4).toNat by decide, show (8 : BitVec 4).toNat ≤ 11 by decide, ?_, ?_, ?_,
        s1⟩, ?_, ?_, ?_, ⟨rfl, rfl, rfl, rfl, ?_⟩⟩, hfit⟩
      · show (e.a <<< 1).toNat ≤ _
        omega
      · intro h9; exact absurd (show 9 ≤ (8 : BitVec 4).toNat from h9) (by decide)
      · intro hf
        obtain ⟨hf1, hf2⟩ := s2 hf
        have hu := hunspent hf1
        rw [doubleE_c, hc] at hf2
        show (afterByteOut (doubleE e)).c.toNat + (e.a <<< 1).toNat ≤ 0x10000 * 2 ^ 3
        omega
      · intro _
        show (afterByteOut (doubleE e)).c.toNat + (e.a <<< 1).toNat < 0x90000 * 2 ^ 0
        omega
      · show (e.a <<< 1).toNat = e.a.toNat * 2 ^ 1
        omega
      · refine (codeValue_withCounter (afterByteOut (doubleE e)) 8).trans ?_
        rw [show 27 - (8 : BitVec 4).toNat = 19 from rfl, s3, doubleE_c, hc, codeValue, hct1,
          codeBytes_congr (e := e) (e' := doubleE e) rfl rfl, show 27 - 1 = 26 from rfl]
        ring
      · show 8 * (codeBytes (afterByteOut (doubleE e))).length + e.ct.toNat = 8 * (codeBytes e).length + 8 + 1
        rw [s4, codeBytes_congr (e := e) (e' := doubleE e) rfl rfl]
        omega
      · exact emitted_grows _ (doubleE e)
  next hz =>
    have hct2 : 2 ≤ e.ct.toNat := by
      by_contra hlt
      apply hz
      apply BitVec.eq_of_toNat_eq
      rw [doubleE_ct, hcd]
      simp; omega
    refine ⟨⟨⟨?_, ?_, ?_, ?_, ?_, ?_, h.buffer⟩, ?_, ?_, ?_, ⟨rfl, rfl, rfl, rfl, .refl _⟩⟩, id⟩
    · show (e.a <<< 1).toNat ≤ _
      omega
    · show 1 ≤ (e.ct - 1).toNat
      omega
    · show (e.ct - 1).toNat ≤ 11
      omega
    · intro h9
      exact hearly (by have : 9 ≤ (e.ct - 1).toNat := h9; omega)
    · intro hf
      have := hunspent hf
      show (e.c <<< 1).toNat + (e.a <<< 1).toNat ≤ 0x10000 * 2 ^ (11 - (e.ct - 1).toNat)
      rw [hcd, hc, hA]
      interval_cases e.ct.toNat <;> omega
    · intro h8
      have h8' : e.ct.toNat ≤ 9 := by have : (e.ct - 1).toNat ≤ 8 := h8; omega
      show (e.c <<< 1).toNat + (e.a <<< 1).toNat < 0x90000 * 2 ^ (8 - (e.ct - 1).toNat)
      rw [hcd, hc, hA]
      by_cases h9 : e.ct.toNat = 9
      · have := hunspent (hearly (by omega)).1
        rw [h9] at this ⊢
        omega
      · have := hwindow (by omega)
        interval_cases e.ct.toNat <;> omega
    · show (e.a <<< 1).toNat = e.a.toNat * 2 ^ 1
      omega
    · show bytesValue (codeBytes (doubleE e)) * 2 ^ (27 - (e.ct - 1).toNat) + (e.c <<< 1).toNat =
        (bytesValue (codeBytes e) * 2 ^ (27 - e.ct.toNat) + e.c.toNat) * 2 ^ 1
      rw [codeBytes_congr (e := e) (e' := doubleE e) rfl rfl, hcd, hc]
      obtain ⟨m, hm⟩ : ∃ m, 27 - e.ct.toNat = m := ⟨_, rfl⟩
      rw [show 27 - (e.ct.toNat - 1) = m + 1 by omega, hm]
      ring
    · show 8 * (codeBytes (doubleE e)).length + e.ct.toNat = 8 * (codeBytes e).length + (e.ct - 1).toNat + 1
      rw [codeBytes_congr (e := e) (e' := doubleE e) rfl rfl]
      omega

theorem Shifted.refl {e : Enc} (h : EncOpen e) : Shifted 0 e e where
  opened := h
  a := by simp
  value := by simp
  place := by omega
  same := .refl e

theorem wide_lt {a : BitVec 17} : a < 0x8000 ↔ a.toNat < 0x8000 := by
  rw [BitVec.lt_def]; rfl

/-- RENORM_E with enough passes (R64): it shifts until `E.A >= 0x8000`, or a byte output stops it. -/
theorem renormE_ends (cap : Option Nat) (n : Nat) {e : Enc} (h : EncOpen e) (hn : 0x8000 ≤ e.a.toNat * 2 ^ n) :
    (renormE cap n e).Ends
      (fun e' => ∃ k, k ≤ n ∧ Shifted k e e' ∧ 0x8000 ≤ e'.a.toNat ∧ (Fits cap e.obuf → Fits cap e'.obuf))
      (Stopped cap e) := by
  induction n generalizing e with
  | zero =>
    have : ¬e.a < 0x8000 := by rw [wide_lt]; omega
    rw [renormE, if_neg this]
    exact ⟨0, Nat.le_refl 0, .refl h, by omega, id⟩
  | succ n ih =>
    rw [renormE]
    split
    next hlt =>
      rw [wide_lt] at hlt
      have hpos : 1 ≤ e.a.toNat := by
        rcases Nat.eq_zero_or_pos e.a.toNat with h0 | h0
        · rw [h0] at hn; omega
        · exact h0
      refine (shiftE_ends cap h hlt hpos).andThen ?_
      rintro e1 ⟨h1, hf1⟩
      have ha1 : 0x8000 ≤ e1.a.toNat * 2 ^ n := by
        rw [h1.a]
        calc 0x8000 ≤ e.a.toNat * 2 ^ (n + 1) := hn
          _ = e.a.toNat * 2 ^ 1 * 2 ^ n := by rw [Nat.mul_assoc, ← pow_add, Nat.add_comm 1 n]
      refine (ih h1.opened ha1).imp ?_ ?_
      · rintro e2 ⟨k, hk, h2, ha2, hf2⟩
        exact ⟨1 + k, by omega, h1.trans h2, ha2, fun hf => hf2 (hf1 hf)⟩
      · intro e2 h2
        exact h2.of_grows h1.same.grows h1.same.out hf1
    next hge =>
      rw [wide_lt] at hge
      exact ⟨0, Nat.zero_le _, .refl h, by omega, id⟩

end Sys2Proof.Machine
end

