-- ==== Sys2Proof/Laws/Encoder.lean ====
section
/-! SUPPORT. The coding paths and the flush of the encoder (spec/41_encoder.md rules R61 to R63, R67 to R70): the exact
interval arithmetic they carry out, the invariants they keep, and the ways they can end. -/

namespace Sys2Proof.Machine

theorem qeWide_toNat (q : BitVec 16) : (qeWide q).toNat = q.toNat := by
  rw [qeWide, BitVec.toNat_setWidth]
  have := q.isLt
  omega

/-- The width left to the lower sub-interval (R62, R63). -/
def lowWidth (cfg : Config) (e : Enc) : Nat := e.a.toNat - (qe cfg e.idx).toNat

/-- Whether the bit takes the upper sub-interval (R62, R63). -/
def takesUpper (cfg : Config) (d : Bool) (e : Enc) : Bool :=
  if d = e.mps then decide (lowWidth cfg e < 0x8000 ∧ lowWidth cfg e < (qe cfg e.idx).toNat)
  else decide ((qe cfg e.idx).toNat ≤ lowWidth cfg e)

/-- `e'` is the encoder `e` after the bit `d`, with `k` shifts. -/
structure BitCoded (cfg : Config) (d : Bool) (k : Nat) (e e' : Enc) : Prop where
  coding : EncCoding e'
  shifts : k ≤ 15
  aHigh : e'.a.toNat ≤ 0xFFFF
  a : e'.a.toNat = (if takesUpper cfg d e then (qe cfg e.idx).toNat else lowWidth cfg e) * 2 ^ k
  value : codeValue e' = (codeValue e + (if takesUpper cfg d e then lowWidth cfg e else 0)) * 2 ^ k
  place : 8 * (codeBytes e').length + e.ct.toNat = 8 * (codeBytes e).length + e'.ct.toNat + k
  ph : e'.ph = e.ph
  out : e'.out = e.out
  grows : Grows e.obuf e'.obuf
  idx : e'.idx =
    (if d = e.mps then (if 0x8000 ≤ lowWidth cfg e then e.idx else nextMps cfg e.idx) else nextLps cfg e.idx)
  mps : e'.mps = (if d = e.mps then e.mps else mpsAfterLps cfg e.idx e.mps)

/-- What the choice of a sub-interval does to the registers, before any shift: `base` is where it starts and `width`
how wide it is. -/
structure Narrowed (base width : Nat) (e e' : Enc) : Prop where
  opened : EncOpen e'
  a : e'.a.toNat = width
  value : codeValue e' = codeValue e + base
  bytes : codeBytes e' = codeBytes e
  ct : e'.ct = e.ct
  ph : e'.ph = e.ph
  out : e'.out = e.out
  obuf : e'.obuf = e.obuf

/-- The encoder as `enc.init` leaves it is a good one (R26, R60). -/
theorem encCoding_of_fresh {e : Enc} (h : freshEncoder e) : EncCoding e := by
  obtain ⟨ha, hc, hct, hst, -, -, hob⟩ := id h
  have hA : e.a.toNat = 0x10000 := by rw [ha]; rfl
  have hC : e.c.toNat = 0 := by rw [hc]; rfl
  have hT : e.ct.toNat = 11 := by rw [hct]; rfl
  exact
    { aLow := by omega
      aHigh := by omega
      fresh := fun _ => h
      ctLow := by omega
      ctHigh := by omega
      early := fun _ => ⟨hob, hst⟩
      unspent := fun _ => by simp [hA, hC, hT]
      window := fun h8 => by omega
      placeholder := by rw [hob]; rfl
      lastByte := by rw [hob]; decide
      body := by rw [hob]; rfl }

theorem code_bound {e : Enc} (h : EncCoding e) : e.c.toNat + e.a.toNat < 2 ^ 27 := by
  have hct := h.ctLow
  have hcth := h.ctHigh
  by_cases h9 : 9 ≤ e.ct.toNat
  · have := h.unspent (h.early h9).1
    interval_cases e.ct.toNat <;> omega
  · have := h.window (by omega)
    interval_cases e.ct.toNat <;> omega

/-- A sub-interval inside the interval, with the registers that hold it. -/
theorem narrowed_of {e e' : Enc} {base width : Nat} (h : EncCoding e) (hin : base + width ≤ e.a.toNat)
    (hw : width ≤ 0xFFFF) (ha : e'.a.toNat = width) (hc : e'.c.toNat = e.c.toNat + base) (hct : e'.ct = e.ct)
    (hst : e'.st = e.st) (hobuf : e'.obuf = e.obuf) (hph : e'.ph = e.ph) (hout : e'.out = e.out) :
    Narrowed base width e e' where
  opened :=
    { aHigh := by omega
      ctLow := by rw [hct]; exact h.ctLow
      ctHigh := by rw [hct]; exact h.ctHigh
      early := by rw [hct, hobuf, hst]; exact h.early
      unspent := by
        rw [hct, hobuf]; intro hf; have := h.unspent hf; omega
      window := by
        rw [hct]; intro h8; have := h.window h8; omega
      buffer := by rw [hobuf]; exact h.buffer }
  a := ha
  value := by rw [codeValue, codeValue, codeBytes_congr hobuf hst, hct, hc, Nat.add_assoc]
  bytes := codeBytes_congr hobuf hst
  ct := hct
  ph := hph
  out := hout
  obuf := hobuf

theorem sub_qeWide_toNat {a : BitVec 17} {q : BitVec 16} (h : q.toNat ≤ a.toNat) :
    (a - qeWide q).toNat = a.toNat - q.toNat := by
  have hq := qeWide_toNat q
  rw [BitVec.toNat_sub_of_le (by rw [BitVec.le_def, hq]; exact h), hq]

theorem add_code_toNat {c : BitVec 32} {a : BitVec 17} (h : c.toNat + a.toNat < 2 ^ 32) :
    (c + a.setWidth 32).toNat = c.toNat + a.toNat := by
  have ha := a.isLt
  rw [BitVec.toNat_add, BitVec.toNat_setWidth, Nat.mod_eq_of_lt (show a.toNat < 2 ^ 32 by omega),
    Nat.mod_eq_of_lt h]

/-- Renormalization after the choice of a sub-interval and a new state. -/
theorem renorm_narrowed {cap : Option Nat} {base width : Nat} {e e1 : Enc} (h : Narrowed base width e e1)
    (hpos : 1 ≤ width) :
    (renormE cap 15 e1).Ends
      (fun e' => ∃ k, k ≤ 15 ∧ EncCoding e' ∧ e'.a.toNat ≤ 0xFFFF ∧ e'.a.toNat = width * 2 ^ k ∧
        codeValue e' = (codeValue e + base) * 2 ^ k ∧
        8 * (codeBytes e').length + e.ct.toNat = 8 * (codeBytes e).length + e'.ct.toNat + k ∧
        e'.ph = e.ph ∧ e'.out = e.out ∧ Grows e.obuf e'.obuf ∧ e'.idx = e1.idx ∧ e'.mps = e1.mps ∧
        (Fits cap e.obuf → Fits cap e'.obuf))
      (Stopped cap e) := by
  refine (renormE_ends cap 15 h.opened (by rw [h.a]; omega)).imp ?_ ?_
  · rintro e' ⟨k, hk, hs, ha, hfit⟩
    refine ⟨k, hk, hs.opened.coding ha, hs.opened.aHigh, by rw [hs.a, h.a], by rw [hs.value, h.value], ?_,
      hs.same.ph.trans h.ph, hs.same.out.trans h.out, h.obuf ▸ hs.same.grows, hs.same.idx, hs.same.mps,
      h.obuf ▸ hfit⟩
    have := hs.place
    rw [h.bytes, h.ct] at this
    exact this
  · intro e' he'
    exact he'.of_grows (h.obuf ▸ .refl _) h.out (h.obuf ▸ id)

/-- The upper sub-interval, with any new context (R62, R63). -/
theorem narrowed_upper {cfg : Config} {e : Enc} (hok : cfg.ok = true) (h : EncCoding e) (idx : TableIndex)
    (mps : Bool) :
    Narrowed (lowWidth cfg e) (qe cfg e.idx).toNat e
      { takeUpper (qe cfg e.idx) { e with a := e.a - qeWide (qe cfg e.idx) } with idx := idx, mps := mps } := by
  obtain ⟨hq1, hq2⟩ := qe_bounds hok e.idx
  have haL := h.aLow
  have hcb := code_bound h
  have hlow : (e.a - qeWide (qe cfg e.idx)).toNat = lowWidth cfg e := sub_qeWide_toNat (by omega)
  have hlw : lowWidth cfg e = e.a.toNat - (qe cfg e.idx).toNat := rfl
  refine narrowed_of h (by omega) (by omega) (qeWide_toNat _) ?_ rfl rfl rfl rfl rfl
  show (e.c + (e.a - qeWide (qe cfg e.idx)).setWidth 32).toNat = _
  rw [add_code_toNat (by omega), hlow]

/-- The lower sub-interval, with any new context (R62, R63). -/
theorem narrowed_lower {cfg : Config} {e : Enc} (hok : cfg.ok = true) (h : EncCoding e) (idx : TableIndex)
    (mps : Bool) :
    Narrowed 0 (lowWidth cfg e) e { e with a := e.a - qeWide (qe cfg e.idx), idx := idx, mps := mps } := by
  obtain ⟨hq1, hq2⟩ := qe_bounds hok e.idx
  have haL := h.aLow
  have haH := h.aHigh
  have hlow : (e.a - qeWide (qe cfg e.idx)).toNat = lowWidth cfg e := sub_qeWide_toNat (by omega)
  have hlw : lowWidth cfg e = e.a.toNat - (qe cfg e.idx).toNat := rfl
  exact narrowed_of h (by omega) (by omega) hlow rfl rfl rfl rfl rfl rfl

/-- The coding of one bit (R61 to R65), all it can do. -/
theorem encodeBit_ends {cfg : Config} (d : Bool) {e : Enc} (hok : cfg.ok = true) (h : EncCoding e) :
    (encodeBit cfg d e).Ends
      (fun e' => ∃ k, BitCoded cfg d k e e' ∧ (Fits cfg.outCap e.obuf → Fits cfg.outCap e'.obuf))
      (Stopped cfg.outCap e) := by
  obtain ⟨hq1, hq2⟩ := qe_bounds hok e.idx
  have haL := h.aLow
  have haH := h.aHigh
  have hcb := code_bound h
  have hlow : (e.a - qeWide (qe cfg e.idx)).toNat = lowWidth cfg e := sub_qeWide_toNat (by omega)
  have hlw : lowWidth cfg e = e.a.toNat - (qe cfg e.idx).toNat := rfl
  have hqw := qeWide_toNat (qe cfg e.idx)
  unfold encodeBit
  by_cases hd : d = e.mps
  · rw [if_pos hd]
    unfold codeMps
    simp only
    by_cases hfast : (0x8000 : BitVec 17) ≤ e.a - qeWide (qe cfg e.idx)
    · rw [if_pos hfast]
      have hfast' : 0x8000 ≤ lowWidth cfg e := by
        rw [BitVec.le_def, hlow] at hfast; exact hfast
      have hup : takesUpper cfg d e = false := by
        rw [takesUpper, if_pos hd]; simp; omega
      have hn := narrowed_lower hok h e.idx e.mps
      exact ⟨0, ⟨hn.opened.coding (by rw [hn.a]; exact hfast'), by omega, hn.opened.aHigh,
        by rw [hn.a, hup]; simp, by rw [hn.value, hup]; simp, rfl, rfl, rfl, .refl _,
        by rw [if_pos hd, if_pos hfast'], by rw [if_pos hd]⟩, id⟩
    · rw [if_neg hfast]
      have hfast' : lowWidth cfg e < 0x8000 := by
        rw [BitVec.le_def, hlow] at hfast; exact Nat.lt_of_not_le hfast
      by_cases hx : e.a - qeWide (qe cfg e.idx) < qeWide (qe cfg e.idx)
      · rw [if_pos hx]
        have hx' : lowWidth cfg e < (qe cfg e.idx).toNat := by
          rw [BitVec.lt_def, hlow, hqw] at hx; exact hx
        have hup : takesUpper cfg d e = true := by
          rw [takesUpper, if_pos hd]; simp; omega
        refine (renorm_narrowed (narrowed_upper hok h (nextMps cfg e.idx) e.mps) hq1).imp ?_ (fun _ h => h)
        · rintro e' ⟨k, hk, h1, h2, h3, h4, h5, h6, h7, h8, h9, h10, h11⟩
          exact ⟨k, ⟨h1, hk, h2, by rw [h3, hup]; rfl, by rw [h4, hup]; rfl, h5, h6, h7, h8,
            by rw [h9, if_pos hd, if_neg (by omega)], by rw [h10, if_pos hd]⟩, h11⟩
      · rw [if_neg hx]
        have hx' : (qe cfg e.idx).toNat ≤ lowWidth cfg e := by
          rw [BitVec.lt_def, hlow, hqw] at hx; omega
        have hup : takesUpper cfg d e = false := by
          rw [takesUpper, if_pos hd]; simp; omega
        refine (renorm_narrowed (narrowed_lower hok h (nextMps cfg e.idx) e.mps) (by omega)).imp ?_
          (fun _ h => h)
        rintro e' ⟨k, hk, h1, h2, h3, h4, h5, h6, h7, h8, h9, h10, h11⟩
        exact ⟨k, ⟨h1, hk, h2, by rw [h3, hup]; rfl, by rw [h4, hup]; rfl, h5, h6, h7, h8,
          by rw [h9, if_pos hd, if_neg (by omega)], by rw [h10, if_pos hd]⟩, h11⟩
  · rw [if_neg hd]
    unfold codeLps
    simp only
    by_cases hx : qeWide (qe cfg e.idx) ≤ e.a - qeWide (qe cfg e.idx)
    · rw [if_pos hx]
      have hx' : (qe cfg e.idx).toNat ≤ lowWidth cfg e := by
        rw [BitVec.le_def, hlow, hqw] at hx; exact hx
      have hup : takesUpper cfg d e = true := by
        rw [takesUpper, if_neg hd]; simpa using hx'
      refine (renorm_narrowed (narrowed_upper hok h (nextLps cfg e.idx) (mpsAfterLps cfg e.idx e.mps))
        hq1).imp ?_ (fun _ h => h)
      · rintro e' ⟨k, hk, h1, h2, h3, h4, h5, h6, h7, h8, h9, h10, h11⟩
        exact ⟨k, ⟨h1, hk, h2, by rw [h3, hup]; rfl, by rw [h4, hup]; rfl, h5, h6, h7, h8,
          by rw [h9, if_neg hd], by rw [h10, if_neg hd]⟩, h11⟩
    · rw [if_neg hx]
      have hx' : lowWidth cfg e < (qe cfg e.idx).toNat := by
        rw [BitVec.le_def, hlow, hqw] at hx; omega
      have hup : takesUpper cfg d e = false := by
        rw [takesUpper, if_neg hd]; simpa using hx'
      refine (renorm_narrowed (narrowed_lower hok h (nextLps cfg e.idx) (mpsAfterLps cfg e.idx e.mps))
        (by omega)).imp ?_ (fun _ h => h)
      rintro e' ⟨k, hk, h1, h2, h3, h4, h5, h6, h7, h8, h9, h10, h11⟩
      exact ⟨k, ⟨h1, hk, h2, by rw [h3, hup]; rfl, by rw [h4, hup]; rfl, h5, h6, h7, h8,
        by rw [h9, if_neg hd], by rw [h10, if_neg hd]⟩, h11⟩

end Sys2Proof.Machine
end

