-- ==== Sys2Proof/Laws/Flush.lean ====
section
/-! SUPPORT. The flush (spec/41_encoder.md rules R67 to R70): the rounding to a code inside the final interval, the two
last BYTE_OUTs, and the trimming. -/

namespace Sys2Proof.Machine

/-! ### Trailing zero bytes -/

/-- Any byte sequence is a part that does not end in 0x00 followed by zero bytes (R70). -/
theorem exists_trailing_zeros (bytes : List Byte) :
    ∃ body n, bytes = body ++ List.replicate n 0x00 ∧ body.getLast? ≠ some 0x00 := by
  induction bytes using List.reverseRecOn with
  | nil => exact ⟨[], 0, rfl, by simp⟩
  | append_singleton init x ih =>
    by_cases hx : x = 0x00
    · obtain ⟨body, n, rfl, h⟩ := ih
      exact ⟨body, n + 1, by rw [hx, List.replicate_succ', List.append_assoc], h⟩
    · exact ⟨init ++ [x], 0, by simp, by simpa using hx⟩

theorem dropTrailingZeros_zeros (body : List Byte) (n : Nat) (h : body.getLast? ≠ some 0x00) :
    dropTrailingZeros (body ++ List.replicate n 0x00) = body := by
  unfold dropTrailingZeros
  rw [List.reverse_append, List.reverse_replicate]
  induction n with
  | zero =>
    obtain rfl | ⟨init, x, rfl⟩ := List.eq_nil_or_concat body
    · rfl
    · simpa using h
  | succ n ih => rw [List.replicate_succ, List.cons_append, List.dropWhile_cons_of_pos (by rfl)]; exact ih

theorem stuffed_of_append {xs ys : List Byte} (h : stuffed (xs ++ ys) = true) (hl : xs.getLast? ≠ some 0xFF) :
    stuffed xs = true := by
  induction xs with
  | nil => rfl
  | cons b rest ih =>
    cases rest with
    | nil => simpa using hl
    | cons c rest =>
      simp only [List.cons_append, stuffed_cons_cons, Bool.and_eq_true] at h ⊢
      exact ⟨h.1, ih h.2 (by simpa using hl)⟩

theorem stuffed_last {body : List Byte} {rest : List Byte} (h : stuffed (body ++ 0xFF :: rest) = true) :
    rest.head? = some 0x00 ∧ stuffed body = true := by
  induction body with
  | nil =>
    cases rest with
    | nil => exact absurd h (by decide)
    | cons c rest =>
      rw [List.nil_append, stuffed_cons_cons, Bool.and_eq_true] at h
      exact ⟨by simpa using h.1, rfl⟩
  | cons b body ih =>
    cases body with
    | nil =>
      rw [List.cons_append, List.nil_append, stuffed_cons_cons, Bool.and_eq_true] at h
      refine ⟨(ih h.2).1, ?_⟩
      have h1 : ((b != 0xFF) || ((0xFF : Byte) == 0x00)) = true := h.1
      rw [show ((0xFF : Byte) == 0x00) = false by decide, Bool.or_false] at h1
      exact h1
    | cons c body =>
      simp only [List.cons_append, stuffed_cons_cons, Bool.and_eq_true] at h ⊢
      have h2 := ih (by simpa using h.2)
      exact ⟨h2.1, h.1, h2.2⟩

/-- Trimming a well stuffed sequence takes away data bytes 0x00 only: destuffed, and with them put back, it is what it
was; and the result is well stuffed and not longer (R70, R72). -/
theorem trim_spec {bytes : List Byte} (h : stuffed bytes = true) :
    ∃ n, destuff bytes = destuff (trim bytes) ++ List.replicate n 0x00 ∧ stuffed (trim bytes) = true ∧
      (trim bytes).length ≤ bytes.length := by
  obtain ⟨body, n, rfl, hb⟩ := exists_trailing_zeros bytes
  unfold trim
  rw [dropTrailingZeros_zeros body n hb]
  have hzero : ∀ m, ∀ b ∈ List.replicate m (0x00 : Byte), b ≠ 0xFF := by
    intro m b hmem
    rw [(List.mem_replicate.mp hmem).2]; decide
  by_cases hff : body.getLast? = some 0xFF
  · rw [if_pos hff]
    obtain rfl | ⟨init, x, rfl⟩ := List.eq_nil_or_concat body
    · simp at hff
    · rw [List.concat_eq_append] at *
      obtain rfl : x = 0xFF := by simpa using hff
      rw [List.append_assoc, List.singleton_append] at h
      obtain ⟨h1, h2⟩ := stuffed_last h
      cases n with
      | zero => simp at h1
      | succ n =>
        refine ⟨n, ?_, ?_, by simp⟩
        · rw [List.append_assoc, List.append_assoc, destuff_append _ h2, destuff_append _ h2]
          simp only [List.replicate_succ, destuff_cons_cons, if_pos, destuff_nil,
            destuff_of_forall (hzero n), List.append_assoc, List.cons_append, List.nil_append]
        · rw [List.append_assoc]
          exact stuffed_append h2 (by decide)
  · rw [if_neg hff]
    have hs := stuffed_of_append h hff
    exact ⟨n, by rw [destuff_append _ hs, destuff_of_forall (hzero n)], hs, by simp⟩

/-! ### The rounding -/

theorem maskHigh_toNat (x : BitVec 32) : (x &&& 0xFFFF0000).toNat = x.toNat / 2 ^ 16 * 2 ^ 16 := by
  have h : x &&& (0xFFFF0000 : BitVec 32) = (x >>> 16) <<< 16 := by
    apply BitVec.eq_of_getLsbD_eq
    intro i hi
    simp only [BitVec.getLsbD_and, BitVec.getLsbD_shiftLeft, BitVec.getLsbD_ushiftRight]
    interval_cases i <;> simp
  rw [h, BitVec.toNat_shiftLeft, BitVec.toNat_ushiftRight, Nat.shiftLeft_eq, Nat.shiftRight_eq_div_pow]
  have := x.isLt
  omega

/-- CLEAR_FINAL_BITS: a multiple of 0x8000 inside the final interval (R68). -/
theorem clearFinalBits_spec {e : Enc} (hlow : 0x8000 ≤ e.a.toNat) (hc : e.c.toNat + e.a.toNat < 2 ^ 31) :
    e.c.toNat ≤ (clearFinalBits e).c.toNat ∧ (clearFinalBits e).c.toNat < e.c.toNat + e.a.toNat ∧
      (clearFinalBits e).c.toNat % 2 ^ 15 = 0 := by
  have hsum : (e.c + e.a.setWidth 32 - 1).toNat = e.c.toNat + e.a.toNat - 1 := by
    have h1 : (e.c + e.a.setWidth 32).toNat = e.c.toNat + e.a.toNat := add_code_toNat (by omega)
    rw [BitVec.toNat_sub_of_le (by rw [BitVec.le_def, h1]; simp; omega), h1]; rfl
  have ht : ((e.c + e.a.setWidth 32 - 1) &&& 0xFFFF0000).toNat =
      (e.c.toNat + e.a.toNat - 1) / 2 ^ 16 * 2 ^ 16 := by rw [maskHigh_toNat, hsum]
  unfold clearFinalBits
  generalize hg : (e.c + e.a.setWidth 32 - 1) &&& 0xFFFF0000 = t at ht
  simp only
  split
  next hlt =>
    rw [BitVec.lt_def, ht] at hlt
    have h2 : (t + 0x8000).toNat = t.toNat + 0x8000 := by
      rw [BitVec.toNat_add, show (0x8000 : BitVec 32).toNat = 0x8000 from rfl]; omega
    rw [h2, ht]; omega
  next hge =>
    rw [BitVec.lt_def, ht] at hge
    rw [ht]; omega

/-! ### The flush -/

/-- `e'` is the encoder `e` after a completed flush. -/
structure Flushed (e e' : Enc) : Prop where
  done : EncDone e'
  ph : e'.ph = .done
  a : e'.a = e.a
  ct : e'.ct = e.ct
  idx : e'.idx = e.idx
  mps : e'.mps = e.mps
  grows : Grows e.obuf e'.obuf
  length : (destuff e'.obuf.tail).length = (codeBytes e).length + 2
  code : ∃ code, codeValue e ≤ code ∧ code < codeValue e + e.a.toNat ∧
    bytesValue (destuff e'.obuf.tail) * 2 ^ (27 - e.ct.toNat) = code * 2 ^ 16

theorem shiftBy_toNat (c : BitVec 32) (k : Nat) (h : c.toNat * 2 ^ k < 2 ^ 32) :
    (c <<< k).toNat = c.toNat * 2 ^ k := by
  rw [BitVec.toNat_shiftLeft, Nat.shiftLeft_eq, Nat.mod_eq_of_lt h]

/-- The second BYTE_OUT of a flush always finds a byte other than 0xFF, without a carry (R69): it appends it, drains
`E.ST`, and leaves `E.C` at 0. -/
theorem second_byteOut {e : Enc} (hc : e.c.toNat < 2 ^ 27) (hm : e.c.toNat % 2 ^ 24 = 0) :
    (afterByteOut e).st = 0 ∧ (afterByteOut e).c = 0 := by
  have ht : (e.c >>> 19).toNat = e.c.toNat / 2 ^ 19 := shiftCode_toNat e.c
  have hcarry : ¬(0xFF : BitVec 32) < e.c >>> 19 := by
    rw [BitVec.lt_def, ht]; simp; omega
  have hff : e.c >>> 19 ≠ 0xFF := by
    intro h
    have := congrArg BitVec.toNat h
    rw [ht] at this
    simp at this; omega
  refine ⟨?_, BitVec.eq_of_toNat_eq ?_⟩
  · show (emitted (e.c >>> 19) e).2 = 0
    rw [emitted, if_neg hcarry, if_neg hff]
  · show (e.c &&& 0x7FFFF).toNat = 0
    rw [maskCode_toNat]; omega

/-- The flush of an open operation (R67), all it can do. -/
theorem flushRun_ends (cap : Option Nat) {e : Enc} (h : EncCoding e) :
    (flushRun cap e).Ends (fun e' => Flushed e e' ∧ e'.out = trim e'.obuf.tail ∧ (Fits cap e.obuf → Fits cap e'.obuf))
      (Stopped cap e) := by
  have hcb := code_bound h
  obtain ⟨hlo, hhi, hmod⟩ := clearFinalBits_spec h.aLow (by omega)
  have hct := h.ctLow
  have hcth := h.ctHigh
  obtain ⟨T, hT⟩ : ∃ T, (clearFinalBits e).c.toNat = T := ⟨_, rfl⟩
  rw [hT] at hlo hhi hmod
  have hbound : T * 2 ^ e.ct.toNat < 0x9000000 := by
    by_cases h9 : 9 ≤ e.ct.toNat
    · have := h.unspent (h.early h9).1
      interval_cases e.ct.toNat <;> omega
    · have := h.window (by omega)
      interval_cases e.ct.toNat <;> omega
  have hfresh : e.obuf = [0x00] → T * 2 ^ e.ct.toNat < 0x8000000 := by
    intro hf
    have := h.unspent hf
    interval_cases e.ct.toNat <;> omega
  have hmod2 : T * 2 ^ e.ct.toNat % 2 ^ 16 = 0 := by
    interval_cases e.ct.toNat <;> omega
  obtain ⟨e1, he1⟩ : ∃ e1, { clearFinalBits e with c := (clearFinalBits e).c <<< (clearFinalBits e).ct.toNat } = e1 :=
    ⟨_, rfl⟩
  have hc1 : e1.c.toNat = T * 2 ^ e.ct.toNat := by
    rw [← he1]
    show ((clearFinalBits e).c <<< e.ct.toNat).toNat = _
    rw [shiftBy_toNat _ _ (by rw [hT]; omega), hT]
  have hbuf1 : e1.obuf = e.obuf := by rw [← he1]; rfl
  have hst1 : e1.st = e.st := by rw [← he1]; rfl
  obtain ⟨p1, p2, p3, p4, p5⟩ := afterByteOut_spec (e := e1) (by rw [hbuf1]; exact h.buffer)
    (by rw [hc1]; exact hbound) (by rw [hbuf1, hc1]; exact hfresh)
  obtain ⟨e2, he2⟩ : ∃ e2, { afterByteOut e1 with c := (afterByteOut e1).c <<< 8 } = e2 := ⟨_, rfl⟩
  have hc2 : e2.c.toNat = (afterByteOut e1).c.toNat * 2 ^ 8 := by
    rw [← he2]; exact shiftBy_toNat _ 8 (by omega)
  have hbuf2 : e2.obuf = (afterByteOut e1).obuf := by rw [← he2]
  have hst2 : e2.st = (afterByteOut e1).st := by rw [← he2]
  have hm2 : (afterByteOut e1).c.toNat % 2 ^ 16 = 0 := by
    have : (afterByteOut e1).c.toNat = e1.c.toNat % 2 ^ 19 := maskCode_toNat e1.c
    omega
  obtain ⟨q1, -, q3, q4, -⟩ := afterByteOut_spec (e := e2) (by rw [hbuf2]; exact p1)
    (by rw [hc2]; omega) (fun _ => by rw [hc2]; omega)
  obtain ⟨r1, r2⟩ := second_byteOut (e := e2) (by rw [hc2]; omega)
    (by rw [hc2]; omega)
  have hg1 : Grows e.obuf e2.obuf := by
    rw [hbuf2, ← hbuf1]; exact emitted_grows _ e1
  have hg2 : Grows e.obuf (afterByteOut e2).obuf := hg1.trans (emitted_grows _ e2)
  have hcb2 : codeBytes (afterByteOut e2) = destuff (afterByteOut e2).obuf.tail := by
    rw [codeBytes, r1]; simp
  have hcb21 : codeBytes e2 = codeBytes (afterByteOut e1) := codeBytes_congr hbuf2 hst2
  have hcb10 : codeBytes e1 = codeBytes e := codeBytes_congr hbuf1 hst1
  unfold flushRun
  simp only [he1]
  refine ((byteOut_ends cap e1).imp (fun _ h => h) ?_).andThen ?_
  · intro e' he'
    exact he'.of_grows (hbuf1 ▸ .refl _) (by rw [← he1]; rfl) (hbuf1 ▸ id)
  rintro _ ⟨rfl, hfit1⟩
  rw [hbuf1] at hfit1
  simp only [he2]
  have hout2 : e2.out = e.out := by rw [← he2, ← he1]; rfl
  have hfit2 : Fits cap e.obuf → Fits cap e2.obuf := by rw [hbuf2]; exact hfit1
  refine ((byteOut_ends cap e2).imp (fun _ h => h) ?_).andThen ?_
  · intro e' he'
    exact he'.of_grows hg1 hout2 hfit2
  rintro _ ⟨rfl, hfit3⟩
  refine ⟨⟨⟨r1, r2, q1.placeholder, q1.stuffed, rfl⟩, rfl, ?_, ?_, ?_, ?_, hg2, ?_, ?_⟩, rfl,
    fun hf => hfit3 (hfit2 hf)⟩
  · show e2.a = e.a
    rw [← he2, ← he1]; rfl
  · show e2.ct = e.ct
    rw [← he2, ← he1]; rfl
  · show e2.idx = e.idx
    rw [← he2, ← he1]; rfl
  · show e2.mps = e.mps
    rw [← he2, ← he1]; rfl
  · show (destuff (afterByteOut e2).obuf.tail).length = _
    rw [← hcb2, q4, hcb21, p4, hcb10]
  · refine ⟨bytesValue (codeBytes e) * 2 ^ (27 - e.ct.toNat) + T, ?_, ?_, ?_⟩
    · rw [codeValue]; omega
    · rw [codeValue]; omega
    · show bytesValue (destuff (afterByteOut e2).obuf.tail) * 2 ^ (27 - e.ct.toNat) = _
      rw [← hcb2]
      have hz : (afterByteOut e2).c.toNat = 0 := by rw [r2]; rfl
      rw [hz, hcb21, hc2] at q3
      rw [hcb10, hc1] at p3
      generalize bytesValue (codeBytes (afterByteOut e2)) = V3 at *
      generalize bytesValue (codeBytes (afterByteOut e1)) = V2 at *
      generalize bytesValue (codeBytes e) = V at *
      generalize (afterByteOut e1).c.toNat = c2 at *
      have hsplit : 2 ^ (27 - e.ct.toNat) * 2 ^ e.ct.toNat = 2 ^ 27 := by rw [← pow_add]; congr 1; omega
      apply Nat.eq_of_mul_eq_mul_right (Nat.two_pow_pos e.ct.toNat)
      rw [Nat.mul_assoc, hsplit]
      calc V3 * 2 ^ 27 = (V3 * 2 ^ 19 + 0) * 2 ^ 8 := by ring
        _ = (V2 * 2 ^ 19 + c2) * 2 ^ 16 := by rw [q3]; ring
        _ = (V * 2 ^ 27 + T * 2 ^ e.ct.toNat) * 2 ^ 16 := by rw [p3]
        _ = (V * 2 ^ (27 - e.ct.toNat) + T) * 2 ^ 16 * 2 ^ e.ct.toNat := by rw [← hsplit]; ring

end Sys2Proof.Machine
end

