-- ==== Sys2Proof/Laws/PerInstr.lean ====
section
/-! SUPPORT. Statements made once for each command. RowMatch: the word of a legal command is one its own row of the
opcode table accepts (spec/30_encoding.md rules R41 to R45; spec/opcode_table.json). -/

namespace Sys2Proof.Laws.RowMatch

/-- A legal command's word is accepted by the row of its mnemonic, and by no row of another mnemonic. -/
def Statement (i : Instr) : Prop :=
  i.wf = true → (opcodeTable.filter fun row => row.accepts (encode i)).map OpcodeRow.mnemonic = [i.mnemonic]

theorem encInit : Statement .encInit := fun _ => by decide

theorem encBit (d : Bool) : Statement (.encBit d) := fun _ => by cases d <;> decide

theorem encFlush : Statement .encFlush := fun _ => by decide

theorem decInit (inp : List Byte) : Statement (.decInit inp) := fun _ => by
  show (opcodeTable.filter fun row => row.accepts 0x4000).map OpcodeRow.mnemonic = ["dec.init"]
  decide

theorem decBit : Statement .decBit := fun _ => by decide

theorem tblQe (s : BitVec 7) : Statement (.tblQe s) := by
  unfold Statement; revert s; decide +kernel

theorem tblNlps (s : BitVec 7) : Statement (.tblNlps s) := by
  unfold Statement; revert s; decide +kernel

theorem tblNmps (s : BitVec 7) : Statement (.tblNmps s) := by
  unfold Statement; revert s; decide +kernel

theorem tblSwitch (s : BitVec 7) : Statement (.tblSwitch s) := by
  unfold Statement; revert s; decide +kernel

end Sys2Proof.Laws.RowMatch
end

