-- ==== Sys2Proof/Laws/Step.lean ====
section
/-! SUPPORT. What a step can do, and what each command that reads its unit's registers can do, once for all the proofs
over steps and commands (spec/10_state.md rule R10, spec/60_exceptions.md rules R101 to R105). -/

namespace Sys2Proof.Machine

/-- A step that answers a next state does one of four things (R10, R102, R120). -/
theorem step_cases {s t : State} (h : step s = .next t) :
    (s.inputs = [] ∧ t = s) ∨
    (∃ rest, s.inputs = .reset :: rest ∧ t = platformReset { s with inputs := rest }) ∨
    (∃ w inp rest i, s.inputs = .command w inp :: rest ∧ decode w inp = .ok i ∧
      exec i { s with inputs := rest } = .next t) ∨
    ∃ w inp rest why, s.inputs = .command w inp :: rest ∧ decode w inp = .error why ∧
      t = respond .illegal 0 { s with inputs := rest } := by
  unfold step fetchInput at h
  match hi : s.inputs with
  | [] =>
    simp only [hi, Host.Outcome.next.injEq] at h
    exact .inl ⟨rfl, h.symm⟩
  | .reset :: rest =>
    simp only [hi, Host.Outcome.next.injEq] at h
    exact .inr (.inl ⟨rest, rfl, h.symm⟩)
  | .command w inp :: rest =>
    cases hd : decode w inp with
    | ok i =>
      simp only [hi, hd] at h
      exact .inr (.inr (.inl ⟨w, inp, rest, i, rfl, hd, h⟩))
    | error why =>
      simp only [hi, hd, refuse, Host.Outcome.next.injEq] at h
      exact .inr (.inr (.inr ⟨w, inp, rest, why, rfl, hd, h.symm⟩))

/-- An accessor always answers, with the row's value or ILLEGAL, and changes nothing (R52 to R55). -/
theorem tableRead_next (n : BitVec 7) (value : TableIndex → BitVec 32) (s : State) :
    ∃ st v, tableRead n value s = .next (respond st v s) := by
  unfold tableRead refuse
  split <;> exact ⟨_, _, rfl⟩

/-- How an accepted encoder command ends, for a procedure that has ended (R101, R104). -/
theorem endEncoder_cases {respondOk : State → State} {r : EncRun} {good bad : Enc → Prop} (s : State)
    (h : r.Ends good bad) :
    (∃ e, good e ∧ endEncoder respondOk r s = .next (respondOk { s with enc := e })) ∨
    ∃ e, bad e ∧ endEncoder respondOk r s = .next (respond .capacityExceeded 0 { s with enc := e }) := by
  obtain ⟨e, rfl, he⟩ | ⟨e, rfl, he⟩ := h.cases
  · exact .inl ⟨e, he, rfl⟩
  · exact .inr ⟨e, he, rfl⟩

/-- `enc.bit` in CODING, from a good encoder (R61, R104). -/
theorem execEncBit_coding {s : State} (d : Bool) (hok : s.cfg.ok = true) (h : EncCoding s.enc)
    (hph : s.enc.ph = .coding) :
    (∃ e k, BitCoded s.cfg d k s.enc e ∧ (Fits s.cfg.outCap s.enc.obuf → Fits s.cfg.outCap e.obuf) ∧
      execEncBit d s = .next (respond .ok 0 { s with enc := e })) ∨
    ∃ e, Stopped s.cfg.outCap s.enc e ∧
      execEncBit d s = .next (respond .capacityExceeded 0 { s with enc := e }) := by
  have hx : execEncBit d s = endEncoder (respond .ok 0) (encodeBit s.cfg d s.enc) s := by
    rw [execEncBit, hph]
  rw [hx]
  obtain ⟨e, ⟨k, hk, hf⟩, he⟩ | ⟨e, hs, he⟩ := endEncoder_cases (respondOk := respond .ok 0) s
    (encodeBit_ends d hok h)
  · exact .inl ⟨e, k, hk, hf, he⟩
  · exact .inr ⟨e, hs, he⟩

/-- `enc.flush` in CODING, from a good encoder (R67, R104). -/
theorem execEncFlush_coding {s : State} (h : EncCoding s.enc) (hph : s.enc.ph = .coding) :
    (∃ e, Flushed s.enc e ∧ e.out = trim e.obuf.tail ∧
      (Fits s.cfg.outCap s.enc.obuf → Fits s.cfg.outCap e.obuf) ∧
      execEncFlush s = .next (respondLength { s with enc := e })) ∨
    ∃ e, Stopped s.cfg.outCap s.enc e ∧
      execEncFlush s = .next (respond .capacityExceeded 0 { s with enc := e }) := by
  have hx : execEncFlush s = endEncoder respondLength (flushRun s.cfg.outCap s.enc) s := by
    rw [execEncFlush, hph]
  rw [hx]
  obtain ⟨e, ⟨h1, h2, h3⟩, he⟩ | ⟨e, hs, he⟩ := endEncoder_cases (respondOk := respondLength) s
    (flushRun_ends s.cfg.outCap h)
  · exact .inl ⟨e, h1, h2, h3, he⟩
  · exact .inr ⟨e, hs, he⟩

/-- `dec.bit` in DECODING, from a good decoder (R84, R88, R90). -/
theorem execDecBit_decoding {s : State} (hok : s.cfg.ok = true) (h : DecDecoding s.dec) (hph : s.dec.ph = .decoding)
    (hcur : s.dec.cur ≤ s.dec.inp.length) :
    ∃ d k, BitDecoded s.cfg k s.dec d ∧
      execDecBit s =
        .next (respond (statusD d) (bitValue (isLps s.cfg s.dec != s.dec.mps)) { s with dec := d }) := by
  obtain ⟨d, k, hd, hb⟩ := decodeBit_spec hok h hph hcur
  exact ⟨d, k, hb, by rw [execDecBit, hph]; simp only [hd]⟩

end Sys2Proof.Machine
end

