-- ==== Sys2Proof/Laws/Units.lean ====
section
/-! SUPPORT. Each command works on its own unit only: what it does is one change of that unit and one response, the same
in every state that agrees on the parameters and on that unit (spec/10_state.md rule R10, spec/20_memory.md rule R35). -/

namespace Sys2Proof.Machine

/-- `s` after an encoder command that left the encoder `e`, the free-value counter `f` and the response `r`. -/
def State.afterEnc (s : State) (e : Enc) (f : Nat) (r : Response) : State :=
  { s with enc := e, free := f, responses := s.responses ++ [r] }

/-- `s` after a decoder command that left the decoder `d` and the response `r`. -/
def State.afterDec (s : State) (d : Dec) (r : Response) : State :=
  { s with dec := d, responses := s.responses ++ [r] }

/-- `s` after an accessor that gave the response `r`. -/
def State.afterRom (s : State) (r : Response) : State :=
  { s with responses := s.responses ++ [r] }

@[simp] theorem afterEnc_cfg (s : State) (e : Enc) (f : Nat) (r : Response) : (s.afterEnc e f r).cfg = s.cfg := rfl
@[simp] theorem afterEnc_enc (s : State) (e : Enc) (f : Nat) (r : Response) : (s.afterEnc e f r).enc = e := rfl
@[simp] theorem afterEnc_dec (s : State) (e : Enc) (f : Nat) (r : Response) : (s.afterEnc e f r).dec = s.dec := rfl
@[simp] theorem afterEnc_inputs (s : State) (e : Enc) (f : Nat) (r : Response) :
    (s.afterEnc e f r).inputs = s.inputs := rfl
@[simp] theorem afterEnc_responses (s : State) (e : Enc) (f : Nat) (r : Response) :
    (s.afterEnc e f r).responses = s.responses ++ [r] := rfl
@[simp] theorem afterEnc_free (s : State) (e : Enc) (f : Nat) (r : Response) : (s.afterEnc e f r).free = f := rfl

@[simp] theorem afterDec_cfg (s : State) (d : Dec) (r : Response) : (s.afterDec d r).cfg = s.cfg := rfl
@[simp] theorem afterDec_enc (s : State) (d : Dec) (r : Response) : (s.afterDec d r).enc = s.enc := rfl
@[simp] theorem afterDec_dec (s : State) (d : Dec) (r : Response) : (s.afterDec d r).dec = d := rfl
@[simp] theorem afterDec_inputs (s : State) (d : Dec) (r : Response) : (s.afterDec d r).inputs = s.inputs := rfl
@[simp] theorem afterDec_responses (s : State) (d : Dec) (r : Response) :
    (s.afterDec d r).responses = s.responses ++ [r] := rfl
@[simp] theorem afterDec_free (s : State) (d : Dec) (r : Response) : (s.afterDec d r).free = s.free := rfl

@[simp] theorem afterRom_cfg (s : State) (r : Response) : (s.afterRom r).cfg = s.cfg := rfl
@[simp] theorem afterRom_enc (s : State) (r : Response) : (s.afterRom r).enc = s.enc := rfl
@[simp] theorem afterRom_dec (s : State) (r : Response) : (s.afterRom r).dec = s.dec := rfl
@[simp] theorem afterRom_inputs (s : State) (r : Response) : (s.afterRom r).inputs = s.inputs := rfl
@[simp] theorem afterRom_responses (s : State) (r : Response) : (s.afterRom r).responses = s.responses ++ [r] := rfl
@[simp] theorem afterRom_free (s : State) (r : Response) : (s.afterRom r).free = s.free := rfl

@[simp] theorem view_cfg (p : Platform) (e : Enc) (d : Dec) (f : Nat) : (p.view e d f).cfg = p.cfg.block := rfl
@[simp] theorem view_enc (p : Platform) (e : Enc) (d : Dec) (f : Nat) : (p.view e d f).enc = e := rfl
@[simp] theorem view_dec (p : Platform) (e : Enc) (d : Dec) (f : Nat) : (p.view e d f).dec = d := rfl
@[simp] theorem view_inputs (p : Platform) (e : Enc) (d : Dec) (f : Nat) : (p.view e d f).inputs = [] := rfl
@[simp] theorem view_responses (p : Platform) (e : Enc) (d : Dec) (f : Nat) : (p.view e d f).responses = [] := rfl
@[simp] theorem view_free (p : Platform) (e : Enc) (d : Dec) (f : Nat) : (p.view e d f).free = f := rfl

/-- The end of an encoder procedure that completes, for a response that depends on the encoder's output alone. -/
theorem endEncoder_local {ok : State → State} {run : EncRun} {s t : State}
    (hok : ∀ e, ∃ f r, ∀ u : State, u.free = s.free → ok { u with enc := e } = u.afterEnc e f r)
    (hx : endEncoder ok run s = .next t) :
    ∃ e f r, ∀ u : State, u.free = s.free → endEncoder ok run u = .next (u.afterEnc e f r) := by
  cases run with
  | finished e =>
    obtain ⟨f, r, h⟩ := hok e
    exact ⟨e, f, r, fun u hu => congrArg _ (h u hu)⟩
  | full e => exact ⟨e, s.free, ⟨.capacityExceeded, 0⟩, fun u hu => by rw [← hu]; rfl⟩
  | endless => cases hx

theorem respondLength_local (s : State) (e : Enc) :
    ∃ f r, ∀ u : State, u.free = s.free → respondLength { u with enc := e } = u.afterEnc e f r := by
  by_cases hl : e.out.length < 2 ^ 32
  · exact ⟨s.free, ⟨.ok, BitVec.ofNat 32 e.out.length⟩, fun u hu => by
      rw [respondLength, if_pos hl, ← hu]; rfl⟩
  · exact ⟨s.free + 1, ⟨.ok, Config.freeWord s.free⟩, fun u hu => by
      rw [respondLength, if_neg hl, ← hu]; rfl⟩

/-- An encoder command that answers does to every state with the same parameters, encoder and free-value counter what it
does to this one. -/
theorem exec_encoder_local {i : Instr} {s t : State} (hi : forEncoder i = true) (hx : exec i s = .next t) :
    ∃ e f r, ∀ u : State, u.cfg = s.cfg → u.enc = s.enc → u.free = s.free → exec i u = .next (u.afterEnc e f r) := by
  have refused : ∀ st, ∃ e f r, ∀ u : State, u.cfg = s.cfg → u.enc = s.enc → u.free = s.free →
      refuse st u = .next (u.afterEnc e f r) := fun st =>
    ⟨s.enc, s.free, ⟨st, 0⟩, fun u _ he hf => by rw [← he, ← hf]; rfl⟩
  cases i with
  | encInit =>
    cases hx
    exact ⟨_, _, ⟨.ok, 0⟩, fun u _ _ hf => by
      show execEncInit u = _
      unfold execEncInit
      rw [hf]
      rfl⟩
  | encBit d =>
    change execEncBit d s = _ at hx
    show ∃ e f r, ∀ u : State, u.cfg = s.cfg → u.enc = s.enc → u.free = s.free → execEncBit d u = _
    unfold execEncBit at hx ⊢
    cases hp : s.enc.ph with
    | coding =>
      rw [hp] at hx
      obtain ⟨e, f, r, h⟩ := endEncoder_local
        (fun e => ⟨s.free, ⟨.ok, 0⟩, fun u hu => by rw [← hu]; rfl⟩) hx
      exact ⟨e, f, r, fun u hc he hf => by rw [he, hp, hc]; exact h u hf⟩
    | idle =>
      obtain ⟨e, f, r, h⟩ := refused .notReady
      exact ⟨e, f, r, fun u hc he hf => by rw [he, hp]; exact h u hc he hf⟩
    | done =>
      obtain ⟨e, f, r, h⟩ := refused .notReady
      exact ⟨e, f, r, fun u hc he hf => by rw [he, hp]; exact h u hc he hf⟩
    | failed =>
      obtain ⟨e, f, r, h⟩ := refused .capacityExceeded
      exact ⟨e, f, r, fun u hc he hf => by rw [he, hp]; exact h u hc he hf⟩
  | encFlush =>
    change execEncFlush s = _ at hx
    show ∃ e f r, ∀ u : State, u.cfg = s.cfg → u.enc = s.enc → u.free = s.free → execEncFlush u = _
    unfold execEncFlush at hx ⊢
    cases hp : s.enc.ph with
    | coding =>
      rw [hp] at hx
      obtain ⟨e, f, r, h⟩ := endEncoder_local (respondLength_local s) hx
      exact ⟨e, f, r, fun u hc he hf => by rw [he, hp, hc]; exact h u hf⟩
    | idle =>
      obtain ⟨e, f, r, h⟩ := refused .notReady
      exact ⟨e, f, r, fun u hc he hf => by rw [he, hp]; exact h u hc he hf⟩
    | done =>
      obtain ⟨e, f, r, h⟩ := refused .notReady
      exact ⟨e, f, r, fun u hc he hf => by rw [he, hp]; exact h u hc he hf⟩
    | failed =>
      obtain ⟨e, f, r, h⟩ := refused .capacityExceeded
      exact ⟨e, f, r, fun u hc he hf => by rw [he, hp]; exact h u hc he hf⟩
  | decInit _ => cases hi
  | decBit => cases hi
  | tblQe _ => cases hi
  | tblNlps _ => cases hi
  | tblNmps _ => cases hi
  | tblSwitch _ => cases hi

/-- A decoder command that answers does to every state with the same parameters and decoder what it does to this one. -/
theorem exec_decoder_local {i : Instr} {s t : State} (hi : forDecoder i = true) (hx : exec i s = .next t) :
    ∃ d r, ∀ u : State, u.cfg = s.cfg → u.dec = s.dec → exec i u = .next (u.afterDec d r) := by
  cases i with
  | decInit inp => exact ⟨initDecoder inp, ⟨statusD (initDecoder inp), 0⟩, fun _ _ _ => rfl⟩
  | decBit =>
    change execDecBit s = _ at hx
    show ∃ d r, ∀ u : State, u.cfg = s.cfg → u.dec = s.dec → execDecBit u = _
    unfold execDecBit at hx ⊢
    cases hp : s.dec.ph with
    | decoding =>
      rw [hp] at hx
      cases hd : decodeBit s.cfg s.dec with
      | some b => exact ⟨b.2, ⟨statusD b.2, bitValue b.1⟩, fun u hc he => by
        have hu : decodeBit u.cfg u.dec = some b := by rw [hc, he]; exact hd
        rw [show u.dec.ph = .decoding by rw [he]; exact hp]
        simp only [hu]
        rfl⟩
      | none => simp [hd] at hx
    | idle => exact ⟨s.dec, ⟨.notReady, 0⟩, fun u _ he => by rw [he, hp, ← he]; rfl⟩
    | failed => exact ⟨s.dec, ⟨.malformed, 0⟩, fun u _ he => by rw [he, hp, ← he]; rfl⟩
  | encInit => cases hi
  | encBit _ => cases hi
  | encFlush => cases hi
  | tblQe _ => cases hi
  | tblNlps _ => cases hi
  | tblNmps _ => cases hi
  | tblSwitch _ => cases hi

/-- An accessor gives the same response in every state with the same parameters (R38, R52 to R55). -/
theorem exec_rom_local {i : Instr} (cfg : Config) (he : forEncoder i = false) (hd : forDecoder i = false) :
    ∃ r, ∀ u : State, u.cfg = cfg → exec i u = .next (u.afterRom r) := by
  have read : ∀ (n : BitVec 7) (value : Config → TableIndex → BitVec 32),
      ∃ r, ∀ u : State, u.cfg = cfg → tableRead n (value u.cfg) u = .next (u.afterRom r) := fun n value => by
    cases hn : tableOperand n with
    | some idx => exact ⟨⟨.ok, value cfg idx⟩, fun u hu => by rw [tableRead, hn, hu]; rfl⟩
    | none => exact ⟨⟨.illegal, 0⟩, fun u _ => by rw [tableRead, hn]; rfl⟩
  cases i with
  | tblQe n => exact read n fun cfg idx => zext32 (qe cfg idx)
  | tblNlps n => exact read n fun cfg idx => indexValue (nextLps cfg idx)
  | tblNmps n => exact read n fun cfg idx => indexValue (nextMps cfg idx)
  | tblSwitch n => exact read n fun cfg idx => bitValue (switchMps cfg idx)
  | encInit => cases he
  | encBit _ => cases he
  | encFlush => cases he
  | decInit _ => cases hd
  | decBit => cases hd

/-- No command is both units'. -/
theorem forDecoder_of_forEncoder {i : Instr} (h : forEncoder i = true) : forDecoder i = false := by
  cases i <;> first | rfl | cases h

/-- `s` after the command `i`, which left its unit (the encoder `e` with the counter `f`, or the decoder `d`, or none)
and the response `r`. -/
def State.after (i : Instr) (e : Enc) (f : Nat) (d : Dec) (r : Response) (s : State) : State :=
  { s with
    enc := if forEncoder i then e else s.enc
    dec := if forDecoder i then d else s.dec
    responses := s.responses ++ [r]
    free := if forEncoder i then f else s.free }

/-- The state agrees with another on the parameters and on the unit of the command. -/
def SameUnit (i : Instr) (s u : State) : Prop :=
  u.cfg = s.cfg ∧ (forEncoder i = true → u.enc = s.enc ∧ u.free = s.free) ∧ (forDecoder i = true → u.dec = s.dec)

/-- All that a command which answers can do, for every command at once: one change of its own unit and one response, the
same from every state that agrees on the parameters and on that unit. -/
theorem exec_local {i : Instr} {s t : State} (hx : exec i s = .next t) :
    ∃ e f d r, ∀ u, SameUnit i s u → exec i u = .next (u.after i e f d r) := by
  cases hei : forEncoder i with
  | true =>
    obtain ⟨e, f, r, h⟩ := exec_encoder_local hei hx
    refine ⟨e, f, s.dec, r, fun u hu => ?_⟩
    rw [h u hu.1 (hu.2.1 hei).1 (hu.2.1 hei).2, State.after, hei, forDecoder_of_forEncoder hei]
    rfl
  | false =>
    cases hdi : forDecoder i with
    | true =>
      obtain ⟨d, r, h⟩ := exec_decoder_local hdi hx
      refine ⟨s.enc, s.free, d, r, fun u hu => ?_⟩
      rw [h u hu.1 (hu.2.2 hdi), State.after, hei, hdi]
      rfl
    | false =>
      obtain ⟨r, h⟩ := exec_rom_local s.cfg hei hdi
      refine ⟨s.enc, s.free, s.dec, r, fun u hu => ?_⟩
      rw [h u hu.1, State.after, hei, hdi]
      rfl

/-- Which unit of a platform a command runs on, and which unit of the block, say the same. -/
theorem unitOf_cases (k : Nat) (i : Instr) :
    (forEncoder i = true ∧ forDecoder i = false ∧ unitOf k i = .encoder k) ∨
    (forEncoder i = false ∧ forDecoder i = true ∧ unitOf k i = .decoder k) ∨
    (forEncoder i = false ∧ forDecoder i = false ∧ unitOf k i = .rom) := by
  cases i <;> simp [forEncoder, forDecoder, unitOf]

theorem SameUnit.refl (i : Instr) (s : State) : SameUnit i s s := ⟨rfl, fun _ => ⟨rfl, rfl⟩, fun _ => rfl⟩

/-- A command of another unit leaves a command's own unit alone. -/
theorem SameUnit.after {i j : Instr} (e : Enc) (f : Nat) (d : Dec) (r : Response) (s : State)
    (he : forEncoder i = false ∨ forEncoder j = false) (hd : forDecoder i = false ∨ forDecoder j = false) :
    SameUnit i s (s.after j e f d r) ∧ SameUnit i (s.after j e f d r) s := by
  have h1 : forEncoder i = true → forEncoder j = false := fun h => he.resolve_left (by rw [h]; decide)
  have h2 : forDecoder i = true → forDecoder j = false := fun h => hd.resolve_left (by rw [h]; decide)
  refine ⟨⟨rfl, fun h => ?_, fun h => ?_⟩, ⟨rfl, fun h => ?_, fun h => ?_⟩⟩
  · simp [State.after, h1 h]
  · simp [State.after, h2 h]
  · simp [State.after, h1 h]
  · simp [State.after, h2 h]

end Sys2Proof.Machine
end

