-- ==== Sys2Proof/Tests/Slice0.lean ====
section
/-! SUPPORT. The model's own tests: ill-formed terms refused, words written out from the spec's encoding, one step of
each command with the values of spec/95_test_vectors.md, and for each statement with hypotheses a state and operands
that meet them all. -/

namespace Sys2Proof.Tests

open Sys2Proof.Machine

/-! ### Small states and observations -/

/-- The state after reset with these encoder registers in CODING. -/
def coding (a : BitVec 17) (c : BitVec 32) (ct : BitVec 4) (st : Nat) (idx : TableIndex) (mps : Bool)
    (obuf : List Byte) : State :=
  { State.reset with
    enc := { ph := .coding, a := a, c := c, ct := ct, st := st, idx := idx, mps := mps, obuf := obuf, out := [] } }

/-- The state after reset with these decoder registers in DECODING, and nothing pending. -/
def decoding (a c : BitVec 16) (avail cur : Nat) (inp : List Byte) (idx : TableIndex) (mps : Bool) : State :=
  { State.reset with
    dec :=
      { ph := .decoding, a := a, c := c, d := 0, ct := 0, avail := avail, cur := cur, inp := inp, idx := idx,
        mps := mps } }

/-- The state with the capacity of the buffer set. -/
def capped (n : Nat) (s : State) : State := { s with cfg := { s.cfg with outCap := some n } }

/-- The outcome is a next state for which the check holds. -/
def goesTo (o : Host.Outcome State Fault Refusal) (check : State → Bool) : Bool :=
  match o with
  | .next t => check t
  | .fault _ => false
  | .refused _ => false

theorem goesTo_exists {o : Host.Outcome State Fault Refusal} {check : State → Bool} (h : goesTo o check = true) :
    ∃ t, o = .next t ∧ check t = true := by
  cases o with
  | next t => exact ⟨t, rfl, h⟩
  | fault f => cases h
  | refused r => cases h

/-- The last response given. -/
def said (t : State) (st : Status) (v : BitVec 32) : Bool := t.responses.getLast? == some ⟨st, v⟩

/-- What an issued command does, as the next step. -/
def stepOn (w : Nat) (s : State) (check : State → Bool) : Bool := goesTo (step (s.withFetchWord 16 w)) check

/-! ### Well-formedness: an ill-formed term for each check -/

theorem test_wf_qe_113_refused : (Instr.tblQe 113).wf = false := by decide
theorem test_wf_nlps_113_refused : (Instr.tblNlps 113).wf = false := by decide
theorem test_wf_nmps_113_refused : (Instr.tblNmps 113).wf = false := by decide
theorem test_wf_switch_127_refused : (Instr.tblSwitch 127).wf = false := by decide
theorem test_wf_qe_112_accepted : (Instr.tblQe 112).wf = true := by decide

/-! ### Decoding: words written out bit by bit from R40 to R42 -/

theorem test_decode_encInit : decodeTableWord 16 0b0001000000000000 = some .encInit := by decide
theorem test_decode_encBit0 : decodeTableWord 16 0b0010000000000000 = some (.encBit false) := by decide
theorem test_decode_encBit1 : decodeTableWord 16 0b0010000000000001 = some (.encBit true) := by decide
theorem test_decode_encFlush : decodeTableWord 16 0b0011000000000000 = some .encFlush := by decide
theorem test_decode_decInit : decode 0b0100000000000000 [0x12, 0x34] = .ok (.decInit [0x12, 0x34]) := by rfl
theorem test_decode_decInit_table : decodeTableWord 16 0b0100000000000000 = some (.decInit []) := by decide
theorem test_decode_decBit : decodeTableWord 16 0b0101000000000000 = some .decBit := by decide
theorem test_decode_tblQe : decodeTableWord 16 0b1000000001010101 = some (.tblQe 85) := by decide
theorem test_decode_tblNlps : decodeTableWord 16 0b1001000000000001 = some (.tblNlps 1) := by decide
theorem test_decode_tblNmps : decodeTableWord 16 0b1010000000001101 = some (.tblNmps 13) := by decide
theorem test_decode_tblSwitch : decodeTableWord 16 0b1011000001110000 = some (.tblSwitch 112) := by decide

/-- The illegal words of L2.10, L2.3 and L2.1. -/
theorem test_decode_illegal_words :
    [0x0000, 0x1001, 0x2002, 0x2FFF, 0x5800, 0x6000, 0x8071, 0x807F, 0x8080, 0x9071, 0xC000, 0xFFFF].map
      (decodeTableWord 16) = List.replicate 12 none := by decide

theorem test_decode_reasons :
    decode 0x6000 [] = .error .opcode ∧ decode 0x1001 [] = .error .reservedBit ∧
      decode 0x8071 [] = .error .stateIndex := ⟨rfl, rfl, rfl⟩

/-- L2.10: a row of `opcodeTable` for each legal word shown there. -/
theorem test_opcode_table :
    [0x1000, 0x2001, 0x3000, 0x4000, 0x5000, 0x8070, 0x9070, 0xA00D, 0xB070].map
      (fun w => (opcodeTable.filter fun row => row.accepts w).map OpcodeRow.mnemonic) =
      [["enc.init"], ["enc.bit"], ["enc.flush"], ["dec.init"], ["dec.bit"], ["tbl.qe"], ["tbl.nlps"], ["tbl.nmps"],
        ["tbl.switch"]] := by decide

/-! ### The table (L2.1) -/

theorem test_tblQe_112 : stepOn 0x8070 State.reset (said · .ok 0x59EB) = true := by decide +kernel
theorem test_tblQe_113_illegal : stepOn 0x8071 State.reset (said · .illegal 0) = true := by decide +kernel
theorem test_tblNlps_15 : stepOn 0x900F State.reset (said · .ok 36) = true := by decide +kernel
theorem test_tblNmps_35 : stepOn 0xA023 State.reset (said · .ok 9) = true := by decide +kernel
theorem test_tblNmps_111 : stepOn 0xA06F State.reset (said · .ok 109) = true := by decide +kernel
theorem test_tblSwitch_14 : stepOn 0xB00E State.reset (said · .ok 1) = true := by decide +kernel
theorem test_tblSwitch_15 : stepOn 0xB00F State.reset (said · .ok 0) = true := by decide +kernel

/-! ### The encoder (L2.2 to L2.5) -/

/-- The encoder after `enc.init`. -/
def opened : State := coding 0x10000 0 11 0 0 false [0x00]

/-- After `enc.init; enc.bit 1` (L2.3). -/
def codedOne : State := coding 0xB43A 0x14BC6 10 0 1 true [0x00]

/-- Before the flush of `01100001`, with a byte in the buffer (L2.4). -/
def codedByte : State := coding 0xB064 0x7679C 8 0 81 true [0x00, 0x38]

/-- Before the flush of `10100` (L2.4). -/
def codedFF : State := coding 0xB5C2 0x7F4A3E 4 0 37 false [0x00]

/-- Before the flush of P5, one 0xFF stacked. -/
def stacked : State := coding 0xBC14 0x7AF80 8 1 97 false [0x00, 0xFB]

theorem test_encInit : stepOn 0x1000 codedFF (fun t =>
    t.enc.ph == .coding && t.enc.a == 0x10000 && t.enc.ct == 11 && t.enc.idx == 0 && t.enc.obuf == [0x00] &&
      said t .ok 0) = true := by decide +kernel

theorem test_encBit_lps_exchange_free : stepOn 0x2000 codedOne (fun t =>
    t.enc.a == 0x9618 && t.enc.c == 0x769E8 && t.enc.ct == 8 && t.enc.idx == 14 && t.enc.mps) = true := by
  decide +kernel

theorem test_encBit_byte_out : stepOn 0x2001 (coding 0x9A08 0xE371F8 1 0 80 true [0x00]) (fun t =>
    t.enc.a == 0xB064 && t.enc.c == 0x7679C && t.enc.ct == 8 && t.enc.idx == 81 && t.enc.obuf == [0x00, 0x38] &&
      said t .ok 0) = true := by decide +kernel

theorem test_encFlush_carry_over_stack : stepOn 0x3000 stacked (fun t =>
    t.enc.ph == .done && t.enc.c == 0 && t.enc.st == 0 && t.enc.obuf == [0x00, 0xFC, 0x00, 0x00, 0x00] &&
      t.enc.out == [0xFC] && said t .ok 1) = true := by decide +kernel

theorem test_encFlush_capacity : stepOn 0x3000 (capped 1 codedFF) (fun t =>
    t.enc.ph == .failed && t.enc.st == 1 && t.enc.obuf == [0x00, 0xFF] && said t .capacityExceeded 0) = true := by
  decide +kernel

/-! ### The decoder (L2.6, L2.7) -/

theorem test_decInit_stuffed : goesTo (exec (.decInit [0xFF, 0x00]) State.reset) (fun t =>
    t.dec.ph == .decoding && t.dec.c == 0xFF00 && t.dec.cur == 2 && t.dec.avail == 8 && said t .ok 0) = true := by
  decide +kernel

theorem test_decInit_malformed : goesTo (exec (.decInit [0x12, 0xFF, 0x01]) State.reset) (fun t =>
    t.dec.ph == .failed && t.dec.c == 0x1200 && t.dec.cur == 1 && said t .malformed 0) = true := by decide +kernel

theorem test_decBit_lps : stepOn 0x5000 (decoding 0 0xC000 8 1 [0xC0] 0 false) (fun t =>
    t.dec.a == 0xB43A && t.dec.c == 0x343A && t.dec.ct == 7 && t.dec.avail == 7 && t.dec.idx == 1 && t.dec.mps &&
      said t .ok 1) = true := by decide +kernel

theorem test_decBit_exhausted : stepOn 0x5000 (decoding 0xA5E3 0 0 0 [] 0 false) (fun t =>
    t.dec.a == 0x978C && t.dec.c == 0 && t.dec.ct == 7 && t.dec.idx == 1 && t.dec.mps && said t .exhausted 1) = true := by
  decide +kernel

/-! ### The interface and the host's side -/

theorem test_empty_step : step State.reset = .next State.reset := by rfl

theorem test_reset_input : goesTo (step { codedFF with inputs := [.reset] }) (fun t =>
    t.enc.ph == .idle && t.dec.ph == .idle && t.inputs == [] && t.responses == []) = true := by decide +kernel

/-- R4's default is one unit of each kind, and no platform has none. -/
theorem test_platform_counts :
    (Platform.reset defaultPlatformConfig).wf = true ∧ (PlatformConfig.mk defaultConfig 1 0).ok = false := by
  decide +kernel

theorem test_expand_byte_0x61 : (expandLine (.encByte 0x61)).map encode =
    [0x2000, 0x2001, 0x2001, 0x2000, 0x2000, 0x2000, 0x2000, 0x2001] := by decide

/-! ### Good states, for the witnesses below -/

theorem decoder_idle_good {s : State} (hok : s.cfg.ok = true) (hd : s.dec = Dec.reset)
    (hc : s.enc.ph = .coding → EncCoding s.enc) (hdone : s.enc.ph = .done → EncDone s.enc) : Inv s where
  table := hok
  coding := hc
  done := hdone
  decoding := fun h => by rw [hd] at h; cases h
  cursor := by rw [hd]; exact Nat.le_refl 0

theorem encoder_idle_good {s : State} (hok : s.cfg.ok = true) (he : s.enc = Enc.reset)
    (hd : s.dec.ph = .decoding → DecDecoding s.dec) (hcur : s.dec.cur ≤ s.dec.inp.length) : Inv s where
  table := hok
  coding := fun h => by rw [he] at h; cases h
  done := fun h => by rw [he] at h; cases h
  decoding := hd
  cursor := hcur

theorem good_reset : Inv State.reset :=
  encoder_idle_good defaultConfig_ok rfl (fun h => absurd h (by decide)) (by decide)

theorem good_opened : Inv opened :=
  decoder_idle_good defaultConfig_ok rfl (fun _ => {
    aLow := by decide, aHigh := by decide, fresh := fun _ => ⟨rfl, rfl, rfl, rfl, rfl, rfl, rfl⟩, ctLow := by decide
    ctHigh := by decide, early := fun _ => ⟨rfl, rfl⟩, unspent := by decide, window := by decide
    placeholder := rfl, lastByte := by decide, body := rfl }) (fun h => absurd h (by decide))

theorem good_codedOne : Inv codedOne :=
  decoder_idle_good defaultConfig_ok rfl (fun _ => {
    aLow := by decide, aHigh := by decide, fresh := fun h => absurd h (by decide), ctLow := by decide
    ctHigh := by decide, early := fun _ => ⟨rfl, rfl⟩, unspent := by decide, window := by decide
    placeholder := rfl, lastByte := by decide, body := rfl }) (fun h => absurd h (by decide))

theorem encCoding_codedFF : EncCoding codedFF.enc := {
    aLow := by decide, aHigh := by decide, fresh := fun h => absurd h (by decide), ctLow := by decide
    ctHigh := by decide, early := by decide, unspent := by decide, window := by decide
    placeholder := rfl, lastByte := by decide, body := rfl }

theorem good_codedFF : Inv codedFF :=
  decoder_idle_good defaultConfig_ok rfl (fun _ => encCoding_codedFF) (fun h => absurd h (by decide))

theorem good_cappedFF (n : Nat) : Inv (capped n codedFF) :=
  decoder_idle_good defaultConfig_ok rfl (fun _ => encCoding_codedFF) (fun h => absurd (show EncPhase.coding = .done from h) (by decide))

theorem good_stacked : Inv stacked :=
  decoder_idle_good defaultConfig_ok rfl (fun _ => {
    aLow := by decide, aHigh := by decide, fresh := fun h => absurd h (by decide), ctLow := by decide
    ctHigh := by decide, early := by decide, unspent := by decide, window := by decide
    placeholder := rfl, lastByte := by decide, body := by decide }) (fun h => absurd h (by decide))

theorem capped_within (m : Nat) : withinCapacity (capped m codedFF) := by
  intro n hn
  obtain rfl : m = n := by simpa [capped] using hn
  exact Nat.le_trans (show codedFF.enc.obuf.length ≤ 1 from Nat.le_refl 1) (Nat.le_add_left 1 m)

/-- After the flush of `10100`, `E.OUT = [FF 00]` (L2.4). -/
def done : State :=
  { State.reset with
    enc :=
      { ph := .done, a := 0xB5C2, c := 0, ct := 4, st := 0, idx := 37, mps := false,
        obuf := [0x00, 0xFF, 0x00, 0x00], out := [0xFF, 0x00] } }

theorem good_done : Inv done :=
  decoder_idle_good defaultConfig_ok rfl (fun h => absurd h (by decide)) (fun _ => {
    stacked := rfl, code := rfl, placeholder := rfl, stuffing := by decide, output := by decide })

/-- A platform of two encoders and one decoder, right after reset. -/
def twoEncoders : Platform := Platform.reset { block := defaultConfig, nEnc := 2, nDec := 1 }

/-- After `dec.init IN=[C0]` (L2.6): `D.A = 0` stands for 0x10000. -/
def primed : State := decoding 0 0xC000 8 1 [0xC0] 0 false

theorem good_primed : Inv primed :=
  encoder_idle_good defaultConfig_ok rfl (fun _ => {
    aRange := .inl rfl, fresh := fun _ => by decide, window := by decide, ctHigh := by decide, pending := by decide
    availHigh := by decide, real := by decide }) (by decide)

/-- After `dec.init IN=[]` and one `dec.bit` (L2.7): no real bit is left. -/
def exhausted : State := decoding 0xA5E3 0 0 0 [] 0 false

theorem good_exhausted : Inv exhausted :=
  encoder_idle_good defaultConfig_ok rfl (fun _ => {
    aRange := by decide, fresh := by decide, window := by decide, ctHigh := by decide, pending := by decide
    availHigh := by decide, real := by decide }) (by decide)

/-- Two real bytes in the window and a marker next on the wire: the refill of the next shift meets it. -/
def atMarker : State := decoding 0xA5E3 0x8012 16 2 [0x80, 0x12, 0xFF, 0xD9] 0 false

theorem good_atMarker : Inv atMarker :=
  encoder_idle_good defaultConfig_ok rfl (fun _ => {
    aRange := by decide, fresh := by decide, window := by decide, ctHigh := by decide, pending := by decide
    availHigh := by decide, real := by decide }) (by decide)

/-- Both units in FAILED. -/
def failedBoth : State :=
  { State.reset with enc := { Enc.reset with ph := .failed }, dec := { Dec.reset with ph := .failed } }

/-! ### A witness for each statement with hypotheses -/

theorem witness_DecodeOfEncodeIsTheCommand : (Instr.tblNmps 112).wf = true ∧ (Instr.decInit [0xFF]).wf = true := by decide

theorem witness_DecodedWordEncodesBack :
    decode 0xB070 [] = .ok (.tblSwitch 112) ∧ decode 0x4000 [0x01] = .ok (.decInit [0x01]) := ⟨rfl, rfl⟩

theorem witness_LegalWordsAreTheListed458 : (0 : BitVec 7) ≤ 112 ∧ (112 : BitVec 7) ≤ 112 := by decide

theorem witness_IllegalWordsAreRefused :
    ∃ (s : State) (rest : List Input), s.inputs = .command 0x8071 [] :: rest ∧
      (∃ why, decode 0x8071 [] = .error why) ∧ rest = .command 0x8070 [] :: [] ∧ decode 0x8070 [] = .ok (.tblQe 112) :=
  ⟨{ State.reset with inputs := [.command 0x8071 [], .command 0x8070 []] }, _, rfl, ⟨.stateIndex, rfl⟩, rfl, rfl⟩

theorem witness_StepRunsTheDecodedCommand :
    ∃ (s : State) (rest : List Input), s.inputs = .command 0x2001 [] :: rest ∧ decode 0x2001 [] = .ok (.encBit true) :=
  ⟨opened.withFetchWord 16 0x2001, [], rfl, rfl⟩

theorem witness_ResetAndIdleSteps :
    (∃ (s : State) (rest : List Input), s.inputs = .reset :: rest) ∧ State.reset.inputs = [] :=
  ⟨⟨{ State.reset with inputs := [.reset] }, [], rfl⟩, rfl⟩

/-- For the four statements about the accessors: both ends of the table, and the first and last index outside it. -/
theorem witness_tableReads :
    (0 : BitVec 7).toNat = (0 : TableIndex).val ∧ (112 : BitVec 7).toNat = (112 : TableIndex).val ∧
      112 < (113 : BitVec 7).toNat ∧ 112 < (127 : BitVec 7).toNat ∧ (0 : TableIndex) ≠ 13 ∧
      (0 : TableIndex).val ∉ [13, 35, 63, 79, 87, 94, 100, 104, 107, 109, 111, 112] := by decide

theorem witness_CommandsOutsideAnOperationAreNotReady :
    State.reset.enc.ph = .idle ∧ done.enc.ph = .done ∧ State.reset.dec.ph = .idle ∧ (112 : BitVec 7) ≤ 112 := by decide

theorem witness_FailedUnitsRefuseWithTheirStatus : failedBoth.enc.ph = .failed ∧ failedBoth.dec.ph = .failed := by decide

theorem witness_EncInitOpensAnOperation :
    ∃ t, failedBoth.enc.ph = .failed ∧ exec .encInit failedBoth = .next t ∧ t.enc.ph ≠ .failed :=
  ⟨_, rfl, rfl, by decide⟩

theorem witness_EncBitFastPathChangesOnlyA :
    opened.enc.ph = .coding ∧ 0x8000 + (qe opened.cfg opened.enc.idx).toNat ≤ opened.enc.a.toNat := by decide +kernel

/-- `opened` takes the lower part at `false` and the upper at `true`; L2.3 has the shifts. With the capacity 1 a bit of
`codedFF` does not fail. -/
theorem witness_EncBitIsExactIntervalCoding :
    (Inv opened ∧ opened.enc.ph = .coding ∧ opened.cfg.outCap = none) ∧
      (Inv (capped 1 codedFF) ∧ (capped 1 codedFF).enc.ph = .coding ∧
        ∃ t, exec (.encBit true) (capped 1 codedFF) = .next t ∧ t.enc.ph ≠ .failed) := by
  obtain ⟨t, h, hp⟩ := goesTo_exists (o := exec (.encBit true) (capped 1 codedFF))
    (check := fun t => t.enc.ph != .failed) (by decide +kernel)
  exact ⟨⟨good_opened, rfl, rfl⟩, good_cappedFF 1, rfl, t, h, by simpa using hp⟩

/-- Unbounded, and with the capacity 3, which the flush of `10100` just does not exceed (L2.5). -/
theorem witness_EncFlushClosesTheOperation :
    (Inv stacked ∧ stacked.enc.ph = .coding ∧ stacked.cfg.outCap = none) ∧
      (Inv (capped 3 codedFF) ∧ (capped 3 codedFF).enc.ph = .coding ∧
        ∃ t, exec .encFlush (capped 3 codedFF) = .next t ∧ t.enc.ph ≠ .failed) := by
  obtain ⟨t, h, hp⟩ := goesTo_exists (o := exec .encFlush (capped 3 codedFF))
    (check := fun t => t.enc.ph != .failed) (by decide +kernel)
  exact ⟨⟨good_stacked, rfl, rfl⟩, good_cappedFF 3, rfl, t, h, by simpa using hp⟩

theorem witness_FlushedCodeLiesInTheFinalInterval :
    ∃ t, Inv stacked ∧ stacked.enc.ph = .coding ∧ exec .encFlush stacked = .next t ∧ t.enc.ph = .done := by
  obtain ⟨t, h, hp⟩ := goesTo_exists (o := exec .encFlush stacked) (check := fun t => t.enc.ph == .done)
    (by decide +kernel)
  exact ⟨t, good_stacked, rfl, h, by simpa using hp⟩

theorem witness_TrimRemovesTrailingZeros :
    [0xFC].getLast? ≠ some (0x00 : Byte) ∧ [0xFF].getLast? ≠ some (0x00 : Byte) ∧
      ([] : List Byte).getLast? ≠ some 0x00 := by decide

theorem witness_FinishedOutputIsStuffed :
    Inv done ∧ hostReadOut done = some [0xFF, 0x00] ∧ ([0xFF, 0x00] : List Byte)[0]? = some 0xFF ∧
      ([0xFF, 0x00] : List Byte).getLast? = some 0x00 :=
  ⟨good_done, rfl, rfl, rfl⟩

/-- One command that fails on capacity (L2.5) and one that does not. -/
theorem witness_CapacityFailureEndsTheCommand :
    (∃ t, Inv (capped 1 codedFF) ∧ withinCapacity (capped 1 codedFF) ∧ (capped 1 codedFF).enc.ph = .coding ∧
      (capped 1 codedFF).cfg.outCap = some 1 ∧ exec .encFlush (capped 1 codedFF) = .next t ∧ t.enc.ph = .failed) ∧
    ∃ t, exec (.encBit true) (capped 1 codedFF) = .next t ∧ t.enc.ph ≠ .failed := by
  refine ⟨?_, ?_⟩
  · obtain ⟨t, h, hp⟩ := goesTo_exists (o := exec .encFlush (capped 1 codedFF)) (check := fun t => t.enc.ph == .failed)
      (by decide +kernel)
    exact ⟨t, good_cappedFF 1, capped_within 1, rfl, rfl, h, by simpa using hp⟩
  · obtain ⟨t, h, hp⟩ := goesTo_exists (o := exec (.encBit true) (capped 1 codedFF))
      (check := fun t => t.enc.ph != .failed) (by decide +kernel)
    exact ⟨t, h, by simpa using hp⟩

/-- The flush of `10100` leaves four bytes with the placeholder (L2.5): the capacity 3 fits, the capacity 2 does not. -/
theorem witness_CapacityOnlyDecidesFailure :
    Inv (capped 3 codedFF) ∧ withinCapacity (capped 3 codedFF) ∧ (capped 3 codedFF).cfg.outCap = some 3 ∧
      Inv (capped 2 codedFF) ∧ withinCapacity (capped 2 codedFF) ∧ (capped 2 codedFF).cfg.outCap = some 2 ∧
      ∃ t, exec .encFlush codedFF = .next t ∧ t.enc.obuf.length ≤ 3 + 1 ∧ 2 + 1 < t.enc.obuf.length := by
  obtain ⟨t, h, hp⟩ := goesTo_exists (o := exec .encFlush codedFF)
    (check := fun t => t.enc.obuf == [0x00, 0xFF, 0x00, 0x00]) (by decide +kernel)
  refine ⟨good_cappedFF 3, capped_within 3, rfl, good_cappedFF 2, capped_within 2, rfl, t, h, ?_⟩
  rw [eq_of_beq hp]
  decide

/-- A step that appends a byte and then fails at the next one. -/
theorem witness_BufferStaysWithinCapacity :
    ∃ t, withinCapacity ((capped 1 codedFF).withFetchWord 16 0x3000) ∧
      step ((capped 1 codedFF).withFetchWord 16 0x3000) = .next t ∧ t.enc.obuf = [0x00, 0xFF] := by
  obtain ⟨t, h, hp⟩ := goesTo_exists (o := step ((capped 1 codedFF).withFetchWord 16 0x3000))
    (check := fun t => t.enc.obuf == [0x00, 0xFF]) (by decide +kernel)
  exact ⟨t, capped_within 1, h, by simpa using hp⟩

theorem witness_UnboundedBufferNeverFails :
    ∃ t r, codedOne.cfg.outCap = none ∧ codedOne.enc.ph ≠ .failed ∧ step (codedOne.withFetchWord 16 0x3000) = .next t ∧
      t.responses = codedOne.responses ++ [r] := by
  obtain ⟨t, h, hp⟩ := goesTo_exists (o := step (codedOne.withFetchWord 16 0x3000))
    (check := fun t => t.responses == [⟨.ok, 1⟩]) (by decide +kernel)
  exact ⟨t, ⟨.ok, 1⟩, rfl, by decide, h, eq_of_beq hp⟩

/-- One decoder for each clause: the end of the input, FAILED, a plain byte, the stuffed pair, and 0xFF followed by
another byte or by nothing. -/
theorem witness_FetchReadsTheInput :
    exhausted.dec.inp.length ≤ exhausted.dec.cur ∧ failedBoth.dec.ph = .failed ∧
      (openDecoder [0x80]).inp[0]? = some 0x80 ∧
      ((openDecoder [0xFF, 0x00]).inp[0]? = some 0xFF ∧ (openDecoder [0xFF, 0x00]).inp[1]? = some 0x00) ∧
      ((openDecoder [0xFF, 0xD9]).inp[0]? = some 0xFF ∧ (openDecoder [0xFF, 0xD9]).inp[1]? ≠ some 0x00) ∧
      ((openDecoder [0xFF]).inp[0]? = some 0xFF ∧ (openDecoder [0xFF]).inp[1]? ≠ some 0x00) ∧
      (openDecoder [0xFF]).cur = 0 ∧ (openDecoder [0xFF]).ph ≠ .failed := by decide

theorem witness_DecBitFastPathChangesOnlyA :
    ∃ s : State, s.dec.ph = .decoding ∧ 0x8000 + (qe s.cfg s.dec.idx).toNat ≤ decWidth s.dec ∧
      s.dec.c.toNat < decWidth s.dec - (qe s.cfg s.dec.idx).toNat ∧
      decWidth s.dec - (qe s.cfg s.dec.idx).toNat < 0x10000 :=
  ⟨decoding 0 0x8000 8 1 [0x80] 0 false, by decide +kernel⟩

theorem witness_DecBitIsExactIntervalDecoding :
    (Inv primed ∧ primed.dec.ph = .decoding) ∧ (Inv atMarker ∧ atMarker.dec.ph = .decoding) :=
  ⟨⟨good_primed, rfl⟩, ⟨good_atMarker, rfl⟩⟩

/-- A bit that meets the marker, and one on clean input. -/
theorem witness_DecBitFailsOnlyAtAMarker :
    (∃ t, Inv atMarker ∧ atMarker.dec.ph = .decoding ∧ exec .decBit atMarker = .next t ∧ t.dec.ph = .failed) ∧
    (∃ t, Inv primed ∧ primed.dec.ph = .decoding ∧ exec .decBit primed = .next t ∧
      primed.dec.cur + wireLength (plainBytes (primed.dec.inp.drop primed.dec.cur)) = primed.dec.inp.length) := by
  refine ⟨?_, ?_⟩
  · obtain ⟨t, h, hp⟩ := goesTo_exists (o := exec .decBit atMarker) (check := fun t => t.dec.ph == .failed)
      (by decide +kernel)
    exact ⟨t, good_atMarker, rfl, h, by simpa using hp⟩
  · obtain ⟨t, h, -⟩ := goesTo_exists (o := exec .decBit primed) (check := fun _ => true) (by decide +kernel)
    exact ⟨t, good_primed, rfl, h, rfl⟩

theorem witness_ExhaustedDecoderGoesOnDecoding :
    Inv exhausted ∧ exhausted.dec.ph = .decoding ∧ exhausted.dec.avail = 0 := ⟨good_exhausted, rfl, rfl⟩

theorem witness_EveryStepKeepsTheInvariant :
    ∃ t, Inv (codedOne.withFetchWord 16 0x2000) ∧ step (codedOne.withFetchWord 16 0x2000) = .next t := by
  obtain ⟨t, h, -⟩ := goesTo_exists (o := step (codedOne.withFetchWord 16 0x2000)) (check := fun _ => true)
    (by decide +kernel)
  exact ⟨t, ⟨good_codedOne.table, good_codedOne.coding, good_codedOne.done, good_codedOne.decoding,
    good_codedOne.cursor⟩, h⟩

theorem witness_EveryRunFromTheInvariantIsSafe : Inv codedFF := good_codedFF

theorem witness_EveryCommandRespondsOnce :
    Inv codedFF ∧ (Instr.encBit true).wf = true ∧ Instr.encFlush.wf = true ∧ Inv primed ∧ Instr.decBit.wf = true ∧
      (Instr.tblQe 112).wf = true ∧ (112 : BitVec 7).toNat = (112 : TableIndex).val :=
  ⟨good_codedFF, rfl, rfl, good_primed, rfl, rfl, rfl⟩

/-- A command of each unit answers a next state. -/
theorem witness_CommandFrames :
    (∃ t, exec (.encBit false) codedOne = .next t) ∧ (∃ t, exec .encFlush codedOne = .next t) ∧
      (∃ t, exec .decBit primed = .next t) ∧ ∃ t, exec (.tblQe 0) codedOne = .next t := by
  refine ⟨?_, ?_, ?_, ?_⟩
  · obtain ⟨t, h, -⟩ := goesTo_exists (o := exec (.encBit false) codedOne) (check := fun _ => true) (by decide +kernel)
    exact ⟨t, h⟩
  · obtain ⟨t, h, -⟩ := goesTo_exists (o := exec .encFlush codedOne) (check := fun _ => true) (by decide +kernel)
    exact ⟨t, h⟩
  · obtain ⟨t, h, -⟩ := goesTo_exists (o := exec .decBit primed) (check := fun _ => true) (by decide +kernel)
    exact ⟨t, h⟩
  · exact ⟨_, rfl⟩

/-- Two states with the same encoder and different decoders, and the other way round. -/
theorem witness_UnitsDoNotReadEachOther :
    (∃ u s' : State, forEncoder (.encBit false) = true ∧ codedOne.cfg = u.cfg ∧ codedOne.enc = u.enc ∧
      codedOne.free = u.free ∧ codedOne.dec ≠ u.dec ∧ exec (.encBit false) codedOne = .next s') ∧
    (∃ u s' : State, forDecoder .decBit = true ∧ primed.cfg = u.cfg ∧ primed.dec = u.dec ∧ primed.enc ≠ u.enc ∧
      exec .decBit primed = .next s') := by
  obtain ⟨⟨t1, h1⟩, -, ⟨t2, h2⟩, -⟩ := witness_CommandFrames
  exact ⟨⟨{ codedOne with dec := primed.dec }, t1, rfl, rfl, rfl, rfl, by decide, h1⟩,
    ⟨{ primed with enc := codedOne.enc }, t2, rfl, rfl, rfl, by decide, h2⟩⟩

theorem witness_NoStepChangesTheTable :
    (∃ t, step (codedOne.withFetchWord 16 0x1000) = .next t) ∧
      ∃ (p1 : Platform) (r : Response), twoEncoders.issueTo 1 .encInit = some (r, p1) :=
  ⟨⟨_, rfl⟩, _, _, rfl⟩

/-- An event of each kind: a failure, a close, an opening. -/
theorem witness_PhasesChangeOnlyByTheListedEvents :
    (∃ t, exec .encFlush (capped 1 codedFF) = .next t ∧ t.enc.ph = .failed) ∧
      (∃ t, Inv stacked ∧ stacked.enc.ph = .coding ∧ exec .encFlush stacked = .next t ∧ t.enc.ph = .done) ∧
      (∃ t, exec .encInit State.reset = .next t ∧ t.enc.ph = .coding) ∧
      ∃ t, exec .decBit atMarker = .next t ∧ t.dec.ph = .failed := by
  obtain ⟨⟨t1, -, -, -, -, h1, h1'⟩, -⟩ := witness_CapacityFailureEndsTheCommand
  obtain ⟨t2, h2⟩ := witness_FlushedCodeLiesInTheFinalInterval
  obtain ⟨⟨t3, -, -, h3, h3'⟩, -⟩ := witness_DecBitFailsOnlyAtAMarker
  exact ⟨⟨t1, h1, h1'⟩, ⟨t2, h2⟩, ⟨_, rfl, rfl⟩, ⟨t3, h3, h3'⟩⟩

theorem witness_OnlyInitLeavesFailed :
    (∃ t, failedBoth.enc.ph = .failed ∧ failedBoth.dec.ph = .failed ∧ step failedBoth = .next t) ∧
      ∃ (s : State) (rest : List Input), s.inputs = .reset :: rest ∧ s.enc.ph = .failed :=
  ⟨⟨failedBoth, rfl, rfl, rfl⟩, ⟨{ failedBoth with inputs := [.reset] }, [], rfl, rfl⟩⟩

theorem witness_UnboundedEncodeSucceeds : State.reset.cfg.ok = true ∧ State.reset.cfg.outCap = none :=
  ⟨defaultConfig_ok, rfl⟩

theorem witness_EncodeIsDeterministic : codedFF.cfg = done.cfg ∧ codedFF ≠ done := ⟨rfl, by decide +kernel⟩

theorem witness_RoundTripRecoversEveryBitSequence :
    State.reset.cfg.ok = true ∧ State.reset.cfg.outCap = none ∧ done.cfg.probTable = State.reset.cfg.probTable :=
  ⟨defaultConfig_ok, rfl, rfl⟩

/-- `encode(1) = [C0]` (L2.9). -/
theorem witness_SelfTerminatingDecodeAgrees :
    ∃ t, State.reset.cfg.ok = true ∧ done.cfg.probTable = State.reset.cfg.probTable ∧
      hostEncode [true] State.reset = (.ok [0xC0], t) := by
  have h : (hostEncode [true] State.reset).1 = .ok [0xC0] := by decide +kernel
  exact ⟨(hostEncode [true] State.reset).2, defaultConfig_ok, rfl, Prod.ext h rfl⟩

theorem witness_DecodeStreamTerminates : State.reset.cfg.ok = true := defaultConfig_ok

theorem witness_RegroupingRecoversTheBytes : (List.replicate 7 true).length < 8 ∧ ([] : List Bool).length < 8 := by decide

/-- An encoder's and a decoder's command on one block; and on a platform, commands to two encoders and to an encoder
and a decoder. -/
theorem witness_InterleavingDoesNotMatter :
    (∃ t u : State, (forEncoder .encInit = false ∨ forEncoder .decBit = false) ∧
      (forDecoder .encInit = false ∨ forDecoder .decBit = false) ∧ exec .encInit State.reset = .next t ∧
      exec .decBit t = .next u) ∧
    (∃ (r1 r2 : Response) (p1 p2 : Platform), unitOf 0 .encInit ≠ unitOf 1 .encInit ∧
      twoEncoders.issueTo 0 .encInit = some (r1, p1) ∧ p1.issueTo 1 .encInit = some (r2, p2)) ∧
    ∃ (r1 r2 : Response) (p1 p2 : Platform), unitOf 0 .encInit ≠ unitOf 0 .decBit ∧
      twoEncoders.issueTo 0 .encInit = some (r1, p1) ∧ p1.issueTo 0 .decBit = some (r2, p2) :=
  ⟨⟨_, _, by decide, by decide, rfl, rfl⟩, ⟨_, _, _, _, by decide, rfl, rfl⟩, _, _, _, _, by decide, rfl, rfl⟩

theorem witness_EachUnitRunsAsIfAlone :
    ∃ rs p1, twoEncoders.issueAll [(0, .encInit), (1, .encInit), (0, .decBit), (0, .tblQe 0)] = some (rs, p1) :=
  ⟨_, _, rfl⟩

/-- Encoder 1 of a platform of two, its one decoder, and the ROM; a platform with no decoder 1 answers none there. -/
theorem witness_PlatformUnitsAreCopiesOfTheBlock :
    (∃ (u : EncUnit) (s t : State) (r : Response), unitOf 1 .encInit = .encoder 1 ∧ twoEncoders.encs[1]? = some u ∧
      s.cfg = twoEncoders.cfg.block ∧ s.enc = u.enc ∧ s.free = twoEncoders.freeAt 1 u ∧ issue .encInit s = .response r t) ∧
    (∃ (s t : State) (r : Response), unitOf 0 .decBit = .decoder 0 ∧ twoEncoders.decs[0]? = some s.dec ∧
      s.cfg = twoEncoders.cfg.block ∧ issue .decBit s = .response r t) ∧
    (∃ (s t : State) (r : Response), unitOf 0 (.tblQe 0) = .rom ∧ s.cfg = twoEncoders.cfg.block ∧
      issue (.tblQe 0) s = .response r t) ∧
    twoEncoders.wf = true ∧ twoEncoders.cfg.ok = true ∧ twoEncoders.issueTo 1 .decBit = none :=
  ⟨⟨⟨Enc.reset, 0⟩, { State.reset with free := 1 }, _, _, rfl, rfl, rfl, rfl, rfl, rfl⟩,
    ⟨State.reset, _, _, rfl, rfl, rfl, rfl⟩, ⟨State.reset, _, _, rfl, rfl, rfl⟩, by decide +kernel, by decide +kernel, rfl⟩

end Sys2Proof.Tests
end

section
/-! SUPPORT. The invariants of R26 and R27, unit by unit, and the step lemma: every command, and so every step, keeps
them (spec/10_state.md rules R22, R26, R27). -/

namespace Sys2Proof.Machine

/-! ### The invariant, unit by unit -/

/-- The encoder's part of `Inv` (R26, R69). -/
structure EncGood (e : Enc) : Prop where
  coding : e.ph = .coding → EncCoding e
  done : e.ph = .done → EncDone e

/-- The decoder's part of `Inv` (R22, R27). -/
structure DecGood (d : Dec) : Prop where
  decoding : d.ph = .decoding → DecDecoding d
  cursor : d.cur ≤ d.inp.length

theorem inv_iff {s : State} : Inv s ↔ s.cfg.ok = true ∧ EncGood s.enc ∧ DecGood s.dec :=
  ⟨fun h => ⟨h.table, ⟨h.coding, h.done⟩, ⟨h.decoding, h.cursor⟩⟩,
    fun ⟨htable, henc, hdec⟩ => ⟨htable, henc.coding, henc.done, hdec.decoding, hdec.cursor⟩⟩

theorem Inv.encGood {s : State} (h : Inv s) : EncGood s.enc := (inv_iff.mp h).2.1

theorem Inv.decGood {s : State} (h : Inv s) : DecGood s.dec := (inv_iff.mp h).2.2

/-- The invariants speak of the parameters and the units only; they follow from those of the units. -/
theorem Inv.of_units {s t : State} (h : Inv s) (hcfg : t.cfg = s.cfg) (henc : EncGood t.enc) (hdec : DecGood t.dec) :
    Inv t :=
  inv_iff.mpr ⟨hcfg ▸ h.table, henc, hdec⟩

theorem encGood_reset : EncGood Enc.reset := ⟨by simp [Enc.reset], by simp [Enc.reset]⟩

theorem decGood_reset : DecGood Dec.reset := ⟨by simp [Dec.reset], Nat.le_refl 0⟩

/-- An encoder that has failed on capacity owes nothing (R104). -/
theorem Stopped.encGood {cap : Option Nat} {e e' : Enc} (h : Stopped cap e e') : EncGood e' :=
  ⟨by simp [h.ph], by simp [h.ph]⟩

theorem BitCoded.encGood {cfg : Config} {d : Bool} {k : Nat} {e e' : Enc} (h : BitCoded cfg d k e e')
    (hph : e.ph = .coding) : EncGood e' :=
  ⟨fun _ => h.coding, by simp [h.ph, hph]⟩

theorem Flushed.encGood {e e' : Enc} (h : Flushed e e') : EncGood e' := ⟨by simp [h.ph], fun _ => h.done⟩

theorem BitDecoded.decGood {cfg : Config} {k : Nat} {d d' : Dec} (h : BitDecoded cfg k d d') : DecGood d' :=
  ⟨h.decoding, h.opened.cursor⟩

theorem decGood_initDecoder (inp : List Byte) : DecGood (initDecoder inp) := by
  obtain ⟨-, hinp, hcur, hgood⟩ := initDecoder_spec inp
  exact ⟨hgood, hinp.symm ▸ hcur⟩

/-! ### The commands of a unit that is not in the phase they need -/

/-- `enc.bit` outside CODING is refused (R103, R104). -/
theorem execEncBit_of_not_coding {s : State} (d : Bool) (h : s.enc.ph ≠ .coding) :
    ∃ st, execEncBit d s = .next (respond st 0 s) := by
  unfold execEncBit
  cases hph : s.enc.ph with
  | coding => exact absurd hph h
  | idle => exact ⟨_, rfl⟩
  | done => exact ⟨_, rfl⟩
  | failed => exact ⟨_, rfl⟩

/-- `enc.flush` outside CODING is refused (R103, R104). -/
theorem execEncFlush_of_not_coding {s : State} (h : s.enc.ph ≠ .coding) :
    ∃ st, execEncFlush s = .next (respond st 0 s) := by
  unfold execEncFlush
  cases hph : s.enc.ph with
  | coding => exact absurd hph h
  | idle => exact ⟨_, rfl⟩
  | done => exact ⟨_, rfl⟩
  | failed => exact ⟨_, rfl⟩

/-- `dec.bit` outside DECODING is refused (R103, R105). -/
theorem execDecBit_of_not_decoding {s : State} (h : s.dec.ph ≠ .decoding) :
    ∃ st, execDecBit s = .next (respond st 0 s) := by
  unfold execDecBit
  cases hph : s.dec.ph with
  | decoding => exact absurd hph h
  | idle => exact ⟨_, rfl⟩
  | failed => exact ⟨_, rfl⟩

@[simp] theorem respondLength_enc (s : State) : (respondLength s).enc = s.enc := by
  unfold respondLength; split <;> rfl

/-! ### What a command leaves alone outside its unit -/

/-- A command that answers is one change of its own unit and one response. -/
theorem exec_after {i : Instr} {s t : State} (hx : exec i s = .next t) : ∃ e f d r, t = s.after i e f d r := by
  obtain ⟨e, f, d, r, hall⟩ := exec_local hx
  cases hx.symm.trans (hall s (.refl i s))
  exact ⟨e, f, d, r, rfl⟩

theorem exec_cfg {i : Instr} {s t : State} (hx : exec i s = .next t) : t.cfg = s.cfg := by
  obtain ⟨e, f, d, r, rfl⟩ := exec_after hx
  rfl

theorem exec_inputs {i : Instr} {s t : State} (hx : exec i s = .next t) : t.inputs = s.inputs := by
  obtain ⟨e, f, d, r, rfl⟩ := exec_after hx
  rfl

theorem exec_responses {i : Instr} {s t : State} (hx : exec i s = .next t) :
    ∃ r, t.responses = s.responses ++ [r] := by
  obtain ⟨e, f, d, r, rfl⟩ := exec_after hx
  exact ⟨r, rfl⟩

theorem exec_enc_of_not_forEncoder {i : Instr} {s t : State} (hi : forEncoder i = false) (hx : exec i s = .next t) :
    t.enc = s.enc ∧ t.free = s.free := by
  obtain ⟨e, f, d, r, rfl⟩ := exec_after hx
  simp [State.after, hi]

theorem exec_dec_of_not_forDecoder {i : Instr} {s t : State} (hi : forDecoder i = false) (hx : exec i s = .next t) :
    t.dec = s.dec := by
  obtain ⟨e, f, d, r, rfl⟩ := exec_after hx
  simp [State.after, hi]

theorem forEncoder_cases (i : Instr) :
    forEncoder i = false ∨ i = .encInit ∨ (∃ d, i = .encBit d) ∨ i = .encFlush := by
  cases i <;> simp [forEncoder]

theorem forDecoder_cases (i : Instr) : forDecoder i = false ∨ (∃ inp, i = .decInit inp) ∨ i = .decBit := by
  cases i <;> simp [forDecoder]

/-! ### The step lemma -/

theorem execEncInit_encGood {s t : State} (hx : execEncInit s = .next t) : EncGood t.enc := by
  cases hx
  exact ⟨fun _ => encCoding_of_fresh ⟨rfl, rfl, rfl, rfl, rfl, rfl, rfl⟩, by simp⟩

theorem execEncBit_encGood {s t : State} {d : Bool} (h : Inv s) (hx : execEncBit d s = .next t) :
    EncGood t.enc := by
  by_cases hph : s.enc.ph = .coding
  · obtain ⟨e, k, hbit, -, he⟩ | ⟨e, hstop, he⟩ := execEncBit_coding d h.table (h.coding hph) hph
    · cases hx.symm.trans he
      exact hbit.encGood hph
    · cases hx.symm.trans he
      exact hstop.encGood
  · obtain ⟨st, he⟩ := execEncBit_of_not_coding d hph
    cases hx.symm.trans he
    exact h.encGood

theorem execEncFlush_encGood {s t : State} (h : Inv s) (hx : execEncFlush s = .next t) : EncGood t.enc := by
  by_cases hph : s.enc.ph = .coding
  · obtain ⟨e, hflush, -, -, he⟩ | ⟨e, hstop, he⟩ := execEncFlush_coding (h.coding hph) hph
    · cases hx.symm.trans he
      rw [respondLength_enc]
      exact hflush.encGood
    · cases hx.symm.trans he
      exact hstop.encGood
  · obtain ⟨st, he⟩ := execEncFlush_of_not_coding hph
    cases hx.symm.trans he
    exact h.encGood

theorem execDecBit_decGood {s t : State} (h : Inv s) (hx : execDecBit s = .next t) : DecGood t.dec := by
  by_cases hph : s.dec.ph = .decoding
  · obtain ⟨d, k, hbit, he⟩ := execDecBit_decoding h.table (h.decoding hph) hph h.cursor
    cases hx.symm.trans he
    exact hbit.decGood
  · obtain ⟨st, he⟩ := execDecBit_of_not_decoding hph
    cases hx.symm.trans he
    exact h.decGood

/-- Every command keeps the encoder's invariants (R26). -/
theorem exec_encGood {i : Instr} {s t : State} (h : Inv s) (hx : exec i s = .next t) : EncGood t.enc := by
  obtain hi | rfl | ⟨d, rfl⟩ | rfl := forEncoder_cases i
  · exact (exec_enc_of_not_forEncoder hi hx).1.symm ▸ h.encGood
  · exact execEncInit_encGood hx
  · exact execEncBit_encGood h hx
  · exact execEncFlush_encGood h hx

/-- Every command keeps the decoder's invariants (R22, R27). -/
theorem exec_decGood {i : Instr} {s t : State} (h : Inv s) (hx : exec i s = .next t) : DecGood t.dec := by
  obtain hi | ⟨inp, rfl⟩ | rfl := forDecoder_cases i
  · exact (exec_dec_of_not_forDecoder hi hx).symm ▸ h.decGood
  · cases hx
    exact decGood_initDecoder inp
  · exact execDecBit_decGood h hx

theorem exec_keeps_inv {i : Instr} {s t : State} (h : Inv s) (hx : exec i s = .next t) : Inv t :=
  h.of_units (exec_cfg hx) (exec_encGood h hx) (exec_decGood h hx)

theorem Inv.withInputs {s : State} (h : Inv s) (rest : List Input) : Inv { s with inputs := rest } :=
  h.of_units rfl h.encGood h.decGood

/-- Settles O32: an idle step and an illegal word change no unit, a reset leaves two idle units, and every command keeps
the invariants of its own unit and leaves the other one alone. -/
theorem everyStepKeepsTheInvariant : Obligations.EveryStepKeepsTheInvariant := by
  intro s t h hs
  obtain ⟨-, rfl⟩ | ⟨rest, -, rfl⟩ | ⟨w, inp, rest, i, -, -, hx⟩ | ⟨w, inp, rest, why, -, -, rfl⟩ := step_cases hs
  · exact h
  · exact h.of_units rfl encGood_reset decGood_reset
  · exact exec_keeps_inv (h.withInputs rest) hx
  · exact h.of_units rfl h.encGood h.decGood

end Sys2Proof.Machine
end

section
/-! SUPPORT. What the commands can do to their unit from any state, good or not: the phases they lead to and the
registers and bytes they leave alone (spec/10_state.md rules R10 to R12, spec/20_memory.md rules R30, R33, R35). -/

namespace Sys2Proof.Machine

/-! ### The encoder's procedures -/

/-- What a procedure of the encoder that runs to its end, other than the flush, keeps: phase and output; the buffer only
grows, and within its capacity (R33). -/
structure Carried (cap : Option Nat) (e e' : Enc) : Prop where
  ph : e'.ph = e.ph
  out : e'.out = e.out
  grows : Grows e.obuf e'.obuf
  within : Fits cap e.obuf → Fits cap e'.obuf

theorem carried_of_eq {cap : Option Nat} {e e' : Enc} (hph : e'.ph = e.ph) (hout : e'.out = e.out)
    (hobuf : e'.obuf = e.obuf) : Carried cap e e' :=
  ⟨hph, hout, hobuf ▸ .refl _, hobuf ▸ id⟩

theorem Carried.trans {cap : Option Nat} {e e' e'' : Enc} (h : Carried cap e e') (h' : Carried cap e' e'') :
    Carried cap e e'' :=
  ⟨h'.ph.trans h.ph, h'.out.trans h.out, h.grows.trans h'.grows, fun hf => h'.within (h.within hf)⟩

theorem Carried.withCode {cap : Option Nat} {e e' : Enc} (h : Carried cap e e') (c : BitVec 32) :
    Carried cap e { e' with c := c } :=
  ⟨h.ph, h.out, h.grows, h.within⟩

theorem Carried.stopped {cap : Option Nat} {e e1 e' : Enc} (h : Carried cap e e1) (h' : Stopped cap e1 e') :
    Stopped cap e e' :=
  h'.of_grows h.grows h.out h.within

/-- The procedure either never ends, or keeps what `Carried` says, or stops on capacity. -/
def EncRun.Carries (cap : Option Nat) (e : Enc) (r : EncRun) : Prop :=
  r = .endless ∨ r.Ends (Carried cap e) (Stopped cap e)

theorem carries_finished {cap : Option Nat} {e e' : Enc} (h : Carried cap e e') :
    (EncRun.finished e').Carries cap e := .inr h

/-- A procedure may be run from registers that already keep what `Carried` says. -/
theorem EncRun.Carries.of_carried {cap : Option Nat} {e e1 : Enc} {r : EncRun} (hr : r.Carries cap e1)
    (h : Carried cap e e1) : r.Carries cap e :=
  hr.imp_right fun hends => hends.imp (fun _ => h.trans) (fun _ => h.stopped)

theorem EncRun.Carries.andThen {cap : Option Nat} {e : Enc} {r : EncRun} {f : Enc → EncRun} (hr : r.Carries cap e)
    (hf : ∀ e1, (f e1).Carries cap e1) : (r.andThen f).Carries cap e := by
  obtain rfl | hends := hr
  · exact .inl rfl
  · obtain ⟨e1, rfl, h1⟩ | ⟨e1, rfl, h1⟩ := hends.cases
    · exact (hf e1).of_carried h1
    · exact .inr h1

/-- BYTE_OUT, run from registers that already keep what `Carried` says. -/
theorem byteOut_carries {cap : Option Nat} {e e1 : Enc} (h : Carried cap e e1) :
    (byteOut cap e1).Ends (Carried cap e) (Stopped cap e) := by
  refine (byteOut_ends cap e1).imp ?_ fun _ => h.stopped
  rintro _ ⟨rfl, hfit⟩
  exact h.trans ⟨rfl, rfl, emitted_grows _ e1, hfit⟩

theorem shiftE_carries (cap : Option Nat) (e : Enc) : (shiftE cap e).Carries cap e := by
  have hdouble : Carried cap e (doubleE e) := carried_of_eq rfl rfl rfl
  unfold shiftE
  split
  · exact EncRun.Carries.andThen (.inr (byteOut_carries hdouble)) fun e1 =>
      carries_finished (carried_of_eq rfl rfl rfl)
  · exact carries_finished hdouble

theorem renormE_carries (cap : Option Nat) (n : Nat) (e : Enc) : (renormE cap n e).Carries cap e := by
  induction n generalizing e with
  | zero =>
    rw [renormE]
    split
    · exact .inl rfl
    · exact carries_finished (carried_of_eq rfl rfl rfl)
  | succ n ih =>
    rw [renormE]
    split
    · exact (shiftE_carries cap e).andThen ih
    · exact carries_finished (carried_of_eq rfl rfl rfl)

/-- The coding of one bit, from any registers (R61 to R65). -/
theorem encodeBit_carries (cfg : Config) (d : Bool) (e : Enc) : (encodeBit cfg d e).Carries cfg.outCap e := by
  unfold encodeBit codeMps codeLps
  simp only
  split
  · split
    · exact carries_finished (carried_of_eq rfl rfl rfl)
    · refine (renormE_carries cfg.outCap 15 _).of_carried ?_
      split <;> exact carried_of_eq rfl rfl rfl
  · refine (renormE_carries cfg.outCap 15 _).of_carried ?_
    split <;> exact carried_of_eq rfl rfl rfl

/-- The flush, from any registers (R67, R104): it ends, in DONE or on capacity. -/
theorem flushRun_grows (cap : Option Nat) (e : Enc) :
    (flushRun cap e).Ends (fun e' => e'.ph = .done ∧ Grows e.obuf e'.obuf) (Stopped cap e) := by
  have hclear : Carried cap e (clearFinalBits e) := carried_of_eq rfl rfl rfl
  unfold flushRun
  refine (byteOut_carries (hclear.withCode _)).andThen fun e2 h2 => ?_
  refine (byteOut_carries (h2.withCode _)).andThen fun e3 h3 => ?_
  exact ⟨rfl, h3.grows⟩

/-! ### What a command does to the encoder -/

/-- What can happen to the encoder in a command that answers (R10, R11): it is kept, opened, coded with a bit, flushed,
or stopped by its capacity. -/
inductive EncEvent (s t : State) : Instr → Prop
  | kept {i : Instr} (enc : t.enc = s.enc) (free : t.free = s.free) : EncEvent s t i
  | opened (ph : t.enc.ph = .coding) : EncEvent s t .encInit
  | coded {d : Bool} (enc : Carried s.cfg.outCap s.enc t.enc) (free : t.free = s.free) : EncEvent s t (.encBit d)
  | flushed (ph : s.enc.ph = .coding) (done : t.enc.ph = .done) (grows : Grows s.enc.obuf t.enc.obuf) :
      EncEvent s t .encFlush
  | stopped {i : Instr} (ph : s.enc.ph = .coding) (which : i = .encFlush ∨ ∃ d, i = .encBit d)
      (enc : Stopped s.cfg.outCap s.enc t.enc) (free : t.free = s.free) : EncEvent s t i

theorem execEncBit_event {s t : State} {d : Bool} (hx : execEncBit d s = .next t) : EncEvent s t (.encBit d) := by
  by_cases hph : s.enc.ph = .coding
  · have hend : endEncoder (respond .ok 0) (encodeBit s.cfg d s.enc) s = .next t := by
      rw [← hx, execEncBit, hph]
    obtain hno | hends := encodeBit_carries s.cfg d s.enc
    · rw [hno] at hend
      cases hend
    · obtain ⟨e, hcarried, he⟩ | ⟨e, hstop, he⟩ := endEncoder_cases (respondOk := respond .ok 0) s hends
      · cases hend.symm.trans he
        exact .coded hcarried rfl
      · cases hend.symm.trans he
        exact .stopped hph (.inr ⟨d, rfl⟩) hstop rfl
  · obtain ⟨st, he⟩ := execEncBit_of_not_coding d hph
    cases hx.symm.trans he
    exact .kept rfl rfl

theorem execEncFlush_event {s t : State} (hx : execEncFlush s = .next t) : EncEvent s t .encFlush := by
  by_cases hph : s.enc.ph = .coding
  · have hend : endEncoder respondLength (flushRun s.cfg.outCap s.enc) s = .next t := by
      rw [← hx, execEncFlush, hph]
    obtain ⟨e, ⟨hdone, hgrows⟩, he⟩ | ⟨e, hstop, he⟩ :=
      endEncoder_cases (respondOk := respondLength) s (flushRun_grows s.cfg.outCap s.enc)
    · cases hend.symm.trans he
      exact .flushed hph (by simpa using hdone) (by simpa using hgrows)
    · cases hend.symm.trans he
      exact .stopped hph (.inl rfl) hstop rfl
  · obtain ⟨st, he⟩ := execEncFlush_of_not_coding hph
    cases hx.symm.trans he
    exact .kept rfl rfl

theorem exec_encEvent {i : Instr} {s t : State} (hx : exec i s = .next t) : EncEvent s t i := by
  obtain hi | rfl | ⟨d, rfl⟩ | rfl := forEncoder_cases i
  · obtain ⟨henc, hfree⟩ := exec_enc_of_not_forEncoder hi hx
    exact .kept henc hfree
  · cases hx
    exact .opened rfl
  · exact execEncBit_event hx
  · exact execEncFlush_event hx

/-- `enc.bit` leaves `E.OUT` and the free-value counter alone. -/
theorem EncEvent.encBit_frame {s t : State} {d : Bool} (h : EncEvent s t (.encBit d)) :
    t.enc.out = s.enc.out ∧ t.free = s.free := by
  cases h with
  | kept henc hfree => exact ⟨by rw [henc], hfree⟩
  | coded hcarried hfree => exact ⟨hcarried.out, hfree⟩
  | stopped _ _ hstop hfree => exact ⟨hstop.out, hfree⟩

/-- No command but `enc.init` changes a byte of the buffer, but for the last one. -/
theorem EncEvent.grown {i : Instr} {s t : State} (h : EncEvent s t i) (hi : i ≠ .encInit) :
    Grown s.enc.obuf t.enc.obuf := by
  cases h with
  | kept henc _ => rw [henc]; exact (Grows.refl _).grown
  | opened _ => exact absurd rfl hi
  | coded hcarried _ => exact hcarried.grows.grown
  | flushed _ _ hgrows => exact hgrows.grown
  | stopped _ _ hstop _ => exact hstop.grown

/-- The encoder's phase changes by the listed events only (R11). -/
theorem EncEvent.phase {i : Instr} {s t : State} (h : EncEvent s t i) :
    t.enc.ph = s.enc.ph ∨ (i = .encInit ∧ t.enc.ph = .coding) ∨
      (s.enc.ph = .coding ∧ i = .encFlush ∧ t.enc.ph = .done) ∨
      (s.enc.ph = .coding ∧ s.cfg.outCap ≠ none ∧ (i = .encFlush ∨ ∃ d, i = .encBit d) ∧ t.enc.ph = .failed) := by
  cases h with
  | kept henc _ => exact .inl (by rw [henc])
  | opened hph => exact .inr (.inl ⟨rfl, hph⟩)
  | coded hcarried _ => exact .inl hcarried.ph
  | flushed hph hdone _ => exact .inr (.inr (.inl ⟨hph, rfl, hdone⟩))
  | stopped hph which hstop _ => exact .inr (.inr (.inr ⟨hph, hstop.cap_ne_none, which, hstop.ph⟩))

/-- `enc.flush` in CODING, from a good encoder, leaves CODING (R67, R104). -/
theorem execEncFlush_coding_ph {s t : State} (h : EncCoding s.enc) (hph : s.enc.ph = .coding)
    (hx : execEncFlush s = .next t) : t.enc.ph = .done ∨ t.enc.ph = .failed := by
  obtain ⟨e, hflush, -, -, he⟩ | ⟨e, hstop, he⟩ := execEncFlush_coding h hph
  · cases hx.symm.trans he
    exact .inl (by simpa using hflush.ph)
  · cases hx.symm.trans he
    exact .inr hstop.ph

/-! ### What a command does to the decoder -/

/-- What every procedure inside a `dec.bit` keeps: the input view, and the phase unless it fails (R81, R90). -/
structure InputKept (d d' : Dec) : Prop where
  inp : d'.inp = d.inp
  ph : d'.ph = d.ph ∨ d'.ph = .failed

theorem InputKept.trans {d d' d'' : Dec} (h : InputKept d d') (h' : InputKept d' d'') : InputKept d d'' :=
  ⟨h'.inp.trans h.inp, h'.ph.elim (fun heq => heq.symm ▸ h.ph) .inr⟩

theorem fetch_inputKept (d : Dec) : InputKept d (fetch d).2 := by
  unfold fetch fetchStuffed
  split
  · exact ⟨rfl, .inl rfl⟩
  · split
    · exact ⟨rfl, .inl rfl⟩
    · split
      · split
        · exact ⟨rfl, .inl rfl⟩
        · exact ⟨rfl, .inr rfl⟩
      · exact ⟨rfl, .inl rfl⟩

theorem shiftWindow_refill_inputKept (d : Dec) : InputKept d (shiftWindow (refill d)) := by
  unfold refill
  split
  · exact ⟨(fetch_inputKept d).inp, (fetch_inputKept d).ph⟩
  · exact ⟨rfl, .inl rfl⟩

theorem renormD_inputKept {n : Nat} {d d' : Dec} (h : renormD n d = some d') : InputKept d d' := by
  induction n generalizing d with
  | zero =>
    rw [renormD] at h
    split at h
    · cases h
    · cases h
      exact ⟨rfl, .inl rfl⟩
  | succ n ih =>
    rw [renormD] at h
    split at h
    · exact (shiftWindow_refill_inputKept d).trans (ih h)
    · cases h
      exact ⟨rfl, .inl rfl⟩

theorem renormAfter_inputKept {r b : Bool × Dec} (h : renormAfter r = some b) : InputKept r.2 b.2 := by
  unfold renormAfter at h
  split at h
  next d hd =>
    cases h
    exact renormD_inputKept hd
  next => cases h

/-- The decoding of one bit, from any registers (R84 to R87). -/
theorem decodeBit_inputKept {cfg : Config} {d : Dec} {b : Bool × Dec} (h : decodeBit cfg d = some b) :
    InputKept d b.2 := by
  unfold decodeBit at h
  simp only at h
  split at h
  · split at h
    · cases h
      exact ⟨rfl, .inl rfl⟩
    · refine InputKept.trans ?_ (renormAfter_inputKept h)
      unfold condMpsExchange
      split <;> exact ⟨rfl, .inl rfl⟩
  · refine InputKept.trans ?_ (renormAfter_inputKept h)
    unfold condLpsExchange
    simp only
    split <;> exact ⟨rfl, .inl rfl⟩

/-- What can happen to the decoder in a command that answers (R10, R12): it is kept, opened, or decodes a bit. -/
inductive DecEvent (s t : State) : Instr → Prop
  | kept {i : Instr} (dec : t.dec = s.dec) : DecEvent s t i
  | opened {inp : List Byte} (dec : t.dec = initDecoder inp) : DecEvent s t (.decInit inp)
  | decoded (ph : s.dec.ph = .decoding) (dec : InputKept s.dec t.dec) : DecEvent s t .decBit

theorem execDecBit_event {s t : State} (hx : execDecBit s = .next t) : DecEvent s t .decBit := by
  by_cases hph : s.dec.ph = .decoding
  · cases hbit : decodeBit s.cfg s.dec with
    | some b =>
      have he : execDecBit s = .next (respond (statusD b.2) (bitValue b.1) { s with dec := b.2 }) := by
        rw [execDecBit, hph]; simp only [hbit]
      cases hx.symm.trans he
      exact .decoded hph (decodeBit_inputKept hbit)
    | none =>
      have he : execDecBit s = .fault .decoderLoopEndless := by
        rw [execDecBit, hph]; simp only [hbit]
      cases hx.symm.trans he
  · obtain ⟨st, he⟩ := execDecBit_of_not_decoding hph
    cases hx.symm.trans he
    exact .kept rfl

theorem exec_decEvent {i : Instr} {s t : State} (hx : exec i s = .next t) : DecEvent s t i := by
  obtain hi | ⟨inp, rfl⟩ | rfl := forDecoder_cases i
  · exact .kept (exec_dec_of_not_forDecoder hi hx)
  · cases hx
    exact .opened rfl
  · exact execDecBit_event hx

/-- `dec.bit` leaves the input view alone. -/
theorem DecEvent.decBit_inp {s t : State} (h : DecEvent s t .decBit) : t.dec.inp = s.dec.inp := by
  cases h with
  | kept hdec => rw [hdec]
  | decoded _ hkept => exact hkept.inp

/-- The decoder's phase changes by the listed events only (R12). -/
theorem DecEvent.phase {i : Instr} {s t : State} (h : DecEvent s t i) :
    t.dec.ph = s.dec.ph ∨ (∃ inp, i = .decInit inp ∧ (t.dec.ph = .decoding ∨ t.dec.ph = .failed)) ∨
      (s.dec.ph = .decoding ∧ i = .decBit ∧ t.dec.ph = .failed) := by
  cases h with
  | kept hdec => exact .inl (by rw [hdec])
  | @opened inp hdec => exact .inr (.inl ⟨inp, rfl, hdec ▸ (initDecoder_spec inp).1⟩)
  | decoded hph hkept => exact hkept.ph.imp_right fun hfail => .inr ⟨hph, rfl, hfail⟩

theorem initDecoder_ph_ne_idle (inp : List Byte) : (initDecoder inp).ph ≠ .idle := by
  obtain hph | hph := (initDecoder_spec inp).1 <;> simp [hph]

/-! ### The statements -/

/-- Settles O37: `exec_after` gives the frame of every command, and the events of the two units the finer clauses. -/
theorem commandFrames : Obligations.CommandFrames := by
  intro i s t hx
  obtain ⟨r, hresp⟩ := exec_responses hx
  refine ⟨exec_cfg hx, exec_inputs hx, ⟨[r], hresp.symm⟩, fun hi => exec_enc_of_not_forEncoder hi hx,
    fun hi => exec_dec_of_not_forDecoder hi hx, ?_, ?_, ?_⟩
  · rintro rfl
    exact (exec_decEvent hx).decBit_inp
  · rintro d rfl
    exact (exec_encEvent hx).encBit_frame
  · rintro (⟨d, rfl⟩ | rfl)
    · exact (exec_encEvent hx).grown (by simp)
    · exact (exec_encEvent hx).grown (by simp)

/-- Settles O38: a unit's command is one change of that unit and one response, the same from both states. -/
theorem unitsDoNotReadEachOther : Obligations.UnitsDoNotReadEachOther := by
  constructor
  · intro i s u s' hi hcfg henc hfree hx
    obtain ⟨e, f, r, hall⟩ := exec_encoder_local hi hx
    cases hx.symm.trans (hall s rfl rfl rfl)
    exact ⟨_, r, hall u hcfg.symm henc.symm hfree.symm, rfl, rfl, rfl, rfl⟩
  · intro i s u s' hi hcfg hdec hx
    obtain ⟨d, r, hall⟩ := exec_decoder_local hi hx
    cases hx.symm.trans (hall s rfl rfl)
    exact ⟨_, r, hall u hcfg.symm hdec.symm, rfl, rfl, rfl⟩

/-- Settles O40: each event of a unit says which phase it starts from and which it leads to. -/
theorem phasesChangeOnlyByTheListedEvents : Obligations.PhasesChangeOnlyByTheListedEvents := by
  refine ⟨fun i s t hx => (exec_encEvent hx).phase, fun i s t hx => (exec_decEvent hx).phase, ?_, ?_, ?_⟩
  · intro s t hx
    cases hx
    rfl
  · intro s t h hph hx
    exact execEncFlush_coding_ph (h.coding hph) hph hx
  · intro s t inp hx
    cases hx
    exact initDecoder_ph_ne_idle inp

/-- Settles O7: the step takes the word from the interface and dispatches what it decodes to. -/
theorem stepRunsTheDecodedCommand : Obligations.StepRunsTheDecodedCommand := by
  intro s w inp rest i hinputs hdecode
  have hfetch : fetchInput s = .legal i { s with inputs := rest } := by
    unfold fetchInput
    simp only [hinputs, hdecode]
  rw [step, hfetch]

end Sys2Proof.Machine
end

section
/-! SUPPORT. The capacity and the table along every step: the encoder buffer stays within `OUT_CAP`, and nothing writes
the parameters (spec/20_memory.md rules R33, R38; spec/60_exceptions.md rules R104, R111). -/

namespace Sys2Proof.Machine

/-! ### The buffer stays within the capacity -/

theorem withinCapacity_iff_fits {s : State} : withinCapacity s ↔ Fits s.cfg.outCap s.enc.obuf := Iff.rfl

/-- A buffer with the placeholder at most fits every capacity (R33). -/
theorem fits_of_length_le_one {cap : Option Nat} {obuf : List Byte} (h : obuf.length ≤ 1) : Fits cap obuf :=
  fun n _ => by omega

/-- The flush, from any registers, keeps its capacity however it ends (R67, R104). -/
theorem flushRun_fits (cap : Option Nat) (e : Enc) :
    (flushRun cap e).Ends (fun e' => Fits cap e.obuf → Fits cap e'.obuf) (Stopped cap e) := by
  have hclear : Carried cap e (clearFinalBits e) := carried_of_eq rfl rfl rfl
  unfold flushRun
  refine (byteOut_carries (hclear.withCode _)).andThen fun e2 h2 => ?_
  refine (byteOut_carries (h2.withCode _)).andThen fun e3 h3 => ?_
  exact h3.within

theorem EncEvent.encBit_fits {s t : State} {d : Bool} (h : EncEvent s t (.encBit d))
    (hs : Fits s.cfg.outCap s.enc.obuf) : Fits s.cfg.outCap t.enc.obuf := by
  cases h with
  | kept henc _ => rwa [henc]
  | coded hcarried _ => exact hcarried.within hs
  | stopped _ _ hstop _ => exact hstop.within hs

theorem execEncFlush_fits {s t : State} (hs : Fits s.cfg.outCap s.enc.obuf) (hx : execEncFlush s = .next t) :
    Fits s.cfg.outCap t.enc.obuf := by
  by_cases hph : s.enc.ph = .coding
  · have hend : endEncoder respondLength (flushRun s.cfg.outCap s.enc) s = .next t := by
      rw [← hx, execEncFlush, hph]
    obtain ⟨e, hfit, he⟩ | ⟨e, hstop, he⟩ :=
      endEncoder_cases (respondOk := respondLength) s (flushRun_fits s.cfg.outCap s.enc)
    · cases hend.symm.trans he
      simpa using hfit hs
    · cases hend.symm.trans he
      exact hstop.within hs
  · obtain ⟨st, he⟩ := execEncFlush_of_not_coding hph
    cases hx.symm.trans he
    exact hs

/-- No command takes the buffer past the capacity (R33). -/
theorem exec_withinCapacity {i : Instr} {s t : State} (hs : withinCapacity s) (hx : exec i s = .next t) :
    withinCapacity t := by
  rw [withinCapacity_iff_fits, exec_cfg hx]
  obtain hi | rfl | ⟨d, rfl⟩ | rfl := forEncoder_cases i
  · rw [(exec_enc_of_not_forEncoder hi hx).1]
    exact hs
  · cases hx
    exact fits_of_length_le_one (by simp)
  · exact (exec_encEvent hx).encBit_fits hs
  · exact execEncFlush_fits hs hx

/-- Settles O24: a reset empties the buffer, and no command takes it past the capacity. -/
theorem bufferStaysWithinCapacity : Obligations.BufferStaysWithinCapacity := by
  intro s t hs hstep
  obtain ⟨-, rfl⟩ | ⟨rest, -, rfl⟩ | ⟨w, inp, rest, i, -, -, hx⟩ | ⟨w, inp, rest, why, -, -, rfl⟩ :=
    step_cases hstep
  · exact hs
  · exact fits_of_length_le_one (by simp [Enc.reset])
  · exact exec_withinCapacity (s := { s with inputs := rest }) hs hx
  · exact hs

/-! ### The table -/

theorem step_cfg {s t : State} (h : step s = .next t) : t.cfg = s.cfg := by
  obtain ⟨-, rfl⟩ | ⟨rest, -, rfl⟩ | ⟨w, inp, rest, i, -, -, hx⟩ | ⟨w, inp, rest, why, -, -, rfl⟩ :=
    step_cases h
  · rfl
  · rfl
  · exact exec_cfg (s := { s with inputs := rest }) hx
  · rfl

theorem issueEnc_cfg {p p1 : Platform} {k : Nat} {i : Instr} {r : Response} (h : p.issueEnc k i = some (r, p1)) :
    p1.cfg = p.cfg := by
  unfold Platform.issueEnc at h
  split at h
  · cases h
  · split at h
    · cases h
    · cases h
      rfl

theorem issueDec_cfg {p p1 : Platform} {k : Nat} {i : Instr} {r : Response} (h : p.issueDec k i = some (r, p1)) :
    p1.cfg = p.cfg := by
  unfold Platform.issueDec at h
  split at h
  · cases h
  · split at h
    · cases h
    · cases h
      rfl

/-- An accessor leaves the whole platform alone (R38). -/
theorem issueRom_platform {p p1 : Platform} {i : Instr} {r : Response} (h : p.issueRom i = some (r, p1)) :
    p1 = p := by
  unfold Platform.issueRom at h
  split at h
  · cases h
  · cases h
    rfl

theorem issueTo_cfg {p p1 : Platform} {k : Nat} {i : Instr} {r : Response} (h : p.issueTo k i = some (r, p1)) :
    p1.cfg = p.cfg := by
  unfold Platform.issueTo at h
  split at h
  · exact issueEnc_cfg h
  · exact issueDec_cfg h
  · rw [issueRom_platform h]

/-- Settles O39: the parameters are in the frame of every step and of every command issued to a platform, and a row is
read from the parameters alone. -/
theorem noStepChangesTheTable : Obligations.NoStepChangesTheTable :=
  ⟨fun _ _ h => ⟨step_cfg h, fun idx => by rw [step_cfg h]⟩, fun _ _ _ _ _ h => issueTo_cfg h⟩

end Sys2Proof.Machine
end

section
/-! SUPPORT. What a capacity decides: a procedure of the encoder run with a capacity does what it does without one, or
it stops where the buffer without one goes past the capacity (spec/20_memory.md rule R33, spec/60_exceptions.md rule
R104). -/

namespace Sys2Proof.Machine

/-! ### One procedure, with a capacity and without -/

/-- `capped` and `unbounded` are one procedure, begun with the buffer `obuf`, run with the capacity `n` and without one.
Unless the buffer lacks even the placeholder, the first does what the second does, or stops because the second leaves
more than `n` bytes after the placeholder. -/
structure CapDecides (n : Nat) (obuf : List Byte) (capped unbounded : EncRun) : Prop where
  grows : ∀ e, unbounded = .finished e → obuf.length ≤ e.obuf.length
  decides : obuf ≠ [] →
    capped = unbounded ∨ (∃ e, capped = .full e) ∧ ∀ e, unbounded = .finished e → n + 1 < e.obuf.length

theorem andThen_eq_finished {r : EncRun} {f : Enc → EncRun} {e' : Enc} (h : r.andThen f = .finished e') :
    ∃ e, r = .finished e ∧ f e = .finished e' := by
  cases r with
  | finished e => exact ⟨e, rfl, h⟩
  | full e => cases h
  | endless => cases h

theorem capDecides_finished {n : Nat} {obuf : List Byte} {e : Enc} (h : e.obuf.length = obuf.length) :
    CapDecides n obuf (.finished e) (.finished e) :=
  ⟨by rintro _ ⟨⟩; exact h.ge, fun _ => .inl rfl⟩

theorem capDecides_endless (n : Nat) (obuf : List Byte) : CapDecides n obuf .endless .endless :=
  ⟨by rintro _ ⟨⟩, fun _ => .inl rfl⟩

/-- Only the number of bytes in the buffer counts (R33). -/
theorem CapDecides.of_length {n : Nat} {obuf obuf' : List Byte} {capped unbounded : EncRun}
    (hlen : obuf'.length = obuf.length) (h : CapDecides n obuf' capped unbounded) :
    CapDecides n obuf capped unbounded := by
  refine ⟨fun e he => hlen ▸ h.grows e he, fun hne => h.decides ?_⟩
  exact List.ne_nil_of_length_pos (hlen ▸ List.length_pos_of_ne_nil hne)

/-- Procedures may be run one after the other: a buffer that has gone past the capacity does not come back. -/
theorem CapDecides.andThen {n : Nat} {obuf : List Byte} {capped unbounded : EncRun} {f g : Enc → EncRun}
    (h : CapDecides n obuf capped unbounded) (hf : ∀ e, CapDecides n e.obuf (f e) (g e)) :
    CapDecides n obuf (capped.andThen f) (unbounded.andThen g) := by
  refine ⟨fun e' he' => ?_, fun hne => ?_⟩
  · obtain ⟨e, hfin, hg⟩ := andThen_eq_finished he'
    exact (h.grows e hfin).trans ((hf e).grows e' hg)
  · obtain rfl | ⟨⟨e, rfl⟩, hpast⟩ := h.decides hne
    · cases capped with
      | finished e =>
        have hpos := List.length_pos_of_ne_nil hne
        have hlen := h.grows e rfl
        exact (hf e).decides (List.ne_nil_of_length_pos (by omega))
      | full e => exact .inl rfl
      | endless => exact .inl rfl
    · refine .inr ⟨⟨e, rfl⟩, fun e' he' => ?_⟩
      obtain ⟨e1, hfin, hg⟩ := andThen_eq_finished he'
      exact (hpast e1 hfin).trans_le ((hf e1).grows e' hg)

/-! ### The procedures of the encoder -/

/-- `OutAppend` fails exactly when the byte would be one too many (R33). -/
theorem outAppend_capDecides (n : Nat) (v : Byte) (e : Enc) :
    CapDecides n e.obuf (outAppend (some n) v e) (outAppend none v e) := by
  rw [outAppend_none]
  refine ⟨by rintro _ ⟨⟩; simp, fun hne => ?_⟩
  unfold outAppend
  split
  next hfull =>
    refine .inr ⟨⟨_, rfl⟩, ?_⟩
    rintro _ ⟨⟩
    have hpos := List.length_pos_of_ne_nil hne
    rw [bufferFull_some, decide_eq_true_eq] at hfull
    rw [List.length_append, List.length_singleton]
    omega
  next => exact .inl rfl

theorem drainCarry_capDecides (n k : Nat) (e : Enc) :
    CapDecides n e.obuf (drainCarry (some n) k e) (drainCarry none k e) := by
  induction k generalizing e with
  | zero => exact capDecides_finished rfl
  | succ k ih => exact (outAppend_capDecides n 0x00 e).andThen fun e1 => ih { e1 with st := e1.st - 1 }

theorem drainPlain_capDecides (n k : Nat) (e : Enc) :
    CapDecides n e.obuf (drainPlain (some n) k e) (drainPlain none k e) := by
  induction k generalizing e with
  | zero => exact capDecides_finished rfl
  | succ k ih =>
    exact (outAppend_capDecides n 0xFF e).andThen fun e1 =>
      (outAppend_capDecides n 0x00 e1).andThen fun e2 => ih { e2 with st := e2.st - 1 }

theorem stuffAfterCarry_capDecides (n : Nat) (e : Enc) :
    CapDecides n e.obuf (stuffAfterCarry (some n) e) (stuffAfterCarry none e) := by
  unfold stuffAfterCarry
  split
  · exact outAppend_capDecides n 0x00 e
  · exact capDecides_finished rfl

theorem byteOutCase_capDecides (n : Nat) (t : BitVec 32) (e : Enc) :
    CapDecides n e.obuf (byteOutCase (some n) t e) (byteOutCase none t e) := by
  unfold byteOutCase
  split
  · refine .of_length (incLast_length e.obuf) ((stuffAfterCarry_capDecides n (outIncLast e)).andThen fun e1 => ?_)
    exact (drainCarry_capDecides n e1.st e1).andThen fun e2 => outAppend_capDecides n (t.setWidth 8) e2
  · split
    · exact capDecides_finished rfl
    · exact (drainPlain_capDecides n e.st e).andThen fun e1 => outAppend_capDecides n (t.setWidth 8) e1

theorem byteOut_capDecides (n : Nat) (e : Enc) : CapDecides n e.obuf (byteOut (some n) e) (byteOut none e) :=
  (byteOutCase_capDecides n (e.c >>> 19) e).andThen fun _ => capDecides_finished rfl

theorem shiftE_capDecides (n : Nat) (e : Enc) : CapDecides n e.obuf (shiftE (some n) e) (shiftE none e) := by
  unfold shiftE
  split
  · exact (byteOut_capDecides n (doubleE e)).andThen fun _ => capDecides_finished rfl
  · exact capDecides_finished rfl

theorem renormE_capDecides (n k : Nat) (e : Enc) :
    CapDecides n e.obuf (renormE (some n) k e) (renormE none k e) := by
  induction k generalizing e with
  | zero =>
    unfold renormE
    split
    · exact capDecides_endless n e.obuf
    · exact capDecides_finished rfl
  | succ k ih =>
    unfold renormE
    split
    · exact (shiftE_capDecides n e).andThen ih
    · exact capDecides_finished rfl

theorem codeMps_capDecides (cfg : Config) (n : Nat) (q : BitVec 16) (e : Enc) :
    CapDecides n e.obuf (codeMps { cfg with outCap := some n } q e) (codeMps { cfg with outCap := none } q e) := by
  unfold codeMps
  dsimp only
  split
  · exact capDecides_finished rfl
  · refine .of_length ?_ (renormE_capDecides n 15 _)
    dsimp only
    split <;> rfl

theorem codeLps_capDecides (cfg : Config) (n : Nat) (q : BitVec 16) (e : Enc) :
    CapDecides n e.obuf (codeLps { cfg with outCap := some n } q e) (codeLps { cfg with outCap := none } q e) := by
  refine .of_length ?_ (renormE_capDecides n 15 _)
  dsimp only
  split <;> rfl

theorem encodeBit_capDecides (cfg : Config) (n : Nat) (d : Bool) (e : Enc) :
    CapDecides n e.obuf (encodeBit { cfg with outCap := some n } d e) (encodeBit { cfg with outCap := none } d e) := by
  unfold encodeBit
  split
  · exact codeMps_capDecides cfg n (qe cfg e.idx) e
  · exact codeLps_capDecides cfg n (qe cfg e.idx) e

theorem flushRun_capDecides (n : Nat) (e : Enc) :
    CapDecides n e.obuf (flushRun (some n) e) (flushRun none e) := by
  unfold flushRun
  dsimp only
  refine .of_length ?_ ((byteOut_capDecides n _).andThen fun e2 => ?_)
  · rw [clearFinalBits_obuf]
  · exact (byteOut_capDecides n { e2 with c := e2.c <<< 8 }).andThen fun _ => capDecides_finished rfl

/-! ### How a command ends, with a capacity and without -/

/-- An encoder that fails within its capacity fails with the buffer exactly full (R33, R104). -/
theorem Stopped.length {n : Nat} {e e' : Enc} (h : Stopped (some n) e e') (hne : e.obuf ≠ [])
    (hfit : Fits (some n) e.obuf) : e'.obuf.length = n + 1 := by
  have hpos : 0 < e.obuf.length := List.length_pos_of_ne_nil hne
  have hgrown : e.obuf.length ≤ e'.obuf.length := by
    obtain hpre | hpre := h.grown
    · exact hpre.length_le
    · simpa using hpre.length_le
  have hfull := h.full
  rw [bufferFull_some, decide_eq_true_eq] at hfull
  have := h.within hfit n rfl
  omega

/-- What `CapacityOnlyDecidesFailure` says of a command, by its outcomes with the capacity `n` and without one, from the
state `s`. -/
def FailsOnlyPast (n : Nat) (s : State) (capped unbounded : Host.Outcome State Fault Refusal) : Prop :=
  ∃ t, unbounded = .next t ∧
    (t.enc.obuf.length ≤ n + 1 → capped = .next { t with cfg := s.cfg }) ∧
    (n + 1 < t.enc.obuf.length →
      ∃ e, capped = .next { s with enc := e, responses := s.responses ++ [⟨.capacityExceeded, 0⟩] } ∧
        e.ph = .failed ∧ e.obuf.length = n + 1)

/-- A completed command's response leaves the encoder alone and does not depend on the parameters. -/
structure RespondsAlone (ok : State → State) : Prop where
  enc : ∀ s, (ok s).enc = s.enc
  cfg : ∀ s cfg, ok { s with cfg := cfg } = { ok s with cfg := cfg }

theorem respondsAlone_respond (st : Status) (v : BitVec 32) : RespondsAlone (respond st v) :=
  ⟨fun _ => rfl, fun _ _ => rfl⟩

theorem respondsAlone_respondLength : RespondsAlone respondLength where
  enc := respondLength_enc
  cfg s cfg := by
    unfold respondLength
    dsimp only
    split <;> rfl

/-- An accepted encoder command, from the two runs of its procedure: `unbounded` finishes, and `capped` ends within the
capacity. -/
theorem endEncoder_failsOnlyPast {ok : State → State} {s : State} {n : Nat} {capped unbounded : EncRun} {e : Enc}
    (cfg : Config) (hok : RespondsAlone ok) (hne : s.enc.obuf ≠ []) (hfit : Fits (some n) s.enc.obuf)
    (hdec : CapDecides n s.enc.obuf capped unbounded) (hfin : unbounded = .finished e)
    (hends : capped.Ends (fun e' => Fits (some n) s.enc.obuf → Fits (some n) e'.obuf) (Stopped (some n) s.enc)) :
    FailsOnlyPast n s (endEncoder ok capped s) (endEncoder ok unbounded { s with cfg := cfg }) := by
  subst hfin
  have henc : (ok { s with cfg := cfg, enc := e }).enc = e := hok.enc _
  refine ⟨ok { s with cfg := cfg, enc := e }, rfl, fun hle => ?_, fun hlt => ?_⟩
  · rw [henc] at hle
    obtain rfl | ⟨-, hpast⟩ := hdec.decides hne
    · exact congrArg Host.Outcome.next (hok.cfg { s with cfg := cfg, enc := e } s.cfg)
    · exact absurd hle (hpast e rfl).not_ge
  · rw [henc] at hlt
    obtain rfl | ⟨⟨e', rfl⟩, -⟩ := hdec.decides hne
    · exact absurd (hends hfit n rfl) hlt.not_ge
    · have hstop : Stopped (some n) s.enc e' := hends
      exact ⟨e', rfl, hstop.ph, hstop.length hne hfit⟩

/-- Without a capacity a procedure that ends finishes (R104). -/
theorem EncRun.Ends.finished_of_none {r : EncRun} {good : Enc → Prop} {e : Enc} (h : r.Ends good (Stopped none e)) :
    ∃ e', r = .finished e' := by
  obtain ⟨e', hr, -⟩ | ⟨e', -, hstop⟩ := h.cases
  · exact ⟨e', hr⟩
  · exact absurd rfl hstop.cap_ne_none

/-- `enc.bit` and `enc.flush` outside CODING are refused alike under all parameters (R103, R104). -/
theorem exec_of_not_coding {i : Instr} {s : State} (hi : (∃ d, i = .encBit d) ∨ i = .encFlush)
    (hph : s.enc.ph ≠ .coding) :
    ∃ st, ∀ cfg, exec i { s with cfg := cfg } = .next (respond st 0 { s with cfg := cfg }) := by
  obtain ⟨d, rfl⟩ | rfl := hi
  · cases h : s.enc.ph with
    | coding => exact absurd h hph
    | idle => exact ⟨.notReady, fun _ => by simp only [exec, execEncBit, h, refuse]⟩
    | done => exact ⟨.notReady, fun _ => by simp only [exec, execEncBit, h, refuse]⟩
    | failed => exact ⟨.capacityExceeded, fun _ => by simp only [exec, execEncBit, h, refuse]⟩
  · cases h : s.enc.ph with
    | coding => exact absurd h hph
    | idle => exact ⟨.notReady, fun _ => by simp only [exec, execEncFlush, h, refuse]⟩
    | done => exact ⟨.notReady, fun _ => by simp only [exec, execEncFlush, h, refuse]⟩
    | failed => exact ⟨.capacityExceeded, fun _ => by simp only [exec, execEncFlush, h, refuse]⟩

theorem EncCoding.obuf_ne_nil {e : Enc} (h : EncCoding e) : e.obuf ≠ [] := by
  have hhead := h.placeholder
  intro hnil
  simp [hnil] at hhead

theorem execEncBit_failsOnlyPast {s : State} {n : Nat} (d : Bool) (h : Inv s) (hfit : Fits (some n) s.enc.obuf)
    (hcap : s.cfg.outCap = some n) (hph : s.enc.ph = .coding) :
    FailsOnlyPast n s (execEncBit d s) (execEncBit d { s with cfg := { s.cfg with outCap := none } }) := by
  have hcoding := h.coding hph
  have hstart : ∀ cfg, execEncBit d { s with cfg := cfg } =
      endEncoder (respond .ok 0) (encodeBit cfg d s.enc) { s with cfg := cfg } := fun cfg => by
    rw [execEncBit, hph]
  obtain ⟨e, hfin⟩ :=
    (encodeBit_ends (cfg := { s.cfg with outCap := none }) d h.table hcoding).finished_of_none
  have hends := (encodeBit_ends d h.table hcoding).imp (fun _ ⟨_, _, hw⟩ => hw) fun _ hstop => hstop
  rw [hcap] at hends
  have hdec := encodeBit_capDecides s.cfg n d s.enc
  rw [← hcap] at hdec
  rw [hstart { s.cfg with outCap := none }, show execEncBit d s = _ from hstart s.cfg]
  exact endEncoder_failsOnlyPast _ (respondsAlone_respond .ok 0) hcoding.obuf_ne_nil hfit hdec hfin hends

theorem execEncFlush_failsOnlyPast {s : State} {n : Nat} (h : Inv s) (hfit : Fits (some n) s.enc.obuf)
    (hcap : s.cfg.outCap = some n) (hph : s.enc.ph = .coding) :
    FailsOnlyPast n s (execEncFlush s) (execEncFlush { s with cfg := { s.cfg with outCap := none } }) := by
  have hcoding := h.coding hph
  have hstart : ∀ cfg, execEncFlush { s with cfg := cfg } =
      endEncoder respondLength (flushRun cfg.outCap s.enc) { s with cfg := cfg } := fun cfg => by
    rw [execEncFlush, hph]
  obtain ⟨e, hfin⟩ := (flushRun_ends none hcoding).finished_of_none
  rw [hstart { s.cfg with outCap := none }, show execEncFlush s = _ from hstart s.cfg, hcap]
  exact endEncoder_failsOnlyPast _ respondsAlone_respondLength hcoding.obuf_ne_nil hfit
    (flushRun_capDecides n s.enc) hfin (flushRun_fits (some n) s.enc)

/-- Settles O23: in CODING the command's procedure is decided by its capacity as `CapDecides` says; outside CODING the
command is refused, with and without one, and the buffer is as it was. -/
theorem capacityOnlyDecidesFailure : Obligations.CapacityOnlyDecidesFailure := by
  intro s i n h hwithin hcap hi
  have hfit : Fits (some n) s.enc.obuf := hcap ▸ hwithin
  by_cases hph : s.enc.ph = .coding
  · obtain ⟨d, rfl⟩ | rfl := hi
    · exact execEncBit_failsOnlyPast d h hfit hcap hph
    · exact execEncFlush_failsOnlyPast h hfit hcap hph
  · obtain ⟨st, hrefused⟩ := exec_of_not_coding hi hph
    exact ⟨_, hrefused _, fun _ => hrefused s.cfg, fun hlt => absurd (hfit n rfl) (Nat.not_le_of_gt hlt)⟩

end Sys2Proof.Machine
end

section
/-! SUPPORT. The command word as two numbers, its opcode and its low twelve bits: what the encoder writes into them and
what the decoder reads from them, so that each undoes the other (spec/30_encoding.md rules R40 to R45, R49). -/

namespace Sys2Proof.Machine

/-! ### The fields of a word (R40, R42) -/

theorem opField_toNat (w : Word) : (opField w).toNat = w.toNat / 4096 := by
  rw [opField, BitVec.extractLsb'_toNat, Nat.shiftRight_eq_div_pow]
  omega

theorem indexField_toNat (w : Word) : (indexField w).toNat = w.toNat % 128 := by
  rw [indexField, BitVec.extractLsb'_toNat, Nat.shiftRight_zero]

theorem bitField_toNat (w : Word) : (bitField w).toNat = w.toNat % 2 := by
  rw [bitField, ← BitVec.testBit_toNat, Nat.testBit_zero]
  obtain h | h := Nat.mod_two_eq_zero_or_one w.toNat <;> simp [h]

theorem bitField_eq {w : Word} {d : Bool} (h : w.toNat % 2 = d.toNat) : bitField w = d := by
  rw [bitField, ← BitVec.testBit_toNat, Nat.testBit_zero, h]
  cases d <;> rfl

theorem reservedN_iff (w : Word) : w.extractLsb' 0 12 = 0 ↔ w.toNat % 4096 = 0 := by
  rw [← BitVec.toNat_inj, BitVec.extractLsb'_toNat, Nat.shiftRight_zero]
  rfl

theorem reservedB_iff (w : Word) : w.extractLsb' 1 11 = 0 ↔ w.toNat % 4096 / 2 = 0 := by
  rw [← BitVec.toNat_inj, BitVec.extractLsb'_toNat, Nat.shiftRight_eq_div_pow]
  exact iff_of_eq (congrArg (· = 0) (by omega))

theorem reservedS_iff (w : Word) : w.extractLsb' 7 5 = 0 ↔ w.toNat % 4096 / 128 = 0 := by
  rw [← BitVec.toNat_inj, BitVec.extractLsb'_toNat, Nat.shiftRight_eq_div_pow]
  exact iff_of_eq (congrArg (· = 0) (by omega))

/-! ### The three formats (R43, R44) -/

theorem decodeN_eq_ok_iff {w : Word} {i j : Instr} : decodeN w i = .ok j ↔ w.toNat % 4096 = 0 ∧ i = j := by
  simp only [decodeN, reservedN_iff]
  split <;> simp [*]

theorem decodeB_eq_ok_iff {w : Word} {mk : Bool → Instr} {j : Instr} :
    decodeB w mk = .ok j ↔ ∃ d : Bool, w.toNat % 4096 = d.toNat ∧ mk d = j := by
  have hbit := bitField_toNat w
  simp only [decodeB, reservedB_iff]
  split
  next hres =>
    refine ⟨fun h => ⟨bitField w, by omega, Except.ok.inj h⟩, ?_⟩
    rintro ⟨d, hd, rfl⟩
    rw [bitField_eq (by omega : w.toNat % 2 = d.toNat)]
  next hres =>
    refine ⟨nofun, ?_⟩
    rintro ⟨d, hd, -⟩
    have := d.toNat_lt
    omega

theorem decodeS_eq_ok_iff {w : Word} {mk : BitVec 7 → Instr} {j : Instr} :
    decodeS w mk = .ok j ↔ ∃ s : BitVec 7, w.toNat % 4096 = s.toNat ∧ s ≤ 112 ∧ mk s = j := by
  have hindex := indexField_toNat w
  have field : ∀ s : BitVec 7, w.toNat % 4096 = s.toNat → w.toNat % 4096 / 128 = 0 ∧ indexField w = s := fun s hs =>
    ⟨by omega, BitVec.eq_of_toNat_eq (by omega)⟩
  simp only [decodeS, reservedS_iff]
  split
  next hres =>
    split
    next hle =>
      refine ⟨fun h => ⟨indexField w, by omega, hle, Except.ok.inj h⟩, ?_⟩
      rintro ⟨s, hs, -, rfl⟩
      rw [(field s hs).2]
    next hgt =>
      refine ⟨nofun, ?_⟩
      rintro ⟨s, hs, hle, -⟩
      exact absurd ((field s hs).2 ▸ hle) hgt
  next hres =>
    refine ⟨nofun, ?_⟩
    rintro ⟨s, hs, -, -⟩
    exact absurd (field s hs).1 hres

/-! ### The word of a command (R41, R42) -/

/-- `OP` of a command (R41). -/
def opcode : Instr → Nat
  | .encInit => 0x1
  | .encBit _ => 0x2
  | .encFlush => 0x3
  | .decInit _ => 0x4
  | .decBit => 0x5
  | .tblQe _ => 0x8
  | .tblNlps _ => 0x9
  | .tblNmps _ => 0xA
  | .tblSwitch _ => 0xB

/-- The low twelve bits of a command's word: its operand, in the places of R42. -/
def operand : Instr → Nat
  | .encInit => 0
  | .encBit d => d.toNat
  | .encFlush => 0
  | .decInit _ => 0
  | .decBit => 0
  | .tblQe s => s.toNat
  | .tblNlps s => s.toNat
  | .tblNmps s => s.toNat
  | .tblSwitch s => s.toNat

theorem operand_lt (i : Instr) : operand i < 128 := by
  cases i with
  | encBit d => exact d.toNat_lt.trans (by decide)
  | tblQe s => exact s.isLt
  | tblNlps s => exact s.isLt
  | tblNmps s => exact s.isLt
  | tblSwitch s => exact s.isLt
  | encInit => exact Nat.zero_lt_succ _
  | encFlush => exact Nat.zero_lt_succ _
  | decInit _ => exact Nat.zero_lt_succ _
  | decBit => exact Nat.zero_lt_succ _

/-- The opcode and an index occupy different bits of the word. -/
theorem or_index_toNat {base : Word} {op : Nat} (hbase : base.toNat = op * 4096) (s : BitVec 7) :
    (base ||| s.setWidth 16).toNat = op * 4096 + s.toNat := by
  have hs : s.toNat < 2 ^ 12 := s.isLt.trans (by decide)
  rw [BitVec.toNat_or, hbase, BitVec.toNat_setWidth, Nat.mod_eq_of_lt (by omega), ← Nat.shiftLeft_eq op 12,
    Nat.shiftLeft_add_eq_or_of_lt hs]

theorem encode_toNat (i : Instr) : (encode i).toNat = opcode i * 4096 + operand i := by
  cases i with
  | encInit => rfl
  | encBit d => cases d <;> rfl
  | encFlush => rfl
  | decInit _ => rw [encode, opcode, operand]; rfl
  | decBit => rfl
  | tblQe s => exact or_index_toNat (op := 0x8) rfl s
  | tblNlps s => exact or_index_toNat (op := 0x9) rfl s
  | tblNmps s => exact or_index_toNat (op := 0xA) rfl s
  | tblSwitch s => exact or_index_toNat (op := 0xB) rfl s

/-- A word is a command's when it has the command's opcode and operand. -/
theorem encode_eq_iff {i : Instr} {w : Word} :
    encode i = w ↔ w.toNat / 4096 = opcode i ∧ w.toNat % 4096 = operand i := by
  have hi := encode_toNat i
  have hlt := operand_lt i
  rw [← BitVec.toNat_inj]
  omega

theorem encode_fields (i : Instr) : (encode i).toNat / 4096 = opcode i ∧ (encode i).toNat % 4096 = operand i :=
  encode_eq_iff.mp rfl

/-! ### Decoding and encoding -/

/-- The word of a legal command decodes to it; the side-band bytes count for `dec.init` only (R45, R49). -/
theorem decode_encode {i : Instr} {inp : List Byte} (hwf : i.wf = true) (hinp : ∀ l, i = .decInit l → l = inp) :
    decode (encode i) inp = .ok i := by
  obtain ⟨hop, hlow⟩ := encode_fields i
  rw [← opField_toNat] at hop
  unfold decode
  rw [hop]
  cases i with
  | encInit => exact decodeN_eq_ok_iff.mpr ⟨hlow, rfl⟩
  | encBit d => exact decodeB_eq_ok_iff.mpr ⟨d, hlow, rfl⟩
  | encFlush => exact decodeN_eq_ok_iff.mpr ⟨hlow, rfl⟩
  | decInit l => exact decodeN_eq_ok_iff.mpr ⟨hlow, by rw [hinp l rfl]⟩
  | decBit => exact decodeN_eq_ok_iff.mpr ⟨hlow, rfl⟩
  | tblQe s => exact decodeS_eq_ok_iff.mpr ⟨s, hlow, of_decide_eq_true hwf, rfl⟩
  | tblNlps s => exact decodeS_eq_ok_iff.mpr ⟨s, hlow, of_decide_eq_true hwf, rfl⟩
  | tblNmps s => exact decodeS_eq_ok_iff.mpr ⟨s, hlow, of_decide_eq_true hwf, rfl⟩
  | tblSwitch s => exact decodeS_eq_ok_iff.mpr ⟨s, hlow, of_decide_eq_true hwf, rfl⟩

/-- What a word that decodes has to be, opcode by opcode (R45). -/
theorem decode_eq_ok {w : Word} {inp : List Byte} {i : Instr} (h : decode w inp = .ok i) :
    i.wf = true ∧ encode i = w ∧ ∀ l, i = .decInit l → l = inp := by
  rw [encode_eq_iff, ← opField_toNat]
  unfold decode at h
  split at h
  next hop =>
    obtain ⟨hlow, rfl⟩ := decodeN_eq_ok_iff.mp h
    exact ⟨rfl, ⟨hop, hlow⟩, nofun⟩
  next hop =>
    obtain ⟨d, hlow, rfl⟩ := decodeB_eq_ok_iff.mp h
    exact ⟨rfl, ⟨hop, hlow⟩, nofun⟩
  next hop =>
    obtain ⟨hlow, rfl⟩ := decodeN_eq_ok_iff.mp h
    exact ⟨rfl, ⟨hop, hlow⟩, nofun⟩
  next hop =>
    obtain ⟨hlow, rfl⟩ := decodeN_eq_ok_iff.mp h
    exact ⟨rfl, ⟨hop, hlow⟩, fun l hl => (Instr.decInit.inj hl).symm⟩
  next hop =>
    obtain ⟨hlow, rfl⟩ := decodeN_eq_ok_iff.mp h
    exact ⟨rfl, ⟨hop, hlow⟩, nofun⟩
  next hop =>
    obtain ⟨s, hlow, hs, rfl⟩ := decodeS_eq_ok_iff.mp h
    exact ⟨decide_eq_true hs, ⟨hop, hlow⟩, nofun⟩
  next hop =>
    obtain ⟨s, hlow, hs, rfl⟩ := decodeS_eq_ok_iff.mp h
    exact ⟨decide_eq_true hs, ⟨hop, hlow⟩, nofun⟩
  next hop =>
    obtain ⟨s, hlow, hs, rfl⟩ := decodeS_eq_ok_iff.mp h
    exact ⟨decide_eq_true hs, ⟨hop, hlow⟩, nofun⟩
  next hop =>
    obtain ⟨s, hlow, hs, rfl⟩ := decodeS_eq_ok_iff.mp h
    exact ⟨decide_eq_true hs, ⟨hop, hlow⟩, nofun⟩
  next => cases h

/-- The decoder is the inverse of the encoder on the legal commands. -/
theorem decode_eq_ok_iff {w : Word} {inp : List Byte} {i : Instr} :
    decode w inp = .ok i ↔ i.wf = true ∧ encode i = w ∧ ∀ l, i = .decInit l → l = inp :=
  ⟨decode_eq_ok, fun ⟨hwf, hw, hinp⟩ => hw ▸ decode_encode hwf hinp⟩

/-- Settles O1: the encoder fills the fields that the decoder of the same opcode reads. -/
theorem decodeOfEncodeIsTheCommand : Obligations.DecodeOfEncodeIsTheCommand := by
  intro i hwf
  refine decode_encode hwf ?_
  rintro l rfl
  rfl

/-- Settles O2: each arm of the decoder accepts only the words its command encodes to. -/
theorem decodedWordEncodesBack : Obligations.DecodedWordEncodesBack :=
  fun _ _ _ => decode_eq_ok

/-- Settles O6: each word is the one its command encodes to. -/
theorem sampleWordsDecode : Obligations.SampleWordsDecode :=
  ⟨decode_encode (i := .encInit) rfl nofun, decode_encode (i := .encBit true) rfl nofun,
    decode_encode (i := .decInit [0xFF, 0x00]) rfl fun _ hl => (Instr.decInit.inj hl).symm,
    decode_encode (i := .tblNmps 13) rfl nofun, decode_encode (i := .tblSwitch 112) rfl nofun⟩

end Sys2Proof.Machine
end

section
/-! SUPPORT. Which words are legal, as a condition on the number of the word, and what that gives: the list of R45, the
illegal words of R44 and their refusal, and the agreement with the rows of the opcode table (spec/30_encoding.md rules
R43 to R45; spec/60_exceptions.md rule R102). -/

namespace Sys2Proof.Machine

/-! ### The legal words -/

/-- R45 on the number `n` of a word: the opcode is one of R41 and the low twelve bits are an operand of its format. -/
def LegalNumber (n : Nat) : Prop :=
  (n / 4096 = 0x1 ∨ n / 4096 = 0x3 ∨ n / 4096 = 0x4 ∨ n / 4096 = 0x5) ∧ n % 4096 = 0 ∨
  n / 4096 = 0x2 ∧ n % 4096 ≤ 1 ∨
  (0x8 ≤ n / 4096 ∧ n / 4096 ≤ 0xB) ∧ n % 4096 ≤ 112

theorem legalNumber_encode {i : Instr} (hwf : i.wf = true) : LegalNumber (encode i).toNat := by
  obtain ⟨hop, hlow⟩ := encode_fields i
  have index : ∀ s : BitVec 7, decide (s ≤ 112) = true → s.toNat ≤ 112 := fun s hs => of_decide_eq_true hs
  rw [LegalNumber, hop, hlow]
  cases i with
  | encInit => exact .inl ⟨.inl rfl, rfl⟩
  | encBit d => exact .inr (.inl ⟨rfl, d.toNat_le⟩)
  | encFlush => exact .inl ⟨.inr (.inl rfl), rfl⟩
  | decInit _ => exact .inl ⟨.inr (.inr (.inl rfl)), rfl⟩
  | decBit => exact .inl ⟨.inr (.inr (.inr rfl)), rfl⟩
  | tblQe s => exact .inr (.inr ⟨by simp [opcode], index s hwf⟩)
  | tblNlps s => exact .inr (.inr ⟨by simp [opcode], index s hwf⟩)
  | tblNmps s => exact .inr (.inr ⟨by simp [opcode], index s hwf⟩)
  | tblSwitch s => exact .inr (.inr ⟨by simp [opcode], index s hwf⟩)

/-- A word of a format-S opcode with a legal low part is an accessor's. -/
theorem exists_index {w : Word} (h : w.toNat % 4096 ≤ 112) :
    ∃ s : BitVec 7, w.toNat % 4096 = s.toNat ∧ decide (s ≤ 112) = true :=
  ⟨BitVec.ofNat 7 (w.toNat % 4096), by rw [BitVec.toNat_ofNat]; omega,
    decide_eq_true (by rw [BitVec.le_def, BitVec.toNat_ofNat]; exact (Nat.mod_le _ _).trans h)⟩

theorem exists_bit {n : Nat} (h : n ≤ 1) : ∃ d : Bool, n = d.toNat := by
  obtain rfl | rfl := Nat.le_one_iff_eq_zero_or_eq_one.mp h
  · exact ⟨false, rfl⟩
  · exact ⟨true, rfl⟩

/-- Every legal number is that of some command's word. -/
theorem exists_command {w : Word} (inp : List Byte) (h : LegalNumber w.toNat) : ∃ i, decode w inp = .ok i := by
  have found : ∀ i : Instr, i.wf = true → (∀ l, i = .decInit l → l = inp) → w.toNat / 4096 = opcode i →
      w.toNat % 4096 = operand i → ∃ i, decode w inp = .ok i := fun i hwf hinp hop hlow =>
    ⟨i, decode_eq_ok_iff.mpr ⟨hwf, encode_eq_iff.mpr ⟨hop, hlow⟩, hinp⟩⟩
  obtain ⟨hop | hop | hop | hop, hlow⟩ | ⟨hop, hlow⟩ | ⟨hop, hlow⟩ := h
  · exact found .encInit rfl nofun hop hlow
  · exact found .encFlush rfl nofun hop hlow
  · exact found (.decInit inp) rfl (fun l hl => (Instr.decInit.inj hl).symm) hop hlow
  · exact found .decBit rfl nofun hop hlow
  · obtain ⟨d, hd⟩ := exists_bit hlow
    exact found (.encBit d) rfl nofun hop hd
  · obtain ⟨s, hs, hwf⟩ := exists_index hlow
    obtain hop | hop | hop | hop :
        w.toNat / 4096 = 0x8 ∨ w.toNat / 4096 = 0x9 ∨ w.toNat / 4096 = 0xA ∨ w.toNat / 4096 = 0xB := by omega
    · exact found (.tblQe s) hwf nofun hop hs
    · exact found (.tblNlps s) hwf nofun hop hs
    · exact found (.tblNmps s) hwf nofun hop hs
    · exact found (.tblSwitch s) hwf nofun hop hs

theorem decodes_iff (w : Word) (inp : List Byte) : (∃ i, decode w inp = .ok i) ↔ LegalNumber w.toNat := by
  refine ⟨?_, exists_command inp⟩
  rintro ⟨i, hi⟩
  obtain ⟨hwf, rfl, -⟩ := decode_eq_ok hi
  exact legalNumber_encode hwf

/-! ### The list of R45 -/

/-- The numbers of the 458 words, as R45 lists them. -/
def legalWordList : List Nat :=
  [0x1000, 0x2000, 0x2001, 0x3000, 0x4000, 0x5000] ++
    (List.range' 0x8000 113 ++ (List.range' 0x9000 113 ++ (List.range' 0xA000 113 ++ List.range' 0xB000 113)))

theorem mem_legalWordList (n : Nat) : n ∈ legalWordList ↔ LegalNumber n := by
  simp only [legalWordList, List.mem_append, List.mem_cons, List.not_mem_nil, or_false, List.mem_range'_1, LegalNumber]
  omega

theorem nodup_legalWordList : legalWordList.Nodup := by
  have single : [0x1000, 0x2000, 0x2001, 0x3000, 0x4000, 0x5000].Nodup := by decide
  have block : ∀ base, (List.range' base 113).Nodup := fun _ => List.nodup_range'
  simp only [legalWordList, List.nodup_append, single, block, true_and, List.mem_append, List.mem_range'_1,
    List.mem_cons, List.not_mem_nil, or_false]
  refine ⟨⟨⟨?_, ?_⟩, ?_⟩, ?_⟩ <;> intros <;> omega

theorem length_legalWordList : legalWordList.length = 458 := by
  simp [legalWordList]

theorem decode_isOk_iff (w : Word) (inp : List Byte) : (decode w inp).isOk = true ↔ LegalNumber w.toNat := by
  rw [← decodes_iff w inp]
  cases decode w inp with
  | ok i => exact ⟨fun _ => ⟨i, rfl⟩, fun _ => rfl⟩
  | error why => exact ⟨nofun, nofun⟩

/-- The words that decode are, in some order, the words of the list. -/
theorem count_legal_words : ((List.range 65536).countP fun w => (decode (BitVec.ofNat 16 w) []).isOk) = 458 := by
  have hperm : ((List.range 65536).filter fun w => (decode (BitVec.ofNat 16 w) []).isOk).Perm legalWordList := by
    refine (List.perm_ext_iff_of_nodup (List.nodup_range.filter _) nodup_legalWordList).mpr fun n => ?_
    rw [List.mem_filter, List.mem_range, decode_isOk_iff, BitVec.toNat_ofNat, mem_legalWordList]
    refine ⟨fun ⟨hlt, hn⟩ => Nat.mod_eq_of_lt hlt ▸ hn, fun hn => ?_⟩
    have hlt : n < 65536 := by unfold LegalNumber at hn; omega
    exact ⟨hlt, (Nat.mod_eq_of_lt hlt).symm ▸ hn⟩
  rw [List.countP_eq_length_filter, hperm.length_eq, length_legalWordList]

/-- R45 writes an accessor's word as a sum. -/
theorem add_index_eq_or {base : Word} {op : Nat} (hbase : base.toNat = op * 4096) (s : BitVec 7) :
    base + s.setWidth 16 = base ||| s.setWidth 16 := by
  have hlt := (base ||| s.setWidth 16).isLt
  refine BitVec.eq_of_toNat_eq ?_
  rw [or_index_toNat hbase] at hlt ⊢
  rw [BitVec.toNat_add, BitVec.toNat_setWidth, hbase, Nat.mod_eq_of_lt (s.isLt.trans (by decide)),
    Nat.mod_eq_of_lt hlt]

/-- Settles O3: the listed words are their commands' words, a word decodes when its number is legal, and the legal
numbers are those of a list of 458. -/
theorem legalWordsAreTheListed458 : Obligations.LegalWordsAreTheListed458 := by
  refine ⟨fun inp => ?_, fun inp s hs => ?_, fun inp w => ?_, count_legal_words⟩
  · exact ⟨decode_encode (i := .encInit) rfl nofun, decode_encode (i := .encBit false) rfl nofun,
      decode_encode (i := .encBit true) rfl nofun, decode_encode (i := .encFlush) rfl nofun,
      decode_encode (i := .decInit inp) rfl fun l hl => (Instr.decInit.inj hl).symm,
      decode_encode (i := .decBit) rfl nofun⟩
  · have hwf : decide (s ≤ 112) = true := decide_eq_true hs
    rw [add_index_eq_or (op := 0x8) rfl, add_index_eq_or (op := 0x9) rfl, add_index_eq_or (op := 0xA) rfl,
      add_index_eq_or (op := 0xB) rfl]
    exact ⟨decode_encode (i := .tblQe s) hwf nofun, decode_encode (i := .tblNlps s) hwf nofun,
      decode_encode (i := .tblNmps s) hwf nofun, decode_encode (i := .tblSwitch s) hwf nofun⟩
  · rw [decodes_iff, LegalNumber]
    simp only [← BitVec.toNat_inj, BitVec.le_def, BitVec.ofNat_eq_ofNat, BitVec.toNat_ofNat]
    omega

/-! ### The illegal words (R44) -/

/-- The cases of R44 are those in which a word is not legal. -/
theorem illegal_iff (w : Word) :
    illegalOpcode w.toNat ∨ reservedBitSet w.toNat ∨ stateIndexTooHigh w.toNat ↔ ¬LegalNumber w.toNat := by
  unfold illegalOpcode reservedBitSet stateIndexTooHigh LegalNumber
  omega

theorem decode_error_iff (w : Word) (inp : List Byte) :
    (∃ why, decode w inp = .error why) ↔ ¬LegalNumber w.toNat := by
  rw [← decodes_iff w inp]
  cases decode w inp with
  | ok i => exact ⟨nofun, fun h => absurd ⟨i, rfl⟩ h⟩
  | error why => exact ⟨fun _ => nofun, fun _ => ⟨why, rfl⟩⟩

/-- The step on an illegal word takes it and refuses it (R102). -/
theorem step_of_decode_error {s : State} {w : Word} {inp : List Byte} {rest : List Input} {why : IllegalWord}
    (hinputs : s.inputs = .command w inp :: rest) (hdecode : decode w inp = .error why) :
    step s = refuse .illegal { s with inputs := rest } := by
  have hfetch : fetchInput s = .illegalWord why { s with inputs := rest } := by
    unfold fetchInput
    simp only [hinputs, hdecode]
  rw [step, hfetch]

/-- Settles O4: the cases of R44 are the negation of R45's condition, and a refusal touches only the inputs and the
responses, so the next command runs as `stepRunsTheDecodedCommand` says. -/
theorem illegalWordsAreRefused : Obligations.IllegalWordsAreRefused := by
  refine ⟨fun w inp => (decode_error_iff w inp).trans (illegal_iff w).symm, ?_, fun _ => rfl⟩
  intro s w inp rest hinputs ⟨why, hwhy⟩
  refine ⟨step_of_decode_error hinputs hwhy, fun w2 inp2 rest2 i hrest hi => ?_⟩
  exact stepRunsTheDecodedCommand { s with inputs := rest, responses := s.responses ++ [⟨.illegal, 0⟩] }
    w2 inp2 rest2 i hrest hi

/-! ### The rows of the opcode table -/

/-- Each command's own row accepts its word, and no row of another mnemonic does. -/
theorem rowMatch (i : Instr) : Laws.RowMatch.Statement i := by
  cases i with
  | encInit => exact Laws.RowMatch.encInit
  | encBit d => exact Laws.RowMatch.encBit d
  | encFlush => exact Laws.RowMatch.encFlush
  | decInit inp => exact Laws.RowMatch.decInit inp
  | decBit => exact Laws.RowMatch.decBit
  | tblQe s => exact Laws.RowMatch.tblQe s
  | tblNlps s => exact Laws.RowMatch.tblNlps s
  | tblNmps s => exact Laws.RowMatch.tblNmps s
  | tblSwitch s => exact Laws.RowMatch.tblSwitch s

/-- A mask that keeps all bits from `k` on pins the word's number from bit `k` on. -/
theorem toNat_div_of_and_eq {w mask v : Word} (k : Nat) (hmask : mask >>> k = BitVec.allOnes 16 >>> k)
    (h : w &&& mask = v) : w.toNat / 2 ^ k = v.toNat / 2 ^ k := by
  have hshift : w >>> k = v >>> k := by
    rw [← h, BitVec.ushiftRight_and_distrib, hmask, ← BitVec.ushiftRight_and_distrib, BitVec.and_allOnes]
  simpa [Nat.shiftRight_eq_div_pow] using congrArg BitVec.toNat hshift

theorem and_seven_bits_toNat (w : Word) : (w &&& 0x7F).toNat = w.toNat % 128 := by
  rw [BitVec.toNat_and]
  exact Nat.and_two_pow_sub_one_eq_mod w.toNat 7

theorem accepts_iff {row : OpcodeRow} {w : Word} :
    row.accepts w = true ↔ w &&& row.mask = row.word ∧ (row.indexed = true → w.toNat % 128 ≤ 112) := by
  have hindex : w &&& 0x7F ≤ 112 ↔ w.toNat % 128 ≤ 112 := by rw [BitVec.le_def, and_seven_bits_toNat]; rfl
  rw [OpcodeRow.accepts, Bool.and_eq_true, beq_iff_eq, Bool.or_eq_true, decide_eq_true_eq, hindex]
  cases row.indexed <;> simp

/-- The rows by their format (R40): a row of format N has one word, that of format B two, one of format S those with the
match's opcode and an index. -/
theorem row_formats : ∀ row ∈ opcodeTable,
    (row.mask = 0xFFFF ∧ LegalNumber row.word.toNat) ∨ (row.mask = 0xFFFE ∧ row.word = 0x2000) ∨
      (row.mask = 0xFF80 ∧ row.indexed = true ∧ row.word.toNat % 4096 = 0 ∧
        0x8 ≤ row.word.toNat / 4096 ∧ row.word.toNat / 4096 ≤ 0xB) := by
  unfold LegalNumber
  decide

/-- A row accepts legal words only. -/
theorem legalNumber_of_accepts {row : OpcodeRow} {w : Word} (hrow : row ∈ opcodeTable) (h : row.accepts w = true) :
    LegalNumber w.toNat := by
  obtain ⟨hw, hindex⟩ := accepts_iff.mp h
  obtain ⟨hmask, hlegal⟩ | ⟨hmask, hword⟩ | ⟨hmask, hindexed, hlow, hop⟩ := row_formats row hrow
  · have hpin := toNat_div_of_and_eq 0 (hmask ▸ rfl) hw
    rw [pow_zero, Nat.div_one, Nat.div_one] at hpin
    exact hpin ▸ hlegal
  · have hpin := toNat_div_of_and_eq 1 (hmask ▸ rfl) hw
    rw [hword, show (0x2000 : Word).toNat = 0x2000 from rfl] at hpin
    unfold LegalNumber
    omega
  · have hpin := toNat_div_of_and_eq 7 (hmask ▸ rfl) hw
    have hle := hindex hindexed
    unfold LegalNumber
    omega

/-- The rows that accept the word of a legal command have its mnemonic, and there is one. -/
theorem mem_accepting_mnemonics {i : Instr} (hwf : i.wf = true) (m : String) :
    (∃ row ∈ opcodeTable, row.mnemonic = m ∧ row.accepts (encode i) = true) ↔ i.mnemonic = m := by
  have hmem : m ∈ (opcodeTable.filter fun row => row.accepts (encode i)).map OpcodeRow.mnemonic ↔ m = i.mnemonic := by
    rw [rowMatch i hwf, List.mem_singleton]
  rw [eq_comm (a := i.mnemonic), ← hmem]
  simp only [List.mem_map, List.mem_filter]
  exact ⟨fun ⟨row, hrow, hm, hacc⟩ => ⟨row, ⟨hrow, hacc⟩, hm⟩, fun ⟨row, ⟨hrow, hacc⟩, hm⟩ => ⟨row, hrow, hm, hacc⟩⟩

/-- Settles O5: a word that decodes is its command's, which the rows of its mnemonic alone accept; a word that some row
accepts decodes. -/
theorem decoderAgreesWithTheOpcodeTable : Obligations.DecoderAgreesWithTheOpcodeTable := by
  intro w inp m
  constructor
  · rintro ⟨i, hi, hm⟩
    obtain ⟨hwf, rfl, -⟩ := decode_eq_ok hi
    exact (mem_accepting_mnemonics hwf m).mpr hm
  · rintro ⟨row, hrow, hm, hacc⟩
    obtain ⟨i, hi⟩ := exists_command inp (legalNumber_of_accepts hrow hacc)
    obtain ⟨hwf, rfl, -⟩ := decode_eq_ok hi
    exact ⟨i, hi, (mem_accepting_mnemonics hwf m).mp ⟨row, hrow, hm, hacc⟩⟩

end Sys2Proof.Machine
end

section
/-! SUPPORT. The one response of each command in a good state: its status is one that R100 allows the command and its
value the one that R46 gives it (spec/30_encoding.md rule R46; spec/60_exceptions.md rules R100, R103 to R105). -/

namespace Sys2Proof.Machine

/-- The value R46 gives the response `r` of a command that led from `s` to `t`. -/
def ValueFits (s t : State) (r : Response) : Instr → Prop
  | .encInit => r.value = 0
  | .encBit _ => r.value = 0
  | .encFlush => (r.status ≠ .ok → r.value = 0) ∧
      (r.status = .ok → t.enc.out.length < 2 ^ 32 → r.value = BitVec.ofNat 32 t.enc.out.length)
  | .decInit _ => r.value = 0
  | .decBit => r.value = if s.dec.ph = .decoding ∧ isLps s.cfg s.dec ≠ s.dec.mps then 1 else 0
  | .tblQe n => ∀ idx : TableIndex, n.toNat = idx.val → r.value = zext32 (qe s.cfg idx)
  | .tblNlps n => ∀ idx : TableIndex, n.toNat = idx.val → r.value = indexValue (nextLps s.cfg idx)
  | .tblNmps n => ∀ idx : TableIndex, n.toNat = idx.val → r.value = indexValue (nextMps s.cfg idx)
  | .tblSwitch n => ∀ idx : TableIndex, n.toNat = idx.val → r.value = bitValue (switchMps s.cfg idx)

/-- The command answers a next state with one more response, of a status and a value allowed it. -/
def Responds (i : Instr) (s : State) : Prop :=
  ∃ t r, exec i s = .next t ∧ t.responses = s.responses ++ [r] ∧ mayRespond i r.status = true ∧ ValueFits s t r i

/-! ### The refusals outside an operation (R103 to R105) -/

theorem exec_encoder_refused {i : Instr} {s : State} (hi : (∃ d, i = .encBit d) ∨ i = .encFlush)
    (hph : s.enc.ph ≠ .coding) :
    ∃ st, (st = .capacityExceeded ∨ st = .notReady) ∧ exec i s = .next (respond st 0 s) := by
  obtain ⟨d, rfl⟩ | rfl := hi
  · show ∃ st, _ ∧ execEncBit d s = _
    unfold execEncBit
    cases h : s.enc.ph with
    | coding => exact absurd h hph
    | idle => exact ⟨_, .inr rfl, rfl⟩
    | done => exact ⟨_, .inr rfl, rfl⟩
    | failed => exact ⟨_, .inl rfl, rfl⟩
  · show ∃ st, _ ∧ execEncFlush s = _
    unfold execEncFlush
    cases h : s.enc.ph with
    | coding => exact absurd h hph
    | idle => exact ⟨_, .inr rfl, rfl⟩
    | done => exact ⟨_, .inr rfl, rfl⟩
    | failed => exact ⟨_, .inl rfl, rfl⟩

theorem execDecBit_refused {s : State} (hph : s.dec.ph ≠ .decoding) :
    ∃ st, (st = .malformed ∨ st = .notReady) ∧ execDecBit s = .next (respond st 0 s) := by
  unfold execDecBit
  cases h : s.dec.ph with
  | decoding => exact absurd h hph
  | idle => exact ⟨_, .inr rfl, rfl⟩
  | failed => exact ⟨_, .inl rfl, rfl⟩

/-! ### The encoder's commands -/

theorem encInit_responds (s : State) : Responds .encInit s :=
  ⟨_, ⟨.ok, 0⟩, rfl, rfl, rfl, rfl⟩

theorem encBit_responds {s : State} (d : Bool) (h : Inv s) : Responds (.encBit d) s := by
  by_cases hph : s.enc.ph = .coding
  · obtain ⟨e, k, -, -, hx⟩ | ⟨e, -, hx⟩ := execEncBit_coding d h.table (h.coding hph) hph
    · exact ⟨_, ⟨.ok, 0⟩, hx, rfl, rfl, rfl⟩
    · exact ⟨_, ⟨.capacityExceeded, 0⟩, hx, rfl, rfl, rfl⟩
  · obtain ⟨st, hst, hx⟩ := exec_encoder_refused (.inl ⟨d, rfl⟩) hph
    exact ⟨_, ⟨st, 0⟩, hx, rfl, by obtain rfl | rfl := hst <;> rfl, rfl⟩

/-- A completed flush responds OK, with the output length when it fits (R46, R67). -/
theorem respondLength_responses (s : State) :
    ∃ v, (respondLength s).responses = s.responses ++ [⟨.ok, v⟩] ∧
      (s.enc.out.length < 2 ^ 32 → v = BitVec.ofNat 32 s.enc.out.length) := by
  unfold respondLength
  split
  next => exact ⟨_, rfl, fun _ => rfl⟩
  next hlong => exact ⟨_, rfl, fun hlt => absurd hlt hlong⟩

theorem encFlush_responds {s : State} (h : Inv s) : Responds .encFlush s := by
  by_cases hph : s.enc.ph = .coding
  · obtain ⟨e, -, -, -, hx⟩ | ⟨e, -, hx⟩ := execEncFlush_coding (h.coding hph) hph
    · obtain ⟨v, hresp, hv⟩ := respondLength_responses { s with enc := e }
      refine ⟨_, ⟨.ok, v⟩, hx, hresp, rfl, fun hne => absurd rfl hne, fun _ => ?_⟩
      rw [respondLength_enc]
      exact hv
    · exact ⟨_, ⟨.capacityExceeded, 0⟩, hx, rfl, rfl, fun _ => rfl, nofun⟩
  · obtain ⟨st, hst, hx⟩ := exec_encoder_refused (.inr rfl) hph
    obtain rfl | rfl := hst
    · exact ⟨_, ⟨.capacityExceeded, 0⟩, hx, rfl, rfl, fun _ => rfl, nofun⟩
    · exact ⟨_, ⟨.notReady, 0⟩, hx, rfl, rfl, fun _ => rfl, nofun⟩

/-! ### The decoder's commands -/

theorem statusD_cases (d : Dec) : statusD d = .ok ∨ statusD d = .exhausted ∨ statusD d = .malformed := by
  have running : ∀ st : Status, st = (if d.avail = 0 then .exhausted else .ok) →
      st = .ok ∨ st = .exhausted ∨ st = .malformed := by
    rintro st rfl
    split
    · exact .inr (.inl rfl)
    · exact .inl rfl
  unfold statusD
  cases d.ph with
  | failed => exact .inr (.inr rfl)
  | idle => exact running _ rfl
  | decoding => exact running _ rfl

theorem decInit_responds (inp : List Byte) (s : State) : Responds (.decInit inp) s := by
  refine ⟨_, ⟨statusD (initDecoder inp), 0⟩, rfl, rfl, ?_, rfl⟩
  obtain h | h | h := statusD_cases (initDecoder inp) <;> simp only [h] <;> rfl

theorem bitValue_bne (a b : Bool) : bitValue (a != b) = if a ≠ b then 1 else 0 := by
  cases a <;> cases b <;> rfl

theorem decBit_responds {s : State} (h : Inv s) : Responds .decBit s := by
  by_cases hph : s.dec.ph = .decoding
  · obtain ⟨d, k, -, hx⟩ := execDecBit_decoding h.table (h.decoding hph) hph h.cursor
    refine ⟨_, ⟨statusD d, bitValue (isLps s.cfg s.dec != s.dec.mps)⟩, hx, rfl, ?_, ?_⟩
    · obtain hst | hst | hst := statusD_cases d <;> simp only [hst] <;> rfl
    · simp only [ValueFits, hph, true_and, bitValue_bne]
  · obtain ⟨st, hst, hx⟩ := execDecBit_refused hph
    refine ⟨_, ⟨st, 0⟩, hx, rfl, by obtain rfl | rfl := hst <;> rfl, ?_⟩
    simp only [ValueFits, hph, false_and, if_false]

/-! ### The accessors -/

/-- An accessor with a legal index responds OK with the value of that row (R52 to R55). -/
theorem tableRead_of_le {n : BitVec 7} (hn : n ≤ 112) (value : TableIndex → BitVec 32) (s : State) :
    ∃ v, tableRead n value s = .next (respond .ok v s) ∧ ∀ idx : TableIndex, n.toNat = idx.val → v = value idx := by
  have hlt : n.toNat < 113 := Nat.lt_succ_of_le hn
  refine ⟨value ⟨n.toNat, hlt⟩, ?_, fun idx hidx => congrArg value (Fin.ext hidx)⟩
  rw [tableRead, tableOperand, dif_pos hlt]

theorem tblQe_responds {n : BitVec 7} (hn : n ≤ 112) (s : State) : Responds (.tblQe n) s := by
  obtain ⟨v, hx, hv⟩ := tableRead_of_le hn (fun idx => zext32 (qe s.cfg idx)) s
  exact ⟨_, ⟨.ok, v⟩, hx, rfl, rfl, hv⟩

theorem tblNlps_responds {n : BitVec 7} (hn : n ≤ 112) (s : State) : Responds (.tblNlps n) s := by
  obtain ⟨v, hx, hv⟩ := tableRead_of_le hn (fun idx => indexValue (nextLps s.cfg idx)) s
  exact ⟨_, ⟨.ok, v⟩, hx, rfl, rfl, hv⟩

theorem tblNmps_responds {n : BitVec 7} (hn : n ≤ 112) (s : State) : Responds (.tblNmps n) s := by
  obtain ⟨v, hx, hv⟩ := tableRead_of_le hn (fun idx => indexValue (nextMps s.cfg idx)) s
  exact ⟨_, ⟨.ok, v⟩, hx, rfl, rfl, hv⟩

theorem tblSwitch_responds {n : BitVec 7} (hn : n ≤ 112) (s : State) : Responds (.tblSwitch n) s := by
  obtain ⟨v, hx, hv⟩ := tableRead_of_le hn (fun idx => bitValue (switchMps s.cfg idx)) s
  exact ⟨_, ⟨.ok, v⟩, hx, rfl, rfl, hv⟩

/-! ### Every command -/

theorem exec_responds {i : Instr} {s : State} (h : Inv s) (hwf : i.wf = true) : Responds i s := by
  cases i with
  | encInit => exact encInit_responds s
  | encBit d => exact encBit_responds d h
  | encFlush => exact encFlush_responds h
  | decInit inp => exact decInit_responds inp s
  | decBit => exact decBit_responds h
  | tblQe n => exact tblQe_responds (of_decide_eq_true hwf) s
  | tblNlps n => exact tblNlps_responds (of_decide_eq_true hwf) s
  | tblNmps n => exact tblNmps_responds (of_decide_eq_true hwf) s
  | tblSwitch n => exact tblSwitch_responds (of_decide_eq_true hwf) s

theorem bitValue_eq_ite (b : Bool) : bitValue b = if b then 1 else 0 := by
  cases b <;> rfl

/-- `isLps` with its tests written on the numbers themselves, as R85 does. -/
theorem isLps_eq (cfg : Config) (d : Dec) :
    isLps cfg d =
      if decLow cfg d ≤ d.c.toNat then decide ((qe cfg d.idx).toNat ≤ decLow cfg d)
      else decide (decLow cfg d < 0x8000 ∧ decLow cfg d < (qe cfg d.idx).toNat) := by
  simp only [isLps, inUpper, decide_eq_true_eq]

/-- Settles O35: each command's own lemma gives its response; the statement's clauses are `ValueFits`, command by
command. -/
theorem everyCommandRespondsOnce : Obligations.EveryCommandRespondsOnce := by
  intro i s h hwf
  obtain ⟨t, r, hx, hresp, hstatus, hvalue⟩ := exec_responds h hwf
  refine ⟨t, r, hx, hresp, hstatus, ?_, ?_, ?_, fun n idx hidx => ⟨?_, ?_, ?_, ?_⟩⟩
  · rintro (rfl | ⟨d, rfl⟩ | ⟨inp, rfl⟩) <;> exact hvalue
  · rintro rfl
    exact hvalue
  · rintro rfl
    rw [ValueFits, isLps_eq] at hvalue
    exact hvalue
  · rintro rfl
    exact hvalue idx hidx
  · rintro rfl
    exact hvalue idx hidx
  · rintro rfl
    exact hvalue idx hidx
  · rintro rfl
    exact (hvalue idx hidx).trans (bitValue_eq_ite _)

end Sys2Proof.Machine
end

section
/-! SUPPORT. Regrouping the bits of bytes (spec/30_encoding.md rule R47; spec/42_decoder.md rule R91). -/

namespace Sys2Proof.Machine

/-- The host's byte of a byte's eight bits is that byte (R47). -/
theorem byteOfBits_byteBits (v : Byte) :
    byteOfBits (v.getLsbD 7) (v.getLsbD 6) (v.getLsbD 5) (v.getLsbD 4) (v.getLsbD 3) (v.getLsbD 2) (v.getLsbD 1)
      (v.getLsbD 0) = v := by
  revert v; decide +kernel

theorem regroup_byteBits_append (v : Byte) (bits : List Bool) : regroup (byteBits v ++ bits) = v :: regroup bits :=
  congrArg (· :: regroup bits) (byteOfBits_byteBits v)

/-- An incomplete group is dropped (R91). -/
theorem regroup_of_length_lt {bits : List Bool} (h : bits.length < 8) : regroup bits = [] := by
  unfold regroup
  split
  next => simp only [List.length_cons] at h; omega
  next => rfl

/-- Settles O47, by induction on the bytes. -/
theorem regroupingRecoversTheBytes : Obligations.RegroupingRecoversTheBytes := by
  intro vs extra hextra
  induction vs with
  | nil => exact regroup_of_length_lt hextra
  | cons v vs ih => rw [List.flatMap_cons, List.append_assoc, regroup_byteBits_append, ih]

end Sys2Proof.Machine
end

section
/-! SUPPORT. The accessors: the response of each index, and the corner cases of the rows of R50
(spec/40_probability_table.md rules R50 to R56; notes/assumptions/13.md, notes/assumptions/15.md). -/

namespace Sys2Proof.Machine

/-! ### The template of the four commands (R52 to R55) -/

theorem tableRead_of_index {n : BitVec 7} {idx : TableIndex} (h : n.toNat = idx.val) (value : TableIndex → BitVec 32)
    (s : State) : tableRead n value s = .next (respond .ok (value idx) s) := by
  obtain ⟨v, hx, hv⟩ := tableRead_of_le (Nat.le_of_lt_succ (h ▸ idx.isLt)) value s
  rw [hx, hv idx h]

/-- Above 112 `exec` answers as the decoder does for the word (notes/assumptions/15.md). -/
theorem tableRead_of_gt {n : BitVec 7} (h : 112 < n.toNat) (value : TableIndex → BitVec 32) (s : State) :
    tableRead n value s = .next (respond .illegal 0 s) := by
  rw [tableRead, tableOperand, dif_neg (by omega), refuse]

/-! ### `tbl.qe` (R52) -/

theorem qe_default_eq_largest_iff (idx : TableIndex) : qe defaultConfig idx = 0x5B12 ↔ idx = 64 := by
  revert idx; decide +kernel

theorem qe_default_eq_one_iff (idx : TableIndex) : qe defaultConfig idx = 1 ↔ idx = 13 := by
  revert idx; decide +kernel

/-- Settles O9: the bounds are those of R56, which the table of R50 meets; the rows that reach them are found by going
through the table. -/
theorem tblQeReadsQe : Obligations.TblQeReadsQe := by
  refine ⟨fun s n idx h => ⟨tableRead_of_index h _ s, rfl⟩, fun s n h => tableRead_of_gt h _ s, fun idx => ?_,
    rfl⟩
  obtain ⟨hlow, hhigh⟩ := qe_bounds defaultConfig_ok idx
  exact ⟨hhigh, qe_default_eq_largest_iff idx, hlow, qe_default_eq_one_iff idx, Nat.lt_of_le_of_lt hhigh (by decide)⟩

/-! ### `tbl.nlps` (R53) -/

theorem nextLps_default_eq_self_iff (idx : TableIndex) :
    nextLps defaultConfig idx = idx ↔ idx ∈ ([80, 88, 95, 105, 110, 112] : List TableIndex) := by
  revert idx; decide +kernel

/-- Settles O10: the response is the template's; the rows that are their own LPS successor are found by going through
the table. -/
theorem tblNlpsReadsNextLps : Obligations.TblNlpsReadsNextLps :=
  ⟨fun s _ _ h => ⟨tableRead_of_index h _ s, rfl⟩, fun s _ h => tableRead_of_gt h _ s, nextLps_default_eq_self_iff,
    rfl⟩

/-! ### `tbl.nmps` (R54) -/

/-- An MPS narrows the estimate, except in the row that is its own successor. -/
theorem qe_nextMps_default_lt (idx : TableIndex) (h : idx ≠ 13) :
    qe defaultConfig (nextMps defaultConfig idx) < qe defaultConfig idx := by
  revert idx; decide +kernel

theorem nextMps_default_eq_self_iff (idx : TableIndex) : nextMps defaultConfig idx = idx ↔ idx = 13 := by
  constructor
  · intro hself
    by_contra hne
    have hlt := qe_nextMps_default_lt idx hne
    rw [hself] at hlt
    exact BitVec.lt_irrefl _ hlt
  · rintro rfl
    rfl

theorem nextMps_default_val_eq_succ (idx : TableIndex)
    (h : idx.val ∉ [13, 35, 63, 79, 87, 94, 100, 104, 107, 109, 111, 112]) :
    (nextMps defaultConfig idx).val = idx.val + 1 := by
  revert idx; decide +kernel

/-- Settles O11: the response is the template's; the row that is its own MPS successor is the one from which `qe` does
not fall. -/
theorem tblNmpsReadsNextMps : Obligations.TblNmpsReadsNextMps :=
  ⟨fun s _ _ h => ⟨tableRead_of_index h _ s, rfl⟩, fun s _ h => tableRead_of_gt h _ s, nextMps_default_eq_self_iff,
    qe_nextMps_default_lt, nextMps_default_val_eq_succ, rfl, rfl⟩

/-! ### `tbl.switch` (R55) -/

theorem switchMps_default_iff (idx : TableIndex) : switchMps defaultConfig idx = true ↔
    idx ∈ ([0, 14, 36, 64, 80, 88, 95, 105, 110, 112] : List TableIndex) := by
  revert idx; decide +kernel

/-- Settles O12: the response is the template's, with the bit as R46 widens it; the rows that switch are found by going
through the table. -/
theorem tblSwitchReadsSwitchMps : Obligations.TblSwitchReadsSwitchMps := by
  refine ⟨fun s n idx h => ⟨?_, rfl⟩, fun s _ h => tableRead_of_gt h _ s, switchMps_default_iff,
    rfl, rfl⟩
  calc exec (.tblSwitch n) s = .next (respond .ok (bitValue (switchMps s.cfg idx)) s) := tableRead_of_index h _ s
    _ = .next (respond .ok (if switchMps s.cfg idx then 1 else 0) s) := by rw [bitValue_eq_ite]

end Sys2Proof.Machine
end

section
/-! SUPPORT. The encoder's commands in a good state (spec/41_encoder.md rules R60 to R70): `enc.bit` as exact interval
coding, `enc.flush` and the code its bytes stand for. -/

namespace Sys2Proof.Machine

/-! ### `enc.init` (R60) -/

/-- Only `enc.init` takes the encoder out of FAILED (R60, R104). -/
theorem EncEvent.encInit_of_leaves_failed {i : Instr} {s t : State} (h : EncEvent s t i) (hs : s.enc.ph = .failed)
    (ht : t.enc.ph ≠ .failed) : i = .encInit := by
  obtain hkept | ⟨hi, -⟩ | ⟨hcoding, -⟩ | ⟨hcoding, -⟩ := h.phase
  · exact absurd (hkept.trans hs) ht
  · exact hi
  · cases hs.symm.trans hcoding
  · cases hs.symm.trans hcoding

/-- Settles O13: `enc.init` reads no phase, and the encoder's events say which command leaves FAILED. -/
theorem encInitOpensAnOperation : Obligations.EncInitOpensAnOperation :=
  ⟨rfl, fun s => ⟨Config.freeBytes s.free, rfl⟩, fun _ _ _ hs hx ht =>
    (exec_encEvent hx).encInit_of_leaves_failed hs ht⟩

/-! ### `enc.bit` (R61 to R65) -/

theorem execEncBit_of_coding {s : State} (d : Bool) (hph : s.enc.ph = .coding) :
    execEncBit d s = endEncoder (respond .ok 0) (encodeBit s.cfg d s.enc) s := by
  rw [execEncBit, hph]

/-- The fast path of CODE_MPS (R62). -/
theorem encodeBit_mps_fast {cfg : Config} {e : Enc} (h : 0x8000 + (qe cfg e.idx).toNat ≤ e.a.toNat) :
    encodeBit cfg e.mps e = .finished { e with a := e.a - qeWide (qe cfg e.idx) } := by
  have hfast : (0x8000 : BitVec 17) ≤ e.a - qeWide (qe cfg e.idx) := by
    rw [BitVec.le_def, sub_qeWide_toNat (by omega), show (0x8000 : BitVec 17).toNat = 0x8000 from rfl]
    omega
  rw [encodeBit, if_pos rfl, codeMps]
  exact if_pos hfast

/-- Settles O16: the bit is the fast path's, and the command ends as its procedure does. -/
theorem encBitFastPathChangesOnlyA : Obligations.EncBitFastPathChangesOnlyA := by
  intro s hph hfast
  refine ⟨s.enc.a - qeWide (qe s.cfg s.enc.idx), sub_qeWide_toNat (by omega), ?_⟩
  show execEncBit s.enc.mps s = _
  rw [execEncBit_of_coding _ hph, encodeBit_mps_fast hfast]
  rfl

/-- A command that need not fail, having no capacity or not ending in FAILED, does not fail. -/
theorem not_stopped_of_completes {o : Host.Outcome State Fault Refusal} {s : State} {e : Enc}
    (hallowed : s.cfg.outCap = none ∨ ∃ t, o = .next t ∧ t.enc.ph ≠ .failed)
    (hstop : Stopped s.cfg.outCap s.enc e) : o ≠ .next (respond .capacityExceeded 0 { s with enc := e }) := by
  rintro rfl
  obtain hcap | ⟨t, ht, hph⟩ := hallowed
  · exact hstop.cap_ne_none hcap
  · cases ht
    exact hph hstop.ph

/-- Settles O17: a bit that does not stop on capacity is `BitCoded`, whose fields are the statement's clauses. -/
theorem encBitIsExactIntervalCoding : Obligations.EncBitIsExactIntervalCoding := by
  intro s d h hph hallowed
  obtain ⟨e, k, hbit, -, hx⟩ | ⟨e, hstop, hx⟩ := execEncBit_coding d h.table (h.coding hph) hph
  · exact ⟨e, k, hx, hbit.ph.trans hph, hbit.out, hbit.grows.grown, hbit.shifts, hbit.coding.aLow, hbit.aHigh,
      hbit.a, hbit.value, hbit.place, hbit.idx, hbit.mps⟩
  · exact absurd hx (not_stopped_of_completes hallowed hstop)

/-! ### `enc.flush` (R67 to R70) -/

/-- The registers a completed flush leaves: it clears `E.C` and `E.ST` and writes `E.OUT` (R67, R69). -/
theorem Flushed.eq {e e' : Enc} (h : Flushed e e') :
    e' = { e with ph := .done, c := 0, st := 0, obuf := e'.obuf, out := trim e'.obuf.tail } := by
  rw [← h.ph, ← h.a, ← h.done.code, ← h.ct, ← h.done.stacked, ← h.idx, ← h.mps, ← h.done.output]

/-- The bytes after the placeholder are well stuffed too. -/
theorem EncDone.stuffed_tail {e : Enc} (h : EncDone e) : stuffed e.obuf.tail = true := by
  have hstuffed := h.stuffing
  cases hbuf : e.obuf with
  | nil => rfl
  | cons b rest =>
    rw [hbuf] at hstuffed
    cases rest with
    | nil => rfl
    | cons c rest =>
      rw [stuffed_cons_cons, Bool.and_eq_true] at hstuffed
      exact hstuffed.2

/-- The response of a completed flush: OK, with the output length when it fits; only a free value moves the counter
(R46, R67; notes/assumptions/6.md). -/
theorem respondLength_eq (s : State) :
    ∃ v f, respondLength s = { s with free := f, responses := s.responses ++ [⟨.ok, v⟩] } ∧
      (s.enc.out.length < 2 ^ 32 → v = BitVec.ofNat 32 s.enc.out.length ∧ f = s.free) := by
  unfold respondLength
  split
  next => exact ⟨_, _, rfl, fun _ => ⟨rfl, rfl⟩⟩
  next hlong => exact ⟨_, _, rfl, fun hlt => absurd hlt hlong⟩

/-- Settles O18: a flush that does not stop on capacity leaves the registers of `Flushed.eq`, and trimming makes the
output no longer. -/
theorem encFlushClosesTheOperation : Obligations.EncFlushClosesTheOperation := by
  intro s h hph hallowed
  obtain ⟨e, hflush, -, -, hx⟩ | ⟨e, hstop, hx⟩ := execEncFlush_coding (h.coding hph) hph
  · obtain ⟨v, f, hresp, hv⟩ := respondLength_eq { s with enc := e }
    obtain ⟨-, -, -, hlen⟩ := trim_spec hflush.done.stuffed_tail
    refine ⟨e.obuf, v, f, ?_, ?_, hflush.grows.grown, hlen.trans (List.length_tail).le⟩
    · rw [← hflush.eq]
      exact hx.trans (congrArg _ hresp)
    · rw [← hflush.done.output]
      exact hv
  · exact absurd hx (not_stopped_of_completes hallowed hstop)

/-- The output of a completed operation, destuffed and with the zero bytes trimmed put back, is what was in the buffer
(R70). -/
theorem EncDone.destuff_out {e : Enc} (h : EncDone e) :
    ∃ n, destuff e.obuf.tail = destuff e.out ++ List.replicate n 0x00 := by
  obtain ⟨n, htrim, -, -⟩ := trim_spec h.stuffed_tail
  exact ⟨n, by rw [htrim, h.output]⟩

/-- Settles O19: the buffer's bytes stand for a code inside the interval, and trimming takes away zero bytes only. -/
theorem flushedCodeLiesInTheFinalInterval : Obligations.FlushedCodeLiesInTheFinalInterval := by
  intro s t h hph hx hdone plain n
  obtain ⟨e, hflush, -, -, he⟩ | ⟨e, hstop, he⟩ := execEncFlush_coding (h.coding hph) hph
  · cases hx.symm.trans he
    obtain ⟨zeros, hplain⟩ := hflush.done.destuff_out
    have hlen := hflush.length
    obtain ⟨code, hlow, hhigh, hcode⟩ := hflush.code
    simp only [plain, n, respondLength_enc]
    rw [hplain] at hlen hcode
    rw [List.length_append, List.length_replicate] at hlen
    have hzeros : (codeBytes s.enc).length + 2 - (destuff e.out).length = zeros := by omega
    rw [hzeros]
    exact ⟨by omega, code, hlow, hhigh, hcode⟩
  · cases hx.symm.trans he
    cases hdone.symm.trans hstop.ph

end Sys2Proof.Machine
end

section
/-! SUPPORT. TRIM and the output that the host reads after a flush (spec/41_encoder.md rules R70, R72; spec/20_memory.md
rules R36, R39). -/

namespace Sys2Proof.Machine

/-- Settles O20: the first loop of TRIM leaves the part before the zero bytes, whose last byte decides the rest. -/
theorem trimRemovesTrailingZeros : Obligations.TrimRemovesTrailingZeros := by
  intro body n hbody
  rw [trim, dropTrailingZeros_zeros body n hbody]

/-- A trimmed sequence ends in 0x00 only after 0xFF (R70, R72 item 3). -/
theorem trim_ends_zero {bytes : List Byte} (h : (trim bytes).getLast? = some 0x00) :
    (trim bytes).dropLast.getLast? = some 0xFF := by
  obtain ⟨body, n, rfl, hbody⟩ := exists_trailing_zeros bytes
  rw [trimRemovesTrailingZeros body n hbody] at h ⊢
  split at h
  next hff => rw [if_pos hff, List.dropLast_concat, hff]
  next => exact absurd h hbody

/-- In a well stuffed sequence each 0xFF is followed by 0x00 (R66 item 4, R72 item 1). -/
theorem stuffed_getElem?_succ {bytes : List Byte} {i : Nat} (h : stuffed bytes = true) (hi : bytes[i]? = some 0xFF) :
    bytes[i + 1]? = some 0x00 := by
  obtain ⟨hlt, hget⟩ := List.getElem?_eq_some_iff.mp hi
  have hsplit : bytes = bytes.take i ++ 0xFF :: bytes.drop (i + 1) := by
    rw [← hget, ← List.drop_eq_getElem_cons hlt, List.take_append_drop]
  rw [hsplit] at h
  rw [← List.head?_drop]
  exact (stuffed_last h).1

/-- A well stuffed sequence does not end in 0xFF (R72 item 2). -/
theorem stuffed_getLast?_ne {bytes : List Byte} (h : stuffed bytes = true) : bytes.getLast? ≠ some 0xFF := by
  intro hlast
  rw [List.getLast?_eq_getElem?] at hlast
  have hnext := stuffed_getElem?_succ h hlast
  rw [List.getElem?_eq_none (by omega)] at hnext
  cases hnext

theorem hostReadOut_eq_some {s : State} {out : List Byte} (h : hostReadOut s = some out) :
    s.enc.ph = .done ∧ s.enc.out = out := by
  unfold hostReadOut at h
  split at h
  next hph => exact ⟨hph, Option.some.inj h⟩
  all_goals cases h

/-- Settles O21: in DONE the output is the trimmed buffer, which is well stuffed. -/
theorem finishedOutputIsStuffed : Obligations.FinishedOutputIsStuffed := by
  intro s out h hread
  obtain ⟨hph, rfl⟩ := hostReadOut_eq_some hread
  have hdone := h.done hph
  obtain ⟨-, -, hstuffed, -⟩ := trim_spec hdone.stuffed_tail
  rw [hdone.output]
  exact ⟨fun _ => stuffed_getElem?_succ hstuffed, stuffed_getLast?_ne hstuffed, trim_ends_zero⟩

end Sys2Proof.Machine
end

section
/-! SUPPORT. `encode` as one run of the encoder's procedures (spec/41_encoder.md rules R60, R71, R72): what the host's
commands add to the run, that an unbounded run completes, and that no run reads `E.OUT`. -/

namespace Sys2Proof.Machine

/-! ### Issuing one command -/

/-- The step after the host has issued a legal command runs that command (R45, R49). -/
theorem step_issueFirst {i : Instr} (hwf : i.wf = true) (s : State) :
    step (issueFirst (encode i) (encodeSideBand i) s) = exec i s :=
  stepRunsTheDecodedCommand _ _ _ s.inputs i rfl (decodeOfEncodeIsTheCommand i hwf)

theorem issue_of_next {i : Instr} {s t : State} {r : Response} (hwf : i.wf = true) (hx : exec i s = .next t)
    (hr : t.responses = s.responses ++ [r]) : issue i s = .response r t := by
  rw [issue, step_issueFirst hwf, hx]
  simp only [hr, List.getLast?_concat]

theorem issue_of_fault {i : Instr} {s : State} {f : Fault} (hwf : i.wf = true) (hx : exec i s = .fault f) :
    issue i s = .nothing := by
  rw [issue, step_issueFirst hwf, hx]

/-! ### `encode` as one run -/

/-- The encoder as `enc.init` leaves it, but for `E.OUT` (R60). -/
def openedEncoder : Enc :=
  { ph := .coding, a := 0x10000, c := 0, ct := 11, st := 0, idx := 0, mps := false, obuf := [0x00], out := [] }

/-- The encoder with another `E.OUT`. -/
def Enc.withOut (e : Enc) (out : List Byte) : Enc := { e with out := out }

/-- The procedures `encode` runs after `enc.init`: the coding of each bit, and the flush (R61, R67, R71). -/
def encodeRun (cfg : Config) : List Bool → Enc → EncRun
  | [], e => flushRun cfg.outCap e
  | b :: rest, e => (encodeBit cfg b e).andThen (encodeRun cfg rest)

/-- What `encode` gives the host when its procedures have ended so (R71). -/
def EncRun.encodeResult : EncRun → EncodeResult
  | .finished e => .ok e.out
  | .full _ => .capacityError
  | .endless => .noAnswer

/-- A host procedure's result and last state are those of the encoder's run. -/
structure Reports (run : EncRun) (x : EncodeResult × State) : Prop where
  result : x.1 = run.encodeResult
  enc : ∀ e, run = .finished e → x.2.enc = e

theorem execEncFlush_of_coding {s : State} (hph : s.enc.ph = .coding) :
    execEncFlush s = endEncoder respondLength (flushRun s.cfg.outCap s.enc) s := by
  rw [execEncFlush, hph]

theorem flushRun_finished_ph {cap : Option Nat} {e e' : Enc} (h : flushRun cap e = .finished e') : e'.ph = .done := by
  have hends := flushRun_grows cap e
  rw [h] at hends
  exact hends.1

theorem encodeBit_finished_ph {cfg : Config} {d : Bool} {e e' : Enc} (h : encodeBit cfg d e = .finished e') :
    e'.ph = e.ph := by
  have hcarries := encodeBit_carries cfg d e
  rw [h] at hcarries
  obtain hno | hends := hcarries
  · cases hno
  · exact Carried.ph hends

theorem hostReadOut_of_done {s : State} (hph : s.enc.ph = .done) : hostReadOut s = some s.enc.out := by
  rw [hostReadOut, hph]

theorem encodeFinish_reports {s : State} (hph : s.enc.ph = .coding) :
    Reports (flushRun s.cfg.outCap s.enc) (encodeFinish s) := by
  have hx : exec .encFlush s = endEncoder respondLength (flushRun s.cfg.outCap s.enc) s := execEncFlush_of_coding hph
  cases hrun : flushRun s.cfg.outCap s.enc with
  | finished e =>
    rw [hrun] at hx
    obtain ⟨v, f, hresp, -⟩ := respondLength_eq { s with enc := e }
    have hread : hostReadOut { s with enc := e, free := f, responses := s.responses ++ [⟨.ok, v⟩] } = some e.out :=
      hostReadOut_of_done (flushRun_finished_ph hrun)
    rw [encodeFinish, issue_of_next rfl (hx.trans (congrArg Host.Outcome.next hresp)) rfl]
    simp only [if_true, hread]
    exact ⟨rfl, by rintro _ ⟨⟩; rfl⟩
  | full e =>
    rw [hrun] at hx
    rw [encodeFinish, issue_of_next (r := ⟨.capacityExceeded, 0⟩) rfl hx rfl]
    exact ⟨rfl, nofun⟩
  | endless =>
    rw [hrun] at hx
    rw [encodeFinish, issue_of_fault rfl hx]
    exact ⟨rfl, nofun⟩

theorem encodeLoop_reports (bits : List Bool) {s : State} (hph : s.enc.ph = .coding) :
    Reports (encodeRun s.cfg bits s.enc) (encodeLoop bits s) := by
  induction bits generalizing s with
  | nil => exact encodeFinish_reports hph
  | cons b rest ih =>
    have hx : exec (.encBit b) s = endEncoder (respond .ok 0) (encodeBit s.cfg b s.enc) s :=
      execEncBit_of_coding b hph
    rw [encodeRun, encodeLoop]
    cases hrun : encodeBit s.cfg b s.enc with
    | finished e =>
      rw [hrun] at hx
      rw [issue_of_next (r := ⟨.ok, 0⟩) rfl hx rfl]
      exact ih (s := respond .ok 0 { s with enc := e }) ((encodeBit_finished_ph hrun).trans hph)
    | full e =>
      rw [hrun] at hx
      rw [issue_of_next (r := ⟨.capacityExceeded, 0⟩) rfl hx rfl]
      exact ⟨rfl, nofun⟩
    | endless =>
      rw [hrun] at hx
      rw [issue_of_fault rfl hx]
      exact ⟨rfl, nofun⟩

/-- `encode` is a run of the encoder from its state after `enc.init`, whatever the block was doing (R60, R71). -/
theorem hostEncode_reports (bits : List Bool) (s : State) :
    Reports (encodeRun s.cfg bits (openedEncoder.withOut (Config.freeBytes s.free))) (hostEncode bits s) := by
  have hx : exec .encInit s = .next (respond .ok 0
      { s with enc := openedEncoder.withOut (Config.freeBytes s.free), free := s.free + 1 }) := rfl
  rw [hostEncode, issue_of_next (r := ⟨.ok, 0⟩) rfl hx rfl]
  exact encodeLoop_reports bits (s := respond .ok 0
    { s with enc := openedEncoder.withOut (Config.freeBytes s.free), free := s.free + 1 }) rfl

/-! ### With an unbounded buffer -/

theorem encCoding_openedEncoder (out : List Byte) : EncCoding (openedEncoder.withOut out) :=
  encCoding_of_fresh ⟨rfl, rfl, rfl, rfl, rfl, rfl, rfl⟩

/-- The run ends, in DONE or on capacity (R56, R71, R104). -/
theorem encodeRun_ends {cfg : Config} (hok : cfg.ok = true) (bits : List Bool) {e : Enc} (h : EncCoding e) :
    (encodeRun cfg bits e).Ends (fun e' => e'.ph = .done) (Stopped cfg.outCap e) := by
  induction bits generalizing e with
  | nil => exact (flushRun_ends cfg.outCap h).imp (fun _ ⟨hflush, _⟩ => hflush.ph) fun _ hstop => hstop
  | cons b rest ih =>
    refine (encodeBit_ends b hok h).andThen ?_
    rintro e1 ⟨k, hbit, hfit⟩
    exact (ih hbit.coding).imp (fun _ hdone => hdone) fun _ hstop => hstop.of_grows hbit.grows hbit.out hfit

/-- Settles O42: without a capacity the run of `encode` finishes, and the host reads its output. -/
theorem unboundedEncodeSucceeds : Obligations.UnboundedEncodeSucceeds := by
  intro s bits hok hcap
  have hends := encodeRun_ends hok bits (encCoding_openedEncoder (Config.freeBytes s.free))
  obtain ⟨e, hrun, hdone⟩ | ⟨e, -, hstop⟩ := hends.cases
  · obtain ⟨hresult, henc⟩ := hostEncode_reports bits s
    rw [hrun] at hresult
    have hencode : hostEncode bits s = (.ok e.out, (hostEncode bits s).2) := Prod.ext hresult rfl
    refine ⟨e.out, _, hencode, ?_, ?_, ?_⟩
    · rw [henc e hrun, hdone]
    · rw [henc e hrun]
    · rw [hostEncodeStream, hencode]
      rfl
  · exact absurd hcap hstop.cap_ne_none

/-! ### No procedure reads `E.OUT` -/

/-- The same end of a procedure, with another `E.OUT`. -/
def EncRun.withOut (out : List Byte) : EncRun → EncRun
  | .finished e => .finished (e.withOut out)
  | .full e => .full (e.withOut out)
  | .endless => .endless

/-- The procedure carries `E.OUT` along and depends on the other registers alone. -/
def CarriesOut (f : Enc → EncRun) : Prop := ∀ out e, f (e.withOut out) = (f e).withOut out

theorem CarriesOut.andThen {f g : Enc → EncRun} (hf : CarriesOut f) (hg : CarriesOut g) :
    CarriesOut fun e => (f e).andThen g := by
  intro out e
  simp only [hf out e]
  cases f e with
  | finished e1 => exact hg out e1
  | full e1 => rfl
  | endless => rfl

theorem CarriesOut.ite {p : Enc → Prop} [DecidablePred p] {f g : Enc → EncRun} (hf : CarriesOut f) (hg : CarriesOut g)
    (hp : ∀ out e, p (e.withOut out) ↔ p e) : CarriesOut fun e => if p e then f e else g e := by
  intro out e
  simp only [hp out e]
  split
  · exact hf out e
  · exact hg out e

theorem outAppend_carriesOut (cap : Option Nat) (v : Byte) : CarriesOut (outAppend cap v) :=
  .ite (fun _ _ => rfl) (fun _ _ => rfl) fun _ _ => Iff.rfl

theorem drainCarry_carriesOut (cap : Option Nat) (n : Nat) : CarriesOut (drainCarry cap n) := by
  induction n with
  | zero => exact fun _ _ => rfl
  | succ n ih => exact (outAppend_carriesOut cap 0x00).andThen fun out e => ih out { e with st := e.st - 1 }

theorem drainPlain_carriesOut (cap : Option Nat) (n : Nat) : CarriesOut (drainPlain cap n) := by
  induction n with
  | zero => exact fun _ _ => rfl
  | succ n ih =>
    exact (outAppend_carriesOut cap 0xFF).andThen
      ((outAppend_carriesOut cap 0x00).andThen fun out e => ih out { e with st := e.st - 1 })

theorem stuffAfterCarry_carriesOut (cap : Option Nat) : CarriesOut (stuffAfterCarry cap) :=
  .ite (outAppend_carriesOut cap 0x00) (fun _ _ => rfl) fun _ _ => Iff.rfl

theorem byteOutCarry_carriesOut (cap : Option Nat) (t : BitVec 32) : CarriesOut (byteOutCarry cap t) := fun out e =>
  ((stuffAfterCarry_carriesOut cap).andThen
    (CarriesOut.andThen (fun out e1 => drainCarry_carriesOut cap e1.st out e1)
      (outAppend_carriesOut cap (t.setWidth 8)))) out (outIncLast e)

theorem byteOutPlain_carriesOut (cap : Option Nat) (t : BitVec 32) : CarriesOut (byteOutPlain cap t) := fun out e =>
  ((drainPlain_carriesOut cap e.st).andThen (outAppend_carriesOut cap (t.setWidth 8))) out e

theorem byteOutCase_carriesOut (cap : Option Nat) (t : BitVec 32) : CarriesOut (byteOutCase cap t) :=
  .ite (byteOutCarry_carriesOut cap t)
    (.ite (fun _ _ => rfl) (byteOutPlain_carriesOut cap t) fun _ _ => Iff.rfl) fun _ _ => Iff.rfl

theorem byteOut_carriesOut (cap : Option Nat) : CarriesOut (byteOut cap) :=
  CarriesOut.andThen (fun out e => byteOutCase_carriesOut cap (e.c >>> 19) out e) fun _ _ => rfl

theorem shiftE_carriesOut (cap : Option Nat) : CarriesOut (shiftE cap) :=
  .ite
    (CarriesOut.andThen (fun out e => byteOut_carriesOut cap out (doubleE e)) fun _ _ => rfl)
    (fun _ _ => rfl) fun _ _ => Iff.rfl

theorem renormE_carriesOut (cap : Option Nat) (n : Nat) : CarriesOut (renormE cap n) := by
  induction n with
  | zero => exact .ite (fun _ _ => rfl) (fun _ _ => rfl) fun _ _ => Iff.rfl
  | succ n ih => exact .ite ((shiftE_carriesOut cap).andThen ih) (fun _ _ => rfl) fun _ _ => Iff.rfl

/-- The choice of a sub-interval before a procedure (R62, R63). -/
theorem CarriesOut.narrowed {p : Enc → Prop} [DecidablePred p] {f : Enc → EncRun} (hf : CarriesOut f) (q : BitVec 16)
    (hp : ∀ out e, p (e.withOut out) ↔ p e) : CarriesOut fun e => f (if p e then takeUpper q e else e) := by
  intro out e
  simp only [hp out e]
  split
  · exact hf out (takeUpper q e)
  · exact hf out e

theorem codeMps_carriesOut (cfg : Config) (q : BitVec 16) : CarriesOut (codeMps cfg q) := by
  have hslow : CarriesOut fun e => renormE cfg.outCap 15 { e with idx := nextMps cfg e.idx } := fun out e =>
    renormE_carriesOut cfg.outCap 15 out { e with idx := nextMps cfg e.idx }
  exact .ite (fun _ _ => rfl)
    (fun out e => hslow.narrowed (p := fun e => e.a < qeWide q) q (fun _ _ => Iff.rfl) out
      { e with a := e.a - qeWide q })
    fun _ _ => Iff.rfl

theorem codeLps_carriesOut (cfg : Config) (q : BitVec 16) : CarriesOut (codeLps cfg q) := by
  have hshift : CarriesOut fun e =>
      renormE cfg.outCap 15 { e with mps := mpsAfterLps cfg e.idx e.mps, idx := nextLps cfg e.idx } := fun out e =>
    renormE_carriesOut cfg.outCap 15 out { e with mps := mpsAfterLps cfg e.idx e.mps, idx := nextLps cfg e.idx }
  exact fun out e => hshift.narrowed (p := fun e => qeWide q ≤ e.a) q (fun _ _ => Iff.rfl) out
    { e with a := e.a - qeWide q }

theorem encodeBit_carriesOut (cfg : Config) (d : Bool) : CarriesOut (encodeBit cfg d) :=
  .ite (fun out e => codeMps_carriesOut cfg (qe cfg e.idx) out e)
    (fun out e => codeLps_carriesOut cfg (qe cfg e.idx) out e) fun _ _ => Iff.rfl

/-- What the procedure gives the host does not depend on `E.OUT`. -/
def ResultIgnoresOut (f : Enc → EncRun) : Prop := ∀ out e, (f (e.withOut out)).encodeResult = (f e).encodeResult

theorem CarriesOut.andThen_result {f g : Enc → EncRun} (hf : CarriesOut f) (hg : ResultIgnoresOut g) :
    ResultIgnoresOut fun e => (f e).andThen g := by
  intro out e
  simp only [hf out e]
  cases f e with
  | finished e1 => exact hg out e1
  | full e1 => rfl
  | endless => rfl

/-- The flush overwrites `E.OUT` (R67). -/
theorem flushRun_result (cap : Option Nat) : ResultIgnoresOut (flushRun cap) := fun out e =>
  ((byteOut_carriesOut cap).andThen_result
    (CarriesOut.andThen_result (fun out e2 => byteOut_carriesOut cap out { e2 with c := e2.c <<< 8 }) fun _ _ => rfl))
    out { clearFinalBits e with c := (clearFinalBits e).c <<< e.ct.toNat }

theorem encodeRun_result (cfg : Config) (bits : List Bool) : ResultIgnoresOut (encodeRun cfg bits) := by
  induction bits with
  | nil => exact flushRun_result cfg.outCap
  | cons b rest ih => exact (encodeBit_carriesOut cfg b).andThen_result ih

/-- Settles O43: two blocks with the same parameters begin the run with the same registers but for `E.OUT`. -/
theorem encodeIsDeterministic : Obligations.EncodeIsDeterministic := by
  intro s u bits hcfg
  rw [(hostEncode_reports bits s).result, (hostEncode_reports bits u).result, encodeRun_result, encodeRun_result, hcfg]

end Sys2Proof.Machine
end

section
/-! SUPPORT. FETCH and DEC_INIT in full (spec/42_decoder.md rules R80 to R82, R88): the byte and the registers that each
fetch gives, and the window that `dec.init` primes. -/

namespace Sys2Proof.Machine

/-! ### `STATUS_D` (R88) -/

theorem statusD_eq (d : Dec) :
    statusD d = if d.ph = .failed then .malformed else if d.avail = 0 then .exhausted else .ok := by
  unfold statusD
  cases d.ph with
  | idle => rfl
  | decoding => rfl
  | failed => rfl

theorem statusD_of_failed {d : Dec} (h : d.ph = .failed) : statusD d = .malformed := by
  rw [statusD_eq, if_pos h]

theorem statusD_of_decoding {d : Dec} (h : d.ph = .decoding) :
    statusD d = if d.avail = 0 then .exhausted else .ok := by
  rw [statusD_eq, h, if_neg nofun]

/-! ### FETCH (R81, R82) -/

theorem fetch_at_end {d : Dec} (h : d.inp.length ≤ d.cur) : fetch d = (0x00, d) := by
  have hnone : inByte d d.cur = none := List.getElem?_eq_none h
  unfold fetch
  split
  · rfl
  · rw [hnone]

/-- FETCH at a byte, outside FAILED. -/
theorem fetch_at_byte {d : Dec} {b : Byte} (hph : d.ph ≠ .failed) (hb : d.inp[d.cur]? = some b) :
    fetch d = if b = 0xFF then fetchStuffed d else (b, { d with cur := d.cur + 1, avail := d.avail + 8 }) := by
  have hbyte : inByte d d.cur = some b := hb
  rw [fetch, if_neg hph, hbyte]

/-- Settles O26: one clause for each branch of FETCH. -/
theorem fetchReadsTheInput : Obligations.FetchReadsTheInput := by
  refine fun d => ⟨?_, fun b hph hb hne => ?_, fun hph hb hpair => ?_, fun hph hb hpair => ?_, statusD_of_failed⟩
  · rintro (hph | hend)
    · exact fetch_failed hph
    · exact fetch_at_end hend
  · rw [fetch_at_byte hph hb, if_neg hne]
  · rw [fetch_at_byte hph hb, if_pos rfl]
    exact if_pos hpair
  · rw [fetch_at_byte hph hb, if_pos rfl]
    exact if_neg hpair

/-- FETCH when a plain byte comes next (R81). -/
theorem fetch_of_plain_cons {d : Dec} {b : Byte} {rest : List Byte} (hph : d.ph ≠ .failed)
    (hcur : d.cur ≤ d.inp.length) (hplain : plainBytes (d.inp.drop d.cur) = b :: rest) :
    fetch d = (b, { d with cur := d.cur + wireLength [b], avail := d.avail + 8 }) ∧
      plainBytes (d.inp.drop (d.cur + wireLength [b])) = rest ∧ d.cur + wireLength [b] ≤ d.inp.length := by
  obtain ⟨hend, -⟩ | ⟨b', n, hp, rfl, hlen, hfe⟩ | ⟨hp, -⟩ := fetch_cases hph hcur
  · rw [hend, List.drop_length] at hplain
    cases hplain
  · obtain ⟨rfl, hrest⟩ := List.cons.inj (hp.symm.trans hplain)
    exact ⟨hfe, hrest, hlen⟩
  · cases hp.symm.trans hplain

/-- FETCH at a malformed 0xFF: zero fill and FAILED (R81). -/
theorem fetch_of_plain_nil {d : Dec} (hph : d.ph ≠ .failed) (hcur : d.cur < d.inp.length)
    (hplain : plainBytes (d.inp.drop d.cur) = []) : fetch d = (0x00, { d with ph := .failed }) := by
  obtain ⟨hend, -⟩ | ⟨b, n, hp, -⟩ | ⟨-, -, -, -, hfe⟩ := fetch_cases hph hcur.le
  · exact absurd hend hcur.ne
  · cases hp.symm.trans hplain
  · exact hfe

/-! ### DEC_INIT (R80) -/

theorem wireLength_append (xs ys : List Byte) : wireLength (xs ++ ys) = wireLength xs + wireLength ys := by
  simp only [wireLength, List.length_append, List.count_append]
  omega

/-- The registers that `dec.init` leaves, for the plain bytes `plain` of its input: FAILED when a malformed 0xFF comes
before two of them, and zero in `D.C` for each that is missing. -/
def primedDecoder (inp plain : List Byte) : Dec :=
  { openDecoder inp with
    ph := if plain.length < 2 ∧ wireLength plain < inp.length then .failed else .decoding
    c := plain.getD 0 0x00 ++ plain.getD 1 0x00
    avail := 8 * (plain.take 2).length
    cur := wireLength (plain.take 2) }

theorem initDecoder_of_fetch {inp : List Byte} {d1 d2 : Dec} {b0 b1 : Byte}
    (hfirst : fetch (openDecoder inp) = (b0, d1)) (hsecond : fetch d1 = (b1, d2)) :
    initDecoder inp = { d2 with c := b0 ++ b1 } := by
  simp only [initDecoder, hfirst, hsecond]

/-- The two fetches of DEC_INIT, and the bytes they leave to come (R80): each finds a plain byte, the end of the input,
or a malformed 0xFF. -/
theorem initDecoder_eq {inp plain : List Byte} (hplain : plainBytes inp = plain) :
    initDecoder inp = primedDecoder inp plain ∧
      plainBytes (inp.drop (wireLength (plain.take 2))) = plain.drop 2 := by
  have hopen : (openDecoder inp).cur ≤ (openDecoder inp).inp.length := Nat.zero_le _
  match plain with
  | [] =>
    refine ⟨?_, hplain⟩
    obtain rfl | hne := eq_or_ne inp []
    · rfl
    · have hpos : 0 < inp.length := List.length_pos_of_ne_nil hne
      rw [initDecoder_of_fetch (fetch_of_plain_nil nofun hpos hplain) (fetch_failed rfl), primedDecoder,
        if_pos ⟨Nat.zero_lt_two, hpos⟩]
      rfl
  | [b] =>
    obtain ⟨hfirst, hrest, hcur⟩ := fetch_of_plain_cons (d := openDecoder inp) nofun hopen hplain
    simp only [openDecoder, Nat.zero_add] at hfirst hrest hcur
    refine ⟨?_, hrest⟩
    obtain hlt | hge := Nat.lt_or_ge (wireLength [b]) inp.length
    · rw [initDecoder_of_fetch hfirst (fetch_of_plain_nil nofun hlt hrest), primedDecoder,
        if_pos ⟨Nat.one_lt_two, hlt⟩]
      rfl
    · rw [initDecoder_of_fetch hfirst (fetch_at_end hge), primedDecoder, if_neg fun h => hge.not_gt h.2]
      rfl
  | b :: c :: rest =>
    obtain ⟨hfirst, hrest, hcur⟩ := fetch_of_plain_cons (d := openDecoder inp) nofun hopen hplain
    simp only [openDecoder, Nat.zero_add] at hfirst hrest hcur
    obtain ⟨hsecond, hrest2, -⟩ := fetch_of_plain_cons
      (d := { openDecoder inp with avail := 8, cur := wireLength [b] }) nofun hcur hrest
    have hwire : wireLength ((b :: c :: rest).take 2) = wireLength [b] + wireLength [c] :=
      wireLength_append [b] [c]
    refine ⟨?_, hwire ▸ hrest2⟩
    rw [initDecoder_of_fetch hfirst hsecond, primedDecoder, hwire, if_neg fun h => by simp at h]
    rfl

theorem statusD_primedDecoder (inp plain : List Byte) : statusD (primedDecoder inp plain) =
    if plain.length < 2 ∧ wireLength plain < inp.length then .malformed
    else if plain = [] then .exhausted else .ok := by
  by_cases hbad : plain.length < 2 ∧ wireLength plain < inp.length
  · rw [if_pos hbad]
    exact statusD_of_failed (if_pos hbad)
  · have havail : (primedDecoder inp plain).avail = 0 ↔ plain = [] := by simp [primedDecoder]
    rw [if_neg hbad, statusD_of_decoding (if_neg hbad)]
    simp only [havail]

theorem append_byte_toNat (b c : Byte) : (b ++ c).toNat = 256 * b.toNat + c.toNat := by
  rw [BitVec.toNat_append, ← Nat.shiftLeft_add_eq_or_of_lt c.isLt, Nat.shiftLeft_eq, Nat.mul_comm]

/-- Settles O27: the registers are those of `initDecoder_eq`. -/
theorem decInitPrimesTheWindow : Obligations.DecInitPrimesTheWindow := by
  intro s inp plain malformed
  have hinit : initDecoder inp = primedDecoder inp plain := (initDecoder_eq rfl).1
  refine ⟨primedDecoder inp plain, statusD (primedDecoder inp plain), ?_, rfl, rfl, rfl, rfl, rfl, rfl, rfl,
    append_byte_toNat _ _, rfl, rfl, statusD_primedDecoder inp plain⟩
  show execDecInit inp s = _
  rw [execDecInit, hinit]
  rfl

end Sys2Proof.Machine
end

section
/-! SUPPORT. `dec.bit` in DECODING (spec/42_decoder.md rules R83 to R90): the fast path, the exact interval arithmetic,
and what it does at a marker and past the end of the input. -/

namespace Sys2Proof.Machine

/-! ### The fast path (R84, R85) -/

theorem decLow_toNat {cfg : Config} {d : Dec} (hle : (qe cfg d.idx).toNat ≤ decWidth d)
    (hlt : decWidth d - (qe cfg d.idx).toNat < 0x10000) : (d.a - qe cfg d.idx).toNat = decLow cfg d := by
  have hwidth : decWidth d = if d.a = 0 then 0x10000 else d.a.toNat := rfl
  have hlow : decLow cfg d = decWidth d - (qe cfg d.idx).toNat := rfl
  have ha := d.a.isLt
  rw [BitVec.toNat_sub]
  split at hwidth
  next hzero =>
    have : d.a.toNat = 0 := by rw [hzero]; rfl
    omega
  next => omega

theorem decodeBit_fast {cfg : Config} {d : Dec} (hlow : 0x8000 ≤ (d.a - qe cfg d.idx).toNat)
    (hwindow : d.c.toNat < (d.a - qe cfg d.idx).toNat) :
    decodeBit cfg d = some (d.mps, { d with a := d.a - qe cfg d.idx }) := by
  have hwide : (0x8000 : BitVec 16) ≤ d.a - qe cfg d.idx := BitVec.le_def.mpr hlow
  rw [decodeBit]
  exact (if_pos (BitVec.lt_def.mpr hwindow)).trans (if_pos hwide)

/-- `dec.bit` when it decodes a bit and meets no marker (R84, R88). -/
theorem exec_decBit_of_decodeBit {s : State} {b : Bool} {d : Dec} (hph : s.dec.ph = .decoding)
    (hbit : decodeBit s.cfg s.dec = some (b, d)) (hd : d.ph = .decoding) :
    exec .decBit s = .next { s with
      dec := d
      responses := s.responses ++ [⟨if d.avail = 0 then .exhausted else .ok, if b then 1 else 0⟩] } := by
  show execDecBit s = _
  rw [execDecBit, hph]
  simp only [hbit]
  rw [statusD_of_decoding hd, bitValue_eq_ite]
  rfl

/-- Settles O28: the subtraction is exact, and the two tests of R85 choose the fast path. -/
theorem decBitFastPathChangesOnlyA : Obligations.DecBitFastPathChangesOnlyA := by
  intro s hph hfast hwindow hlt
  have hlow := decLow_toNat (by omega) hlt
  have hbit := decodeBit_fast (by rw [hlow, decLow]; omega) (by rwa [hlow])
  exact ⟨s.dec.a - qe s.cfg s.dec.idx, hlow, exec_decBit_of_decodeBit hph hbit hph⟩

/-! ### Every path (R82 to R90) -/

/-- `dec.bit` in a good state in DECODING: the bit is that of R85, and its effect on the registers is `BitDecoded`. -/
theorem exec_decBit {s : State} (h : Inv s) (hph : s.dec.ph = .decoding) :
    ∃ d k, BitDecoded s.cfg k s.dec d ∧
      exec .decBit s =
        .next (respond (statusD d) (bitValue (isLps s.cfg s.dec != s.dec.mps)) { s with dec := d }) :=
  execDecBit_decoding h.table (h.decoding hph) hph h.cursor

/-- `D.MPS` after a bit, the test of R85 and that of the row in one. -/
theorem mpsAfterLps_and (cfg : Config) (idx : TableIndex) (lps mps : Bool) :
    (if lps then mpsAfterLps cfg idx mps else mps) = if lps ∧ switchMps cfg idx then !mps else mps := by
  cases lps with
  | false => rfl
  | true => simp [mpsAfterLps]

/-- Settles O29: the fields of `BitDecoded` are the statement's clauses. -/
theorem decBitIsExactIntervalDecoding : Obligations.DecBitIsExactIntervalDecoding := by
  intro s h hph d q low upper lps
  obtain ⟨d', k, hbit, hx⟩ := exec_decBit h hph
  refine ⟨d', k, ?_, hbit.shifts, hbit.aLow, hbit.a, hbit.c, hbit.stream, hbit.inp, hbit.count, hbit.idx,
    hbit.mps.trans (mpsAfterLps_and s.cfg d.idx lps d.mps)⟩
  rw [hx, statusD_eq, bitValue_eq_ite]
  rfl

/-- Settles O30: FAILED is where the marker stands, and clean input stays clean. -/
theorem decBitFailsOnlyAtAMarker : Obligations.DecBitFailsOnlyAtAMarker := by
  intro s t h hph hx
  obtain ⟨d, k, hbit, hx'⟩ := exec_decBit h hph
  cases hx.symm.trans hx'
  refine ⟨fun hfailed => ?_, fun hclean => (hbit.clean hclean).1⟩
  obtain ⟨hmarker, hnext⟩ := hbit.opened.marker hfailed
  exact ⟨hmarker, hnext, _, rfl, statusD_of_failed hfailed⟩

/-! ### Past the end of the input (R82, R88, R106) -/

/-- The unit is exhausted only at the end of its input: real bits precede padding bits (R83). -/
theorem DecDecoding.cur_of_exhausted {d : Dec} (h : DecDecoding d) (hcur : d.cur ≤ d.inp.length)
    (havail : d.avail = 0) : d.cur = d.inp.length := by
  refine Nat.le_antisymm hcur (Nat.le_of_not_lt fun hlt => ?_)
  have := h.real hlt
  omega

theorem plainBytes_at_end {d : Dec} (h : d.cur = d.inp.length) : plainBytes (d.inp.drop d.cur) = [] := by
  rw [h, List.drop_length]
  rfl

theorem cleanInput_at_end {d : Dec} (h : d.cur = d.inp.length) : CleanInput d := by
  rw [CleanInput, plainBytes_at_end h]
  exact h

theorem bytesToCome_at_end {d : Dec} (h : d.cur = d.inp.length) : bytesToCome d = 0 := by
  rw [bytesToCome, plainBytes_at_end h]
  exact ite_self 0

/-- Settles O31: at the end of the input no marker is left to meet and no real bit to count. -/
theorem exhaustedDecoderGoesOnDecoding : Obligations.ExhaustedDecoderGoesOnDecoding := by
  intro s h hph havail
  have hend : s.dec.cur = s.dec.inp.length := (h.decoding hph).cur_of_exhausted h.cursor havail
  obtain ⟨d, k, hbit, hx⟩ := exec_decBit h hph
  have hdecoding : d.ph = .decoding := (hbit.clean (cleanInput_at_end hend)).1
  have hzero : d.avail = 0 := by
    have hcount := hbit.count
    rw [havail, bytesToCome_at_end hend] at hcount
    omega
  refine ⟨d, bitValue (isLps s.cfg s.dec != s.dec.mps), ?_, hdecoding, hzero, hbit.ended hend, hend, ?_⟩
  · rw [hx, statusD_of_decoding hdecoding, if_pos hzero]
    rfl
  · cases isLps s.cfg s.dec != s.dec.mps <;> decide

end Sys2Proof.Machine
end

section
/-! SUPPORT. The loops of `decode_stream` and `decode_n` as runs of the decoder's own procedure, bit after bit, and the
bound on their passes (spec/42_decoder.md rules R91, R92). -/

namespace Sys2Proof.Machine

/-! ### Runs of the decoder -/

/-- The decoder goes from `d` to `d'` by decoding the bits `bits`, one after the other (R84). -/
inductive Decodes (cfg : Config) : Dec → List Bool → Dec → Prop
  | nil (d : Dec) : Decodes cfg d [] d
  | cons {d d1 d' : Dec} {b : Bool} {bits : List Bool} (first : decodeBit cfg d = some (b, d1))
      (rest : Decodes cfg d1 bits d') : Decodes cfg d (b :: bits) d'

/-- Two runs from the same registers agree on the bits both have. -/
theorem Decodes.agree {cfg : Config} {d d1 d2 : Dec} {xs ys : List Bool} (hx : Decodes cfg d xs d1)
    (hy : Decodes cfg d ys d2) : xs <+: ys ∨ ys <+: xs := by
  induction hx generalizing ys with
  | nil => exact .inl List.nil_prefix
  | cons hbit _ ih =>
    cases hy with
    | nil => exact .inr List.nil_prefix
    | cons hbit' hrest' =>
      cases hbit.symm.trans hbit'
      exact (ih hrest').imp (List.prefix_cons_inj _).mpr (List.prefix_cons_inj _).mpr

theorem Decodes.eq_of_length_eq {cfg : Config} {d d1 d2 : Dec} {xs ys : List Bool} (hx : Decodes cfg d xs d1)
    (hy : Decodes cfg d ys d2) (hlen : xs.length = ys.length) : xs = ys := by
  obtain h | h := hx.agree hy
  · exact h.eq_of_length hlen
  · exact (h.eq_of_length hlen.symm).symm

/-- A good decoder inside an operation (R22, R27). -/
structure DecRunning (d : Dec) : Prop where
  good : DecGood d
  ph : d.ph = .decoding

/-- The decoding of a bit answers, in a good decoder (R84, R125). -/
theorem DecRunning.decodes_bit {cfg : Config} {d : Dec} (h : DecRunning d) (hok : cfg.ok = true) :
    ∃ b d' k, decodeBit cfg d = some (b, d') ∧ BitDecoded cfg k d d' := by
  obtain ⟨d', k, hbit, hdecoded⟩ := decodeBit_spec hok (h.good.decoding h.ph) h.ph h.good.cursor
  exact ⟨_, d', k, hbit, hdecoded⟩

theorem BitDecoded.running {cfg : Config} {k : Nat} {d d' : Dec} (h : BitDecoded cfg k d d')
    (hph : d'.ph = .decoding) : DecRunning d' :=
  ⟨h.decGood, hph⟩

/-- Along clean input no bit fails the decoder (R81, R90). -/
theorem Decodes.decoding {cfg : Config} {d d' : Dec} {bits : List Bool} (h : Decodes cfg d bits d')
    (hok : cfg.ok = true) (hrun : DecRunning d) (hclean : CleanInput d) : d'.ph = .decoding := by
  induction h with
  | nil => exact hrun.ph
  | cons hbit _ ih =>
    obtain ⟨b, d1, k, hbit', hdecoded⟩ := hrun.decodes_bit hok
    cases hbit.symm.trans hbit'
    obtain ⟨hph, hclean1⟩ := hdecoded.clean hclean
    exact ih (hdecoded.running hph) hclean1

/-! ### The commands of the two procedures -/

/-- `s` after a `dec.init` or a `dec.bit` that left the decoder `d` and the value `v` (R80, R84, R88). -/
def State.afterDecoding (s : State) (d : Dec) (v : BitVec 32) : State := s.afterDec d ⟨statusD d, v⟩

theorem issue_decInit (bytes : List Byte) (s : State) :
    issue (.decInit bytes) s =
      .response ⟨statusD (initDecoder bytes), 0⟩ (s.afterDecoding (initDecoder bytes) 0) :=
  issue_of_next rfl rfl rfl

theorem issue_decBit {s : State} {b : Bool} {d : Dec} (hph : s.dec.ph = .decoding)
    (hbit : decodeBit s.cfg s.dec = some (b, d)) :
    issue .decBit s = .response ⟨statusD d, bitValue b⟩ (s.afterDecoding d (bitValue b)) := by
  refine issue_of_next rfl ?_ rfl
  show execDecBit s = _
  rw [execDecBit, hph]
  simp only [hbit]
  rfl

theorem responseBit_bitValue (st : Status) (b : Bool) : responseBit ⟨st, bitValue b⟩ = b := by
  cases b
  · exact (by decide : (bitValue false).getLsbD 0 = false)
  · exact (by decide : (bitValue true).getLsbD 0 = true)

theorem statusD_eq_ok {d : Dec} (h : statusD d = .ok) (hph : d.ph ≠ .idle) : d.ph = .decoding ∧ d.avail ≠ 0 := by
  cases hd : d.ph with
  | idle => exact absurd hd hph
  | failed => cases (statusD_of_failed hd).symm.trans h
  | decoding =>
    refine ⟨rfl, fun hzero => ?_⟩
    rw [statusD_of_decoding hd, if_pos hzero] at h
    cases h

theorem statusD_eq_malformed {d : Dec} (h : statusD d = .malformed) : d.ph = .failed := by
  rw [statusD_eq] at h
  split at h
  next hd => exact hd
  next => split at h <;> cases h

theorem statusD_ne_malformed {d : Dec} (h : d.ph = .decoding) : statusD d ≠ .malformed := fun hst => by
  cases h.symm.trans (statusD_eq_malformed hst)

/-! ### The passes left to `decode_stream` (R91) -/

/-- A bound on the `dec.bit` commands before the unit is exhausted: fast paths narrow the interval, at most 0x8000 in a
row, and every other bit shifts out a real one (R91). -/
def passesLeft (d : Dec) : Nat := (d.avail + 8 * bytesToCome d) * 0x8001 + (decWidth d - 0x8000)

/-- The bound falls when a real bit is shifted out, and when the interval narrows without one. -/
theorem passes_lt {n n' w w' : Nat} (hw : 0x8000 ≤ w') (h : n' < n ∧ w' < 0x10000 ∨ n' = n ∧ w' < w) :
    n' * 0x8001 + (w' - 0x8000) < n * 0x8001 + (w - 0x8000) := by
  omega

theorem BitDecoded.decWidth_eq {cfg : Config} {k : Nat} {d d' : Dec} (h : BitDecoded cfg k d d') :
    decWidth d' = d'.a.toNat := by
  refine if_neg fun hzero => ?_
  have ha := h.aLow
  rw [hzero] at ha
  exact absurd ha (by decide)

/-- A bit that shifts nothing out has narrowed the interval: `qe` alone is too narrow to be left so (R56, R84). -/
theorem BitDecoded.width_lt_of_no_shift {cfg : Config} {d d' : Dec} (h : BitDecoded cfg 0 d d')
    (hok : cfg.ok = true) (hgood : DecDecoding d) : d'.a.toNat < decWidth d := by
  obtain ⟨hqlow, hqhigh⟩ := qe_bounds hok d.idx
  obtain ⟨hwlow, -⟩ := decWidth_bounds hgood
  have halow := h.aLow
  have ha := h.a
  rw [pow_zero, Nat.mul_one] at ha
  split at ha
  · omega
  · rw [decLow] at ha
    omega

theorem BitDecoded.passesLeft_lt {cfg : Config} {k : Nat} {d d' : Dec} (h : BitDecoded cfg k d d')
    (hok : cfg.ok = true) (hgood : DecDecoding d) (hreal : d.avail ≠ 0) : passesLeft d' < passesLeft d := by
  have hcount := h.count
  unfold passesLeft
  rw [h.decWidth_eq]
  refine passes_lt h.aLow ?_
  obtain rfl | hk := Nat.eq_zero_or_pos k
  · exact .inr ⟨hcount, h.width_lt_of_no_shift hok hgood⟩
  · exact .inl ⟨by omega, d'.a.isLt⟩

theorem plainBytes_length_le (bytes : List Byte) : (plainBytes bytes).length ≤ bytes.length := by
  fun_induction plainBytes bytes with
  | case1 => exact Nat.le_refl 0
  | case2 => exact Nat.zero_le _
  | case3 => exact Nat.le_refl 1
  | case4 rest ih => simpa using ih.trans (Nat.le_succ _)
  | case5 => exact Nat.zero_le _
  | case6 b c rest hb ih => simpa using ih

theorem decWidth_initDecoder (bytes : List Byte) : decWidth (initDecoder bytes) = 0x10000 := by
  rw [(initDecoder_eq rfl).1]
  rfl

theorem decInit_passesLeft (bytes : List Byte) : passesLeft (initDecoder bytes) < decodeBound bytes.length := by
  obtain ⟨hinit, hrest⟩ := initDecoder_eq (inp := bytes) rfl
  have hle := plainBytes_length_le bytes
  have hcome : bytesToCome (initDecoder bytes) ≤ (plainBytes bytes).length - 2 := by
    rw [bytesToCome, ← List.length_drop, ← hrest, hinit]
    split
    · exact Nat.zero_le _
    · exact Nat.le_refl _
  have havail : (initDecoder bytes).avail = 8 * min 2 (plainBytes bytes).length := by
    rw [hinit, ← List.length_take]
    rfl
  have hcount : (initDecoder bytes).avail + 8 * bytesToCome (initDecoder bytes) ≤ 8 * bytes.length := by omega
  unfold passesLeft decodeBound
  rw [decWidth_initDecoder]
  omega

/-! ### `decode_stream` (R91) -/

theorem decodeStreamLoop_of_response {n : Nat} {bits : List Bool} {s t : State} {r : Response}
    (h : issue .decBit s = .response r t) :
    (r.status = .exhausted → decodeStreamLoop (n + 1) bits s = (.ok (bits ++ [responseBit r]), t)) ∧
    (r.status = .malformed → decodeStreamLoop (n + 1) bits s = (.malformed (bits ++ [responseBit r]), t)) ∧
    (r.status = .ok → decodeStreamLoop (n + 1) bits s = decodeStreamLoop n (bits ++ [responseBit r]) t) := by
  refine ⟨fun hst => ?_, fun hst => ?_, fun hst => ?_⟩ <;> simp only [decodeStreamLoop, h, hst]

/-- The result of `decode_stream` is that of the run that decoded `decoded` and left the decoder `d`: malformed only
when it failed. -/
def StreamResult (result : DecodeResult) (decoded : List Bool) (d : Dec) : Prop :=
  result = .ok decoded ∨ result = .malformed decoded ∧ d.ph = .failed

/-- With passes enough the loop ends, and its result is that of a run (R91). -/
theorem decodeStreamLoop_decodes {n : Nat} {bits : List Bool} {s : State} (hok : s.cfg.ok = true)
    (hrun : DecRunning s.dec) (hreal : s.dec.avail ≠ 0) (hpasses : passesLeft s.dec < n) :
    ∃ decoded d, Decodes s.cfg s.dec decoded d ∧
      StreamResult (decodeStreamLoop n bits s).1 (bits ++ decoded) d := by
  induction n generalizing bits s with
  | zero => exact absurd hpasses (Nat.not_lt_zero _)
  | succ n ih =>
    obtain ⟨b, d, k, hbit, hdecoded⟩ := hrun.decodes_bit hok
    obtain ⟨hexhausted, hmalformed, hgoes⟩ :=
      decodeStreamLoop_of_response (n := n) (bits := bits) (issue_decBit hrun.ph hbit)
    rw [responseBit_bitValue] at hexhausted hmalformed hgoes
    obtain hst | hst | hst := statusD_cases d
    · obtain ⟨hph, hreal1⟩ := statusD_eq_ok hst hdecoded.opened.phase
      have hlt := hdecoded.passesLeft_lt hok (hrun.good.decoding hrun.ph) hreal
      obtain ⟨decoded, d', hdecodes, hresult⟩ := ih (bits := bits ++ [b])
        (s := s.afterDecoding d (bitValue b)) hok (hdecoded.running hph) hreal1
        (show passesLeft d < n by omega)
      refine ⟨b :: decoded, d', .cons hbit hdecodes, ?_⟩
      rw [hgoes hst, List.append_cons bits b decoded]
      exact hresult
    · exact ⟨[b], d, .cons hbit (.nil d), .inl (by rw [hexhausted hst])⟩
    · exact ⟨[b], d, .cons hbit (.nil d), .inr ⟨by rw [hmalformed hst], statusD_eq_malformed hst⟩⟩

theorem initDecoder_running {bytes : List Byte} (h : (initDecoder bytes).ph = .decoding) :
    DecRunning (initDecoder bytes) :=
  ⟨decGood_initDecoder bytes, h⟩

/-- `decode_stream`, by the status of its `dec.init` (R91). -/
theorem hostDecodeStream_cases (bytes : List Byte) (s : State) (hok : s.cfg.ok = true) :
    (statusD (initDecoder bytes) = .exhausted ∧ (hostDecodeStream bytes s).1 = .exhausted []) ∨
    (statusD (initDecoder bytes) = .malformed ∧ (hostDecodeStream bytes s).1 = .malformed []) ∨
    ∃ decoded d, Decodes s.cfg (initDecoder bytes) decoded d ∧
      StreamResult (hostDecodeStream bytes s).1 decoded d := by
  rw [hostDecodeStream, issue_decInit]
  obtain hst | hst | hst := statusD_cases (initDecoder bytes)
  · obtain ⟨hph, hreal⟩ := statusD_eq_ok hst (initDecoder_ph_ne_idle bytes)
    simp only [hst]
    exact .inr (.inr (decodeStreamLoop_decodes (bits := []) (s := s.afterDecoding (initDecoder bytes) 0) hok
      (initDecoder_running hph) hreal (decInit_passesLeft bytes)))
  · exact .inl ⟨hst, by simp only [hst]⟩
  · exact .inr (.inl ⟨hst, by simp only [hst]⟩)

/-- Settles O46: each result of `decode_stream` is one of those of `hostDecodeStream_cases`, and none is the missing
answer. -/
theorem decodeStreamTerminates : Obligations.DecodeStreamTerminates := by
  intro s bytes hok
  obtain ⟨-, h⟩ | ⟨-, h⟩ | ⟨decoded, d, -, h | ⟨h, -⟩⟩ := hostDecodeStream_cases bytes s hok
  all_goals
    rw [h]
    nofun

/-! ### `decode_n` (R92) -/

theorem decodeNLoop_of_response {n : Nat} {bits : List Bool} {s t : State} {r : Response}
    (h : issue .decBit s = .response r t) (hst : r.status ≠ .malformed) :
    decodeNLoop (n + 1) bits s = decodeNLoop n (bits ++ [responseBit r]) t := by
  simp only [decodeNLoop, h, if_neg hst]

/-- On clean input the length-driven loop decodes as many bits as it is asked for (R92). -/
theorem decodeNLoop_decodes (n : Nat) {bits : List Bool} {s : State} (hok : s.cfg.ok = true) (hrun : DecRunning s.dec)
    (hclean : CleanInput s.dec) :
    ∃ decoded d t, Decodes s.cfg s.dec decoded d ∧ decoded.length = n ∧
      decodeNLoop n bits s = (.ok (bits ++ decoded), t) := by
  induction n generalizing bits s with
  | zero => exact ⟨[], s.dec, s, .nil _, rfl, by rw [List.append_nil, decodeNLoop]⟩
  | succ n ih =>
    obtain ⟨b, d, k, hbit, hdecoded⟩ := hrun.decodes_bit hok
    obtain ⟨hph, hclean1⟩ := hdecoded.clean hclean
    obtain ⟨decoded, d', t, hdecodes, hlen, hloop⟩ := ih (bits := bits ++ [b])
      (s := s.afterDecoding d (bitValue b)) hok (hdecoded.running hph) hclean1
    refine ⟨b :: decoded, d', t, .cons hbit hdecodes, congrArg (· + 1) hlen, ?_⟩
    rw [decodeNLoop_of_response (issue_decBit hrun.ph hbit) (statusD_ne_malformed hph), responseBit_bitValue, hloop,
      List.append_cons bits b decoded]

/-- `decode_n` on clean input (R92). -/
theorem hostDecodeN_decodes (bytes : List Byte) (n : Nat) (s : State) (hok : s.cfg.ok = true)
    (hph : (initDecoder bytes).ph = .decoding) (hclean : CleanInput (initDecoder bytes)) :
    ∃ decoded d t, Decodes s.cfg (initDecoder bytes) decoded d ∧ decoded.length = n ∧
      hostDecodeN bytes n s = (.ok decoded, t) := by
  rw [hostDecodeN, issue_decInit]
  simp only [if_neg (statusD_ne_malformed hph)]
  exact decodeNLoop_decodes n (bits := []) (s := s.afterDecoding (initDecoder bytes) 0) hok (initDecoder_running hph)
    hclean

end Sys2Proof.Machine
end

section
/-! SUPPORT. The decoder's input as one stream of bits: the number that its first bits are, and what `dec.init` has read
of it (spec/20_memory.md rule R32; spec/42_decoder.md rules R80 to R83). -/

namespace Sys2Proof.Machine

/-! ### Bits and bytes as numbers -/

/-- Bit `j` of the bytes, most significant first, with the zero fill of R82. -/
def byteStream (bytes : List Byte) (j : Nat) : Bool := (bytes.flatMap byteBits).getD j false

theorem bitsValue_add (f : Nat → Bool) (m k : Nat) :
    bitsValue f (m + k) = bitsValue f m * 2 ^ k + bitsValue (fun j => f (m + j)) k := by
  induction k with
  | zero => simp [bitsValue]
  | succ k ih =>
    rw [← Nat.add_assoc, bitsValue, ih, bitsValue]
    ring

theorem bitsValue_lt (f : Nat → Bool) (k : Nat) : bitsValue f k < 2 ^ k := by
  induction k with
  | zero => exact Nat.one_pos
  | succ k ih =>
    have hbit := (f k).toNat_le
    rw [bitsValue, pow_succ]
    omega

theorem byteStream_nil (j : Nat) : byteStream [] j = false := rfl

theorem byteStream_cons_add (b : Byte) (bytes : List Byte) (j : Nat) :
    byteStream (b :: bytes) (8 + j) = byteStream bytes j := by
  have hlen : (byteBits b).length = 8 := rfl
  rw [byteStream, byteStream, List.flatMap_cons, List.getD_append_right _ _ _ _ (by omega), hlen,
    Nat.add_sub_cancel_left]

theorem byteStream_tail (bytes : List Byte) (j : Nat) : byteStream bytes.tail j = byteStream bytes (8 + j) := by
  cases bytes with
  | nil => rfl
  | cons b rest => exact (byteStream_cons_add b rest j).symm

theorem bitsValue_zero_fill (k : Nat) : bitsValue (byteStream []) k = 0 := by
  induction k with
  | zero => rfl
  | succ k ih => rw [bitsValue, ih, byteStream_nil]; rfl

theorem bitsValue_byteBits (b : Byte) : bitsValue (fun j => (byteBits b).getD j false) 8 = b.toNat := by
  revert b; decide +kernel

/-- The first eight bits are the first byte. -/
theorem bitsValue_eight (bytes : List Byte) : bitsValue (byteStream bytes) 8 = (bytes.getD 0 0x00).toNat := by
  cases bytes with
  | nil => exact bitsValue_zero_fill 8
  | cons b rest => exact bitsValue_byteBits b

/-- The bits of all the bytes, and zero fill after them, as a number (R32, R82). -/
theorem bitsValue_byteStream (bytes : List Byte) (k : Nat) :
    bitsValue (byteStream bytes) (8 * bytes.length + k) = bytesValue bytes * 2 ^ k := by
  induction bytes with
  | nil => simpa using bitsValue_zero_fill (0 + k)
  | cons b rest ih =>
    have hbyte : bitsValue (byteStream (b :: rest)) 8 = b.toNat := bitsValue_eight (b :: rest)
    have hrest : (fun j => byteStream (b :: rest) (8 + j)) = byteStream rest := funext (byteStream_cons_add b rest)
    rw [show 8 * (b :: rest).length + k = 8 + (8 * rest.length + k) by rw [List.length_cons]; ring, bitsValue_add,
      hbyte, hrest, ih, bytesValue_cons, show 256 = 2 ^ 8 from rfl, ← pow_mul, pow_add]
    ring

/-- Zero bytes at the end are the zero fill (R70, R82). -/
theorem byteStream_append_zeros (bytes : List Byte) (n : Nat) :
    byteStream (bytes ++ List.replicate n 0x00) = byteStream bytes := by
  induction bytes with
  | nil =>
    funext j
    have hzeros : (List.replicate n (0x00 : Byte)).flatMap byteBits = List.replicate (n * 8) false := by
      rw [List.flatMap_replicate, byteBits_zero, List.flatten_replicate_replicate]
    rw [List.nil_append, byteStream, hzeros, getD_replicate_false, byteStream_nil]
  | cons b rest ih =>
    funext j
    obtain hlt | hge := Nat.lt_or_ge j 8
    · have hfirst : ∀ bytes, byteStream (b :: bytes) j = (byteBits b).getD j false := fun bytes =>
        List.getD_append _ _ _ _ hlt
      exact (hfirst _).trans (hfirst _).symm
    · obtain ⟨i, rfl⟩ := Nat.exists_eq_add_of_le hge
      rw [List.cons_append, byteStream_cons_add, byteStream_cons_add, ih]

/-! ### The decoder's place in its input -/

/-- `dec.init` has taken the first sixteen bits of the stream into the window, and the rest is to come (R80). -/
theorem initDecoder_stream {bytes : List Byte} (hph : (initDecoder bytes).ph = .decoding) (k : Nat) :
    (initDecoder bytes).c.toNat * 2 ^ k + bitsValue (nextBit (initDecoder bytes)) k =
      bitsValue (byteStream (plainBytes bytes)) (16 + k) := by
  obtain ⟨plain, hplain⟩ : ∃ plain, plainBytes bytes = plain := ⟨_, rfl⟩
  obtain ⟨hinit, hrest⟩ := initDecoder_eq hplain
  have hnext : nextBit (initDecoder bytes) = fun j => byteStream plain (16 + j) := by
    funext j
    have hpending : pendingBits (initDecoder bytes) = (plain.drop 2).flatMap byteBits := by
      rw [pendingBits_empty (by rw [hinit]; rfl), if_neg (by rw [hph]; nofun), ← hrest, hinit]
      rfl
    have htails : byteStream (plain.drop 2) j = byteStream plain (8 + (8 + j)) := by
      rw [← byteStream_tail, ← byteStream_tail, ← List.drop_one, ← List.drop_one, List.drop_drop]
    rw [nextBit, hpending]
    exact htails.trans (by rw [← Nat.add_assoc])
  have hwindow : (initDecoder bytes).c.toNat = bitsValue (byteStream plain) 16 := by
    have hsecond : (fun j => byteStream plain (8 + j)) = byteStream plain.tail := (funext (byteStream_tail plain)).symm
    have hget : plain.tail.getD 0 0x00 = plain.getD 1 0x00 := by cases plain <;> rfl
    have hbits : bitsValue (byteStream plain) 16 = 256 * (plain.getD 0 0x00).toNat + (plain.getD 1 0x00).toNat := by
      rw [bitsValue_add (byteStream plain) 8 8, hsecond, bitsValue_eight, bitsValue_eight, hget, Nat.mul_comm]
      rfl
    rw [hbits, hinit]
    exact append_byte_toNat _ _
  rw [hplain, hnext, hwindow, bitsValue_add]

/-! ### The encoder's output as input -/

theorem stuffed_of_cons {b : Byte} {rest : List Byte} (h : stuffed (b :: rest) = true) : stuffed rest = true := by
  cases rest with
  | nil => rfl
  | cons c rest =>
    rw [stuffed_cons_cons, Bool.and_eq_true] at h
    exact h.2

theorem wireLength_cons_of_ne {b : Byte} (bytes : List Byte) (hb : b ≠ 0xFF) :
    wireLength (b :: bytes) = wireLength bytes + 1 := by
  rw [wireLength, wireLength, List.length_cons, List.count_cons_of_ne hb]
  omega

theorem wireLength_cons_marker (bytes : List Byte) : wireLength (0xFF :: bytes) = wireLength bytes + 2 := by
  rw [wireLength, wireLength, List.length_cons, List.count_cons_self]
  omega

/-- Well stuffed bytes are plain to their end (R66, R81). -/
theorem plainBytes_of_stuffed {bytes : List Byte} (h : stuffed bytes = true) :
    plainBytes bytes = destuff bytes ∧ wireLength (destuff bytes) = bytes.length := by
  fun_induction destuff bytes with
  | case1 => exact ⟨rfl, rfl⟩
  | case2 b =>
    have hb : b ≠ 0xFF := by simpa using h
    exact ⟨if_neg hb, wireLength_cons_of_ne [] hb⟩
  | case3 c rest ih =>
    obtain rfl : c = 0x00 := by simpa using (stuffed_last (body := []) h).1
    obtain ⟨hplain, hwire⟩ := ih (stuffed_of_cons (stuffed_of_cons h))
    exact ⟨congrArg (0xFF :: ·) hplain, by rw [wireLength_cons_marker, hwire]; rfl⟩
  | case4 b c rest hb ih =>
    obtain ⟨hplain, hwire⟩ := ih (stuffed_of_cons h)
    exact ⟨by rw [plainBytes, if_neg hb, hplain], by rw [wireLength_cons_of_ne _ hb, hwire]; rfl⟩

theorem initDecoder_of_stuffed {bytes : List Byte} (h : stuffed bytes = true) :
    (initDecoder bytes).ph = .decoding ∧ CleanInput (initDecoder bytes) := by
  obtain ⟨hplain, hwire⟩ := plainBytes_of_stuffed h
  obtain ⟨hinit, hrest⟩ := initDecoder_eq hplain
  rw [hinit]
  refine ⟨if_neg fun hbad => hbad.2.ne hwire, ?_⟩
  show wireLength ((destuff bytes).take 2) +
    wireLength (plainBytes (bytes.drop (wireLength ((destuff bytes).take 2)))) = bytes.length
  rw [hrest, ← wireLength_append, List.take_append_drop, hwire]

end Sys2Proof.Machine
end

section
/-! SUPPORT. The round trip (spec/42_decoder.md rules R91 to R93): the code an encoder flushes lies in every interval it
has gone through, so that a decoder that reads this code chooses the sub-intervals the encoder chose. -/

namespace Sys2Proof.Machine

/-! ### The interval -/

/-- Where the sub-interval that the bit takes starts, in the interval (R62, R63). -/
def subBase (cfg : Config) (b : Bool) (e : Enc) : Nat := if takesUpper cfg b e then lowWidth cfg e else 0

/-- How wide the sub-interval that the bit takes is (R62, R63). -/
def subWidth (cfg : Config) (b : Bool) (e : Enc) : Nat :=
  if takesUpper cfg b e then (qe cfg e.idx).toNat else lowWidth cfg e

theorem qe_le_width {cfg : Config} {e : Enc} (hok : cfg.ok = true) (h : EncCoding e) :
    (qe cfg e.idx).toNat ≤ e.a.toNat := by
  have hq := (qe_bounds hok e.idx).2
  have ha := h.aLow
  omega

/-- The sub-interval lies inside the interval. -/
theorem subBase_add_subWidth_le {cfg : Config} {e : Enc} (b : Bool) (hok : cfg.ok = true) (h : EncCoding e) :
    subBase cfg b e + subWidth cfg b e ≤ e.a.toNat := by
  have hq := qe_le_width hok h
  rw [subBase, subWidth]
  split
  · rw [lowWidth]
    omega
  · rw [lowWidth]
    omega

/-- The code `code`, written with `K` places more than the encoder has, lies in the encoder's interval. -/
def InInterval (K code : Nat) (e : Enc) : Prop :=
  codeValue e * 2 ^ K ≤ code ∧ code < (codeValue e + e.a.toNat) * 2 ^ K

/-- A code in the interval after a bit lies in the sub-interval that the bit took. -/
theorem BitCoded.code_in_sub {cfg : Config} {b : Bool} {k K code : Nat} {e e1 : Enc} (h : BitCoded cfg b k e e1)
    (hcode : InInterval K code e1) :
    (codeValue e + subBase cfg b e) * 2 ^ (k + K) ≤ code ∧
      code < (codeValue e + subBase cfg b e + subWidth cfg b e) * 2 ^ (k + K) := by
  have hvalue : codeValue e1 = (codeValue e + subBase cfg b e) * 2 ^ k := h.value
  have hwidth : e1.a.toNat = subWidth cfg b e * 2 ^ k := h.a
  rw [InInterval, hvalue, hwidth, ← Nat.add_mul, Nat.mul_assoc, Nat.mul_assoc, ← pow_add] at hcode
  exact hcode

theorem BitCoded.inInterval {cfg : Config} {b : Bool} {k K code : Nat} {e e1 : Enc} (h : BitCoded cfg b k e e1)
    (hok : cfg.ok = true) (he : EncCoding e) (hcode : InInterval K code e1) : InInterval (k + K) code e := by
  obtain ⟨hlow, hhigh⟩ := h.code_in_sub hcode
  have hsub := subBase_add_subWidth_le b hok he
  exact ⟨(Nat.mul_le_mul_right _ (Nat.le_add_right _ _)).trans hlow,
    hhigh.trans_le (Nat.mul_le_mul_right _ (by omega))⟩

/-! ### Runs of the encoder -/

/-- The encoder goes from `e` to `e'` by coding the bits `bits`, with `K` shifts in all (R61). -/
inductive Codes (cfg : Config) : Enc → List Bool → Nat → Enc → Prop
  | nil (e : Enc) : Codes cfg e [] 0 e
  | cons {e e1 e' : Enc} {b : Bool} {bits : List Bool} {k K : Nat} (first : BitCoded cfg b k e e1)
      (rest : Codes cfg e1 bits K e') : Codes cfg e (b :: bits) (k + K) e'

/-- A completed run of `encode` is a run of bits and a flush (R71). -/
theorem codes_of_encodeRun {cfg : Config} {bits : List Bool} {e e' : Enc} (hok : cfg.ok = true) (he : EncCoding e)
    (h : encodeRun cfg bits e = .finished e') :
    ∃ K e1, Codes cfg e bits K e1 ∧ EncCoding e1 ∧ Flushed e1 e' := by
  induction bits generalizing e with
  | nil =>
    have hends := flushRun_ends cfg.outCap he
    rw [show flushRun cfg.outCap e = .finished e' from h] at hends
    exact ⟨0, e, .nil e, he, hends.1⟩
  | cons b rest ih =>
    obtain ⟨e1, hfirst, hrest⟩ := andThen_eq_finished h
    have hends := encodeBit_ends b hok he
    rw [hfirst] at hends
    obtain ⟨k, hbit, -⟩ := hends
    obtain ⟨K, e2, hcodes, he2, hflush⟩ := ih hbit.coding hrest
    exact ⟨k + K, e2, .cons hbit hcodes, he2, hflush⟩

/-- Each shift moves the code one bit on (R64). -/
theorem Codes.place {cfg : Config} {bits : List Bool} {K : Nat} {e e' : Enc} (h : Codes cfg e bits K e') :
    8 * (codeBytes e').length + e.ct.toNat = 8 * (codeBytes e).length + e'.ct.toNat + K := by
  induction h with
  | nil => rfl
  | cons hbit _ ih =>
    have := hbit.place
    omega

theorem codeBytes_openedEncoder (out : List Byte) : codeBytes (openedEncoder.withOut out) = [] := rfl

theorem codeValue_openedEncoder (out : List Byte) : codeValue (openedEncoder.withOut out) = 0 := by
  rw [codeValue, codeBytes_openedEncoder, bytesValue_nil, Nat.zero_mul]
  rfl

/-- How many bytes a run has settled or stacked, by its shifts: `E.CT` starts at 11 (R15, R60). -/
theorem Codes.place_opened {cfg : Config} {bits : List Bool} {out : List Byte} {K : Nat} {e : Enc}
    (h : Codes cfg (openedEncoder.withOut out) bits K e) : 8 * (codeBytes e).length + 11 = e.ct.toNat + K := by
  have hct : (openedEncoder.withOut out).ct.toNat = 11 := rfl
  have hplace := h.place
  rw [codeBytes_openedEncoder, List.length_nil] at hplace
  omega

/-- A code in the last interval of a run lies in its first one. -/
theorem Codes.inInterval {cfg : Config} {bits : List Bool} {K code : Nat} {e e' : Enc} (h : Codes cfg e bits K e')
    (hok : cfg.ok = true) (he : EncCoding e) (hcode : InInterval 0 code e') : InInterval K code e := by
  induction h with
  | nil => exact hcode
  | cons hbit _ ih => exact hbit.inInterval hok he (ih hbit.coding hcode)

/-! ### The decoder in step with the encoder -/

/-- The decoder has the encoder's context and width, and its window, with the next `K` bits of its input, is what
separates the code from the encoder's code value. -/
structure InStep (K code : Nat) (e : Enc) (d : Dec) : Prop where
  width : decWidth d = e.a.toNat
  idx : d.idx = e.idx
  mps : d.mps = e.mps
  code : codeValue e * 2 ^ K + (d.c.toNat * 2 ^ K + bitsValue (nextBit d) K) = code

theorem InStep.decLow_eq {cfg : Config} {K code : Nat} {e : Enc} {d : Dec} (h : InStep K code e d) :
    decLow cfg d = lowWidth cfg e := by
  rw [decLow, lowWidth, h.width, h.idx]

/-- The window lies where the code lies. -/
theorem InStep.window_in_sub {K code base width : Nat} {e : Enc} {d : Dec} (h : InStep K code e d)
    (hlow : (codeValue e + base) * 2 ^ K ≤ code) (hhigh : code < (codeValue e + base + width) * 2 ^ K) :
    base ≤ d.c.toNat ∧ d.c.toNat < base + width := by
  have hbits := bitsValue_lt (nextBit d) K
  have hcode := h.code
  rw [← Nat.add_assoc, ← Nat.add_mul] at hcode
  have hle : (codeValue e + base) * 2 ^ K < (codeValue e + d.c.toNat + 1) * 2 ^ K := by
    rw [Nat.add_mul _ 1, Nat.one_mul]
    omega
  have hlt : (codeValue e + d.c.toNat) * 2 ^ K < (codeValue e + base + width) * 2 ^ K := by omega
  have h1 := Nat.lt_of_mul_lt_mul_right hle
  have h2 := Nat.lt_of_mul_lt_mul_right hlt
  omega

/-- The decoder takes the upper sub-interval exactly when the encoder has (R62, R63, R84). -/
theorem InStep.inUpper_eq {cfg : Config} {b : Bool} {K code : Nat} {e : Enc} {d : Dec} (h : InStep K code e d)
    (hwindow : subBase cfg b e ≤ d.c.toNat ∧ d.c.toNat < subBase cfg b e + subWidth cfg b e) :
    inUpper cfg d = takesUpper cfg b e := by
  rw [subBase, subWidth] at hwindow
  rw [inUpper, h.decLow_eq]
  cases hup : takesUpper cfg b e with
  | true =>
    rw [hup] at hwindow
    exact decide_eq_true hwindow.1
  | false =>
    rw [hup] at hwindow
    exact decide_eq_false (Nat.not_le_of_gt (by simpa using hwindow.2))

/-- With the same sub-interval, the decoder's LPS is the encoder's (R62, R63, R85). -/
theorem InStep.isLps_eq {cfg : Config} {b : Bool} {K code : Nat} {e : Enc} {d : Dec} (h : InStep K code e d)
    (hok : cfg.ok = true) (hup : inUpper cfg d = takesUpper cfg b e) : isLps cfg d = (b != e.mps) := by
  have hq := (qe_bounds hok e.idx).2
  rw [isLps, hup, h.decLow_eq, h.idx, takesUpper]
  by_cases hb : b = e.mps
  · rw [if_pos hb, hb, bne_self_eq_false]
    by_cases hx : lowWidth cfg e < 0x8000 ∧ lowWidth cfg e < (qe cfg e.idx).toNat
    · rw [if_pos (decide_eq_true hx), decide_eq_false (by omega)]
    · rw [if_neg (by simpa using hx), decide_eq_false hx]
  · rw [if_neg hb, bne_iff_ne.mpr hb]
    by_cases hx : (qe cfg e.idx).toNat ≤ lowWidth cfg e
    · rw [if_pos (decide_eq_true hx), decide_eq_true hx]
    · rw [if_neg (by simpa using hx), decide_eq_true (by omega)]

/-- An MPS on the fast path takes the lower sub-interval (R62). -/
theorem takesUpper_mps_fast {cfg : Config} {e : Enc} (h : 0x8000 ≤ lowWidth cfg e) :
    takesUpper cfg e.mps e = false := by
  rw [takesUpper, if_pos rfl]
  exact decide_eq_false (by omega)

/-- With the same sub-interval and bit, the decoder goes to the encoder's state (R62, R63, R86, R87). -/
theorem InStep.context_eq {cfg : Config} {b : Bool} {k k' K code : Nat} {e e1 : Enc} {d d1 : Dec}
    (h : InStep K code e d) (hcoded : BitCoded cfg b k e e1) (hdecoded : BitDecoded cfg k' d d1)
    (hup : inUpper cfg d = takesUpper cfg b e) (hlps : isLps cfg d = (b != e.mps)) :
    d1.idx = e1.idx ∧ d1.mps = e1.mps := by
  rw [hdecoded.idx, hdecoded.mps, hcoded.idx, hcoded.mps, hlps, hup, h.decLow_eq, h.idx, h.mps]
  by_cases hb : b = e.mps
  · subst hb
    have hfast : takesUpper cfg e.mps e = false ∧ 0x8000 ≤ lowWidth cfg e ↔ 0x8000 ≤ lowWidth cfg e :=
      ⟨fun hx => hx.2, fun hx => ⟨takesUpper_mps_fast hx, hx⟩⟩
    simp only [bne_self_eq_false, Bool.false_eq_true, if_false, if_true, hfast, and_self]
  · simp only [bne_iff_ne.mpr hb, if_true, if_neg hb, and_self]

/-- How far a width has to be doubled is the same for both units (R64, R83). -/
theorem shifts_unique {w k l : Nat} (hk : 0x8000 ≤ w * 2 ^ k) (hk' : w * 2 ^ k < 0x10000) (hl : 0x8000 ≤ w * 2 ^ l)
    (hl' : w * 2 ^ l < 0x10000) : k = l := by
  have double : ∀ {i j}, i < j → 0x8000 ≤ w * 2 ^ i → 0x10000 ≤ w * 2 ^ j := fun {i j} hlt hi => by
    calc 0x10000 = 0x8000 * 2 := rfl
      _ ≤ w * 2 ^ i * 2 := Nat.mul_le_mul_right 2 hi
      _ = w * 2 ^ (i + 1) := by rw [pow_succ, Nat.mul_assoc]
      _ ≤ w * 2 ^ j := Nat.mul_le_mul_left w (Nat.pow_le_pow_right Nat.zero_lt_two hlt)
  obtain hlt | heq | hgt := Nat.lt_trichotomy k l
  · exact absurd hl' (double hlt hk).not_gt
  · exact heq
  · exact absurd hk' (double hgt hl).not_gt

theorem BitCoded.shifts_eq {cfg : Config} {b : Bool} {k k' : Nat} {e e1 : Enc} {d1 : Dec}
    (hcoded : BitCoded cfg b k e e1) (hlow : 0x8000 ≤ d1.a.toNat) (hwidth : d1.a.toNat = subWidth cfg b e * 2 ^ k') :
    k' = k := by
  have hwidth1 : e1.a.toNat = subWidth cfg b e * 2 ^ k := hcoded.a
  refine shifts_unique (w := subWidth cfg b e) (hwidth ▸ hlow) (hwidth ▸ d1.a.isLt) ?_ ?_
  · rw [← hwidth1]
    exact hcoded.coding.aLow
  · rw [← hwidth1]
    exact Nat.lt_succ_of_le hcoded.aHigh

/-- The code stays where it is when interval and window are doubled together. -/
theorem InStep.code_after {base k K code : Nat} {e e1 : Enc} {d d1 : Dec} (h : InStep (k + K) code e d)
    (hbase : base ≤ d.c.toNat) (hvalue : codeValue e1 = (codeValue e + base) * 2 ^ k)
    (hc : d1.c.toNat = (d.c.toNat - base) * 2 ^ k + bitsValue (nextBit d) k)
    (hstream : ∀ j, nextBit d1 j = nextBit d (j + k)) :
    codeValue e1 * 2 ^ K + (d1.c.toNat * 2 ^ K + bitsValue (nextBit d1) K) = code := by
  have hbits : bitsValue (nextBit d) (k + K) = bitsValue (nextBit d) k * 2 ^ K + bitsValue (nextBit d1) K := by
    rw [bitsValue_add, show nextBit d1 = fun j => nextBit d (k + j) from
      funext fun j => (hstream j).trans (by rw [Nat.add_comm])]
  obtain ⟨x, hx⟩ := Nat.exists_eq_add_of_le hbase
  have hcode := h.code
  rw [hbits, hx] at hcode
  rw [hvalue, hc, hx, Nat.add_sub_cancel_left, ← hcode, pow_add]
  ring

/-- The decoder decodes the bit that the encoder coded, and stays in step (R93). -/
theorem InStep.decodeBit_eq {cfg : Config} {b : Bool} {k K code : Nat} {e e1 : Enc} {d : Dec}
    (h : InStep (k + K) code e d) (hok : cfg.ok = true) (hcoded : BitCoded cfg b k e e1)
    (hcode : InInterval K code e1) (hrun : DecRunning d) :
    ∃ d1, decodeBit cfg d = some (b, d1) ∧ BitDecoded cfg k d d1 ∧ InStep K code e1 d1 := by
  obtain ⟨hlow, hhigh⟩ := hcoded.code_in_sub hcode
  have hwindow := h.window_in_sub hlow hhigh
  have hup := h.inUpper_eq hwindow
  have hlps := h.isLps_eq hok hup
  obtain ⟨d1, k', hbit, hdecoded⟩ := decodeBit_spec hok (hrun.good.decoding hrun.ph) hrun.ph hrun.good.cursor
  have hwidth := hdecoded.a
  have hc := hdecoded.c
  rw [hup, h.decLow_eq, h.idx] at hwidth
  rw [hup, h.decLow_eq] at hc
  obtain rfl := hcoded.shifts_eq hdecoded.aLow hwidth
  obtain ⟨hidx, hmps⟩ := h.context_eq hcoded hdecoded hup hlps
  refine ⟨d1, ?_, hdecoded, ⟨?_, hidx, hmps, h.code_after hwindow.1 hcoded.value hc hdecoded.stream⟩⟩
  · rw [hbit, hlps, h.mps, Bool.bne_assoc, bne_self_eq_false, Bool.bne_false]
  · rw [hdecoded.decWidth_eq, hwidth, hcoded.a]

/-- A decoder in step with a run of the encoder decodes its bits, on clean input (R93). -/
theorem Codes.decodes {cfg : Config} {bits : List Bool} {K code : Nat} {e e' : Enc} {d : Dec}
    (h : Codes cfg e bits K e') (hok : cfg.ok = true) (hcode : InInterval 0 code e') (hstep : InStep K code e d)
    (hrun : DecRunning d) (hclean : CleanInput d) : ∃ d', Decodes cfg d bits d' := by
  induction h generalizing d with
  | nil => exact ⟨d, .nil d⟩
  | cons hcoded hrest ih =>
    obtain ⟨d1, hbit, hdecoded, hstep1⟩ :=
      hstep.decodeBit_eq hok hcoded (hrest.inInterval hok hcoded.coding hcode) hrun
    obtain ⟨hph, hclean1⟩ := hdecoded.clean hclean
    obtain ⟨d', hdecodes⟩ := ih hcode hstep1 (hdecoded.running hph) hclean1
    exact ⟨d', .cons hbit hdecodes⟩

/-! ### From `encode` to the decoder -/

theorem finished_of_encodeResult_ok {run : EncRun} {bytes : List Byte} (h : run.encodeResult = .ok bytes) :
    ∃ e, run = .finished e ∧ e.out = bytes := by
  cases run with
  | finished e => exact ⟨e, rfl, EncodeResult.ok.inj h⟩
  | full e => cases h
  | endless => cases h

/-- The first bits of a flushed stream are a code in the last interval: as many as the shifts made, and the sixteen of
the first window (R67 to R70, R82). -/
theorem Flushed.code_in_interval {K : Nat} {e e' : Enc} (h : Flushed e e') (he : EncCoding e)
    (hplace : 8 * (codeBytes e).length + 11 = e.ct.toNat + K) :
    InInterval 0 (bitsValue (byteStream (destuff e'.out)) (16 + K)) e := by
  obtain ⟨zeros, hplain⟩ := h.done.destuff_out
  obtain ⟨code, hlow, hhigh, hvalue⟩ := h.code
  have hct := he.ctHigh
  have hlen : 16 + K = 8 * (destuff e'.obuf.tail).length + (11 - e.ct.toNat) := by
    rw [h.length]
    omega
  have hcode : bitsValue (byteStream (destuff e'.out)) (16 + K) = code := by
    rw [← byteStream_append_zeros _ zeros, ← hplain, hlen, bitsValue_byteStream]
    rw [show 27 - e.ct.toNat = 11 - e.ct.toNat + 16 by omega, pow_add, ← Nat.mul_assoc] at hvalue
    exact Nat.eq_of_mul_eq_mul_right (Nat.two_pow_pos 16) hvalue
  rw [hcode, InInterval, pow_zero, Nat.mul_one, Nat.mul_one]
  exact ⟨hlow, hhigh⟩

theorem decodeBit_congr {cfg cfg' : Config} (h : cfg'.probTable = cfg.probTable) (d : Dec) :
    decodeBit cfg' d = decodeBit cfg d := by
  obtain ⟨table, cap⟩ := cfg
  obtain ⟨table', cap'⟩ := cfg'
  cases h
  rfl

/-- A run reads nothing of the parameters but the table. -/
theorem Decodes.congr {cfg cfg' : Config} {d d' : Dec} {bits : List Bool} (h : Decodes cfg d bits d')
    (htable : cfg'.probTable = cfg.probTable) : Decodes cfg' d bits d' := by
  induction h with
  | nil d => exact .nil d
  | cons hbit _ ih => exact .cons ((decodeBit_congr htable _).trans hbit) ih

theorem ok_congr {cfg cfg' : Config} (h : cfg'.probTable = cfg.probTable) : cfg'.ok = cfg.ok := by
  rw [Config.ok, Config.ok, h]

/-- After `dec.init` the decoder is in step with the encoder after `enc.init` (R60, R80). -/
theorem inStep_initDecoder {bytes : List Byte} (out : List Byte) (K : Nat) (hph : (initDecoder bytes).ph = .decoding) :
    InStep K (bitsValue (byteStream (plainBytes bytes)) (16 + K)) (openedEncoder.withOut out) (initDecoder bytes) := by
  have hinit := (initDecoder_eq (inp := bytes) rfl).1
  have hwidth : (openedEncoder.withOut out).a.toNat = 0x10000 := rfl
  refine ⟨(decWidth_initDecoder bytes).trans hwidth.symm, congrArg Dec.idx hinit, congrArg Dec.mps hinit, ?_⟩
  rw [initDecoder_stream hph, codeValue_openedEncoder, Nat.zero_mul, Nat.zero_add]

/-- What `encode` gives is well stuffed, and the decoder, after a `dec.init` with it, decodes the bits encoded (R93). -/
theorem hostEncode_decodes {s : State} {bits : List Bool} {bytes : List Byte} (hok : s.cfg.ok = true)
    (h : (hostEncode bits s).1 = .ok bytes) :
    stuffed bytes = true ∧ ∃ d, Decodes s.cfg (initDecoder bytes) bits d := by
  rw [(hostEncode_reports bits s).result] at h
  obtain ⟨e', hrun, rfl⟩ := finished_of_encodeResult_ok h
  obtain ⟨K, e, hcodes, he, hflush⟩ := codes_of_encodeRun hok (encCoding_openedEncoder _) hrun
  have hstuffed : stuffed e'.out = true := by
    obtain ⟨-, -, htrim, -⟩ := trim_spec hflush.done.stuffed_tail
    rw [hflush.done.output]
    exact htrim
  obtain ⟨hph, hclean⟩ := initDecoder_of_stuffed hstuffed
  have hcode := hflush.code_in_interval he hcodes.place_opened
  rw [← (plainBytes_of_stuffed hstuffed).1] at hcode
  exact ⟨hstuffed, hcodes.decodes hok hcode (inStep_initDecoder _ K hph) (initDecoder_running hph) hclean⟩

/-- Settles O44: `decode_n` decodes as many bits as were encoded, and the decoder's first bits are those. -/
theorem roundTripRecoversEveryBitSequence : Obligations.RoundTripRecoversEveryBitSequence := by
  intro s u bits hok hcap htable
  obtain ⟨bytes, t, hencode, -⟩ := unboundedEncodeSucceeds s bits hok hcap
  obtain ⟨hstuffed, d, hdecodes⟩ := hostEncode_decodes hok (congrArg Prod.fst hencode)
  obtain ⟨hph, hclean⟩ := initDecoder_of_stuffed hstuffed
  obtain ⟨decoded, d', v, hdecodes', hlen, hdecode⟩ :=
    hostDecodeN_decodes bytes bits.length u ((ok_congr htable).trans hok) hph hclean
  obtain rfl := hdecodes'.eq_of_length_eq (hdecodes.congr htable) hlen
  exact ⟨bytes, t, v, hencode, hdecode⟩

/-- A well stuffed input is exhausted at once only when it is empty (R80, R88). -/
theorem eq_nil_of_exhausted {bytes : List Byte} (hstuffed : stuffed bytes = true)
    (h : statusD (initDecoder bytes) = .exhausted) : bytes = [] := by
  obtain ⟨hplain, hwire⟩ := plainBytes_of_stuffed hstuffed
  rw [(initDecoder_eq hplain).1, statusD_primedDecoder, if_neg fun hbad => hbad.2.ne hwire] at h
  split at h
  next hnil => exact List.eq_nil_of_length_eq_zero (by rw [← hwire, hnil]; rfl)
  next => cases h

/-- Settles O45: on well stuffed input neither `dec.init` nor a bit meets a marker, and the bits that `decode_stream`
decodes and the bits encoded are two runs from the same registers. -/
theorem selfTerminatingDecodeAgrees : Obligations.SelfTerminatingDecodeAgrees := by
  intro s u t bits bytes hok htable hencode
  have hok' := (ok_congr htable).trans hok
  obtain ⟨hstuffed, d, hdecodes⟩ := hostEncode_decodes hok (congrArg Prod.fst hencode)
  obtain ⟨hph, hclean⟩ := initDecoder_of_stuffed hstuffed
  obtain ⟨hst, hresult⟩ | ⟨hst, -⟩ | ⟨decoded, d', hdecodes', hresult | ⟨-, hfailed⟩⟩ :=
    hostDecodeStream_cases bytes u hok'
  · exact .inl ⟨eq_nil_of_exhausted hstuffed hst, hresult⟩
  · exact absurd hst (statusD_ne_malformed hph)
  · exact .inr ⟨decoded, hresult, hdecodes'.agree (hdecodes.congr htable)⟩
  · cases (hdecodes'.decoding hok' (initDecoder_running hph) hclean).symm.trans hfailed

end Sys2Proof.Machine
end

section
/-! SUPPORT. The refusals outside an operation and the statuses of the responses (spec/60_exceptions.md rules R100, R103
to R105): which commands read their unit's phase, and what each of them answers in the phases it does not run in. -/

namespace Sys2Proof.Machine

/-! ### The status codes (R100) -/

/-- The statuses of R100, in the order of their codes. -/
def statuses : List Status := [.ok, .exhausted, .malformed, .capacityExceeded, .illegal, .notReady]

theorem mem_statuses (a : Status) : a ∈ statuses := by
  cases a <;> decide

theorem map_statusCode_statuses : statuses.map statusCode = [0, 1, 2, 3, 4, 5] := rfl

theorem statusCode_mem (a : Status) : statusCode a ∈ ([0, 1, 2, 3, 4, 5] : List (BitVec 3)) :=
  map_statusCode_statuses ▸ List.mem_map_of_mem (mem_statuses a)

/-- Settles O36: every status is in the list, whose codes are six different ones, without 6 and 7. -/
theorem statusCodesAreThoseOfTheTable : Obligations.StatusCodesAreThoseOfTheTable := by
  have hnodup : (statuses.map statusCode).Nodup := by decide
  have hcode : ∀ a c, c ∉ ([0, 1, 2, 3, 4, 5] : List (BitVec 3)) → statusCode a ≠ c := fun a c hc h =>
    hc (h ▸ statusCode_mem a)
  exact ⟨map_statusCode_statuses,
    fun a b h => List.inj_on_of_nodup_map hnodup (mem_statuses a) (mem_statuses b) h,
    fun a => ⟨hcode a 6 (by decide), hcode a 7 (by decide)⟩⟩

/-! ### The commands that need an open operation (R103 to R105) -/

theorem exec_encoder_not_ready {i : Instr} {s : State} (hi : (∃ d, i = .encBit d) ∨ i = .encFlush)
    (hph : s.enc.ph = .idle ∨ s.enc.ph = .done) : exec i s = .next (respond .notReady 0 s) := by
  obtain ⟨d, rfl⟩ | rfl := hi
  · show execEncBit d s = _
    obtain h | h := hph <;> rw [execEncBit, h] <;> rfl
  · show execEncFlush s = _
    obtain h | h := hph <;> rw [execEncFlush, h] <;> rfl

theorem exec_encoder_failed {i : Instr} {s : State} (hi : (∃ d, i = .encBit d) ∨ i = .encFlush)
    (hph : s.enc.ph = .failed) : exec i s = .next (respond .capacityExceeded 0 s) := by
  obtain ⟨d, rfl⟩ | rfl := hi
  · show execEncBit d s = _
    rw [execEncBit, hph]; rfl
  · show execEncFlush s = _
    rw [execEncFlush, hph]; rfl

theorem execDecBit_idle {s : State} (hph : s.dec.ph = .idle) : execDecBit s = .next (respond .notReady 0 s) := by
  rw [execDecBit, hph]; rfl

theorem execDecBit_failed {s : State} (hph : s.dec.ph = .failed) : execDecBit s = .next (respond .malformed 0 s) := by
  rw [execDecBit, hph]; rfl

/-! ### The commands that need none -/

/-- The INIT commands and the accessors, which are accepted in every phase of both units (R60, R80, R52 to R55). -/
def NeedsNoOperation (i : Instr) : Prop :=
  i = .encInit ∨ (∃ inp, i = .decInit inp) ∨ ∃ n, i = .tblQe n ∨ i = .tblNlps n ∨ i = .tblNmps n ∨ i = .tblSwitch n

theorem needsNoOperation_cases (i : Instr) :
    NeedsNoOperation i ∨ ((∃ d, i = .encBit d) ∨ i = .encFlush) ∨ i = .decBit := by
  cases i <;> simp [NeedsNoOperation]

/-- The command answers with one more response, of a status other than the two by which the encoder refuses. -/
def AnswersUnrefused (i : Instr) (s : State) : Prop :=
  ∃ t r, exec i s = .next t ∧ t.responses = s.responses ++ [r] ∧ r.status ≠ .notReady ∧ r.status ≠ .capacityExceeded

theorem tableRead_status (n : BitVec 7) (value : TableIndex → BitVec 32) (s : State) :
    ∃ st v, (st = .ok ∨ st = .illegal) ∧ tableRead n value s = .next (respond st v s) := by
  obtain hgt | hle := Nat.lt_or_ge 112 n.toNat
  · exact ⟨.illegal, 0, .inr rfl, tableRead_of_gt hgt value s⟩
  · obtain ⟨v, hx, -⟩ := tableRead_of_le hle value s
    exact ⟨.ok, v, .inl rfl, hx⟩

theorem NeedsNoOperation.answers {i : Instr} (hi : NeedsNoOperation i) (s : State) : AnswersUnrefused i s := by
  have read : ∀ (n : BitVec 7) (value : TableIndex → BitVec 32), exec i s = tableRead n value s →
      AnswersUnrefused i s := fun n value hread => by
    obtain ⟨st, v, hst, hx⟩ := tableRead_status n value s
    refine ⟨_, ⟨st, v⟩, hread.trans hx, rfl, ?_⟩
    obtain rfl | rfl := hst <;> exact ⟨nofun, nofun⟩
  obtain rfl | ⟨inp, rfl⟩ | ⟨n, rfl | rfl | rfl | rfl⟩ := hi
  · exact ⟨_, ⟨.ok, 0⟩, rfl, rfl, nofun, nofun⟩
  · refine ⟨_, ⟨statusD (initDecoder inp), 0⟩, rfl, rfl, ?_⟩
    obtain h | h | h := statusD_cases (initDecoder inp) <;> rw [h] <;> exact ⟨nofun, nofun⟩
  · exact read n _ rfl
  · exact read n _ rfl
  · exact read n _ rfl
  · exact read n _ rfl

/-- Settles O14: the commands that read a phase refuse in the ones they do not run in, and the others read none. -/
theorem commandsOutsideAnOperationAreNotReady : Obligations.CommandsOutsideAnOperationAreNotReady := by
  refine ⟨fun s hph => ⟨fun d => exec_encoder_not_ready (.inl ⟨d, rfl⟩) hph, exec_encoder_not_ready (.inr rfl) hph⟩,
    fun s hph => execDecBit_idle hph, fun i s hi => ?_⟩
  obtain ⟨t, r, hx, hresp, hready, -⟩ := NeedsNoOperation.answers hi s
  exact ⟨t, r, hx, hresp, hready⟩

/-- Settles O15: the refusals of the two units in FAILED. -/
theorem failedUnitsRefuseWithTheirStatus : Obligations.FailedUnitsRefuseWithTheirStatus :=
  ⟨fun _ hph => ⟨fun d => exec_encoder_failed (.inl ⟨d, rfl⟩) hph, exec_encoder_failed (.inr rfl) hph⟩,
    fun _ hph => execDecBit_failed hph⟩

end Sys2Proof.Machine
end

section
/-! SUPPORT. How an operation of the encoder ends on its capacity, and that without one it does not (spec/20_memory.md
rule R33; spec/41_encoder.md rule R71; spec/60_exceptions.md rule R104). -/

namespace Sys2Proof.Machine

/-! ### With a capacity -/

/-- `enc.bit` and `enc.flush` in CODING, from a good state: they complete with OK, or stop on capacity. -/
theorem exec_encoder_coding {i : Instr} {s : State} (hi : (∃ d, i = .encBit d) ∨ i = .encFlush) (h : Inv s)
    (hph : s.enc.ph = .coding) :
    (∃ e f v, e.ph ≠ .failed ∧ exec i s = .next (s.afterEnc e f ⟨.ok, v⟩)) ∨
    ∃ e, Stopped s.cfg.outCap s.enc e ∧ exec i s = .next (s.afterEnc e s.free ⟨.capacityExceeded, 0⟩) := by
  obtain ⟨d, rfl⟩ | rfl := hi
  · obtain ⟨e, k, hbit, -, hx⟩ | hstop := execEncBit_coding d h.table (h.coding hph) hph
    · exact .inl ⟨e, s.free, 0, by rw [hbit.ph, hph]; nofun, hx⟩
    · exact .inr hstop
  · obtain ⟨e, hflush, -, -, hx⟩ | hstop := execEncFlush_coding (h.coding hph) hph
    · obtain ⟨v, f, hresp, -⟩ := respondLength_eq { s with enc := e }
      exact .inl ⟨e, f, v, by rw [hflush.ph]; nofun, hx.trans (congrArg _ hresp)⟩
    · exact .inr hstop

/-- Settles O22: a command that stops leaves the buffer full, as `Stopped.length` says. -/
theorem capacityFailureEndsTheCommand : Obligations.CapacityFailureEndsTheCommand := by
  intro s t i n h hwithin hph hcap hi hx
  obtain ⟨e, f, v, hne, he⟩ | ⟨e, hstop, he⟩ := exec_encoder_coding hi h hph
  · cases hx.symm.trans he
    exact ⟨rfl, rfl, rfl, ⟨.ok, v⟩, rfl, fun hfailed => absurd hfailed hne, fun _ => rfl⟩
  · cases hx.symm.trans he
    have hlen : e.obuf.length = n + 1 :=
      (hcap ▸ hstop).length (h.coding hph).obuf_ne_nil (hcap ▸ withinCapacity_iff_fits.mp hwithin)
    exact ⟨rfl, rfl, rfl, ⟨.capacityExceeded, 0⟩, rfl, fun _ => ⟨rfl, hlen, hstop.out⟩,
      fun hne => absurd hstop.ph hne⟩

/-! ### Without one -/

/-- The command leads to `t` with one more response, which does not report a capacity failure. -/
def RespondsWithinCapacity (s t : State) : Prop :=
  ∃ r, t.responses = s.responses ++ [r] ∧ r.status ≠ .capacityExceeded

theorem RespondsWithinCapacity.status {s t : State} {r : Response} (h : RespondsWithinCapacity s t)
    (hr : t.responses = s.responses ++ [r]) : r.status ≠ .capacityExceeded := by
  obtain ⟨r', hr', hstatus⟩ := h
  obtain rfl := List.singleton_inj.mp (List.append_cancel_left (hr'.symm.trans hr))
  exact hstatus

theorem execEncBit_unbounded {s t : State} {d : Bool} (hcap : s.cfg.outCap = none) (hph : s.enc.ph = .coding)
    (hx : execEncBit d s = .next t) : RespondsWithinCapacity s t := by
  rw [execEncBit_of_coding d hph] at hx
  obtain hno | hends := encodeBit_carries s.cfg d s.enc
  · rw [hno] at hx
    cases hx
  · rw [hcap] at hends
    obtain ⟨e, hfin⟩ := hends.finished_of_none
    rw [hfin] at hx
    cases hx
    exact ⟨⟨.ok, 0⟩, rfl, nofun⟩

theorem execEncFlush_unbounded {s t : State} (hcap : s.cfg.outCap = none) (hph : s.enc.ph = .coding)
    (hx : execEncFlush s = .next t) : RespondsWithinCapacity s t := by
  obtain ⟨e, hfin⟩ := (flushRun_grows none s.enc).finished_of_none
  rw [execEncFlush, hph, hcap] at hx
  simp only [hfin] at hx
  cases hx
  obtain ⟨v, hresp, -⟩ := respondLength_responses { s with enc := e }
  exact ⟨⟨.ok, v⟩, hresp, nofun⟩

theorem execDecBit_withinCapacity {s t : State} (hx : execDecBit s = .next t) : RespondsWithinCapacity s t := by
  by_cases hph : s.dec.ph = .decoding
  · rw [execDecBit, hph] at hx
    cases hbit : decodeBit s.cfg s.dec with
    | some b =>
      simp only [hbit] at hx
      cases hx
      refine ⟨⟨statusD b.2, bitValue b.1⟩, rfl, ?_⟩
      obtain h | h | h := statusD_cases b.2 <;> rw [h] <;> nofun
    | none =>
      simp only [hbit] at hx
      cases hx
  · obtain ⟨st, hst, he⟩ := execDecBit_refused hph
    cases hx.symm.trans he
    exact ⟨⟨st, 0⟩, rfl, by obtain rfl | rfl := hst <;> nofun⟩

/-- Without a capacity no command outside FAILED reports a capacity failure. -/
theorem exec_unbounded {i : Instr} {s t : State} (hcap : s.cfg.outCap = none) (hph : s.enc.ph ≠ .failed)
    (hx : exec i s = .next t) : RespondsWithinCapacity s t := by
  obtain hi | hi | rfl := needsNoOperation_cases i
  · obtain ⟨t', r, he, hresp, -, hstatus⟩ := hi.answers s
    cases hx.symm.trans he
    exact ⟨r, hresp, hstatus⟩
  · have refused : s.enc.ph = .idle ∨ s.enc.ph = .done → RespondsWithinCapacity s t := fun h => by
      cases hx.symm.trans (exec_encoder_not_ready hi h)
      exact ⟨⟨.notReady, 0⟩, rfl, nofun⟩
    cases h : s.enc.ph with
    | coding =>
      obtain ⟨d, rfl⟩ | rfl := hi
      · exact execEncBit_unbounded hcap h hx
      · exact execEncFlush_unbounded hcap h hx
    | idle => exact refused (.inl h)
    | done => exact refused (.inr h)
    | failed => exact absurd h hph
  · exact execDecBit_withinCapacity hx

/-- Without a capacity no command leads to FAILED (R104). -/
theorem EncEvent.ph_ne_failed {i : Instr} {s t : State} (h : EncEvent s t i) (hcap : s.cfg.outCap = none)
    (hph : s.enc.ph ≠ .failed) : t.enc.ph ≠ .failed := by
  obtain hkept | ⟨-, hto⟩ | ⟨-, -, hto⟩ | ⟨-, hbounded, -⟩ := h.phase
  · rwa [hkept]
  · rw [hto]; nofun
  · rw [hto]; nofun
  · exact absurd hcap hbounded

/-- Settles O25: a reset leads to IDLE, an illegal word is refused with its own status, and the commands are those of
`exec_unbounded`. -/
theorem unboundedBufferNeverFails : Obligations.UnboundedBufferNeverFails := by
  intro s t hcap hph hstep
  obtain ⟨-, rfl⟩ | ⟨rest, -, rfl⟩ | ⟨w, inp, rest, i, -, -, hx⟩ | ⟨w, inp, rest, why, -, -, rfl⟩ :=
    step_cases hstep
  · exact ⟨hph, fun r hr => by simp at hr⟩
  · exact ⟨nofun, fun r hr => by simp at hr⟩
  · have hresponds := exec_unbounded (s := { s with inputs := rest }) hcap hph hx
    exact ⟨(exec_encEvent hx).ph_ne_failed hcap hph, fun _ => hresponds.status⟩
  · have hresponds : RespondsWithinCapacity s (respond .illegal 0 { s with inputs := rest }) :=
      ⟨⟨.illegal, 0⟩, rfl, nofun⟩
    exact ⟨hph, fun _ => hresponds.status⟩

end Sys2Proof.Machine
end

section
/-! SUPPORT. Runs of every length, and the way out of FAILED (spec/60_exceptions.md rules R101, R108;
spec/70_reset_and_hazards.md rules R120, R125). -/

namespace Sys2Proof.Machine

/-! ### Every step answers -/

theorem step_of_no_input {s : State} (h : s.inputs = []) : step s = .next s := by
  have hfetch : fetchInput s = .nothing := by unfold fetchInput; simp only [h]
  rw [step, hfetch]

theorem step_of_reset {s : State} {rest : List Input} (h : s.inputs = .reset :: rest) :
    step s = .next (platformReset { s with inputs := rest }) := by
  have hfetch : fetchInput s = .resetAsserted { s with inputs := rest } := by unfold fetchInput; simp only [h]
  rw [step, hfetch]

/-- Every step from a good state answers a next state (R101, R125). -/
theorem step_answers {s : State} (h : Inv s) : ∃ t, step s = .next t := by
  match hinputs : s.inputs with
  | [] => exact ⟨s, step_of_no_input hinputs⟩
  | .reset :: rest => exact ⟨_, step_of_reset hinputs⟩
  | .command w inp :: rest =>
    cases hdecode : decode w inp with
    | ok i =>
      obtain ⟨t, r, hx, -⟩ := exec_responds (h.withInputs rest) (decode_eq_ok hdecode).1
      exact ⟨t, (stepRunsTheDecodedCommand s w inp rest i hinputs hdecode).trans hx⟩
    | error why => exact ⟨_, step_of_decode_error hinputs hdecode⟩

/-- Settles O34, by induction on the length of the run: a good state's step answers, and keeps the invariants. -/
theorem everyRunFromTheInvariantIsSafe : Obligations.EveryRunFromTheInvariantIsSafe := by
  intro s n h
  induction n generalizing s with
  | zero => trivial
  | succ n ih =>
    obtain ⟨t, ht⟩ := step_answers h
    exact ⟨t, ht, ih t (everyStepKeepsTheInvariant s t h ht)⟩

/-! ### Leaving FAILED (R108) -/

/-- `dec.init` leads to FAILED only for an input with a malformed 0xFF before its second byte (R80, R81). -/
theorem initDecoder_ph (inp : List Byte) :
    (initDecoder inp).ph = .decoding ∨
      (initDecoder inp).ph = .failed ∧ (plainBytes inp).length < 2 ∧ wireLength (plainBytes inp) < inp.length := by
  rw [(initDecoder_eq rfl).1]
  by_cases hbad : (plainBytes inp).length < 2 ∧ wireLength (plainBytes inp) < inp.length
  · exact .inr ⟨if_pos hbad, hbad⟩
  · exact .inl (if_neg hbad)

/-- A command from a FAILED encoder leaves it FAILED, or is its INIT. -/
theorem EncEvent.ph_of_failed {i : Instr} {s t : State} (h : EncEvent s t i) (hph : s.enc.ph = .failed) :
    t.enc.ph = .failed ∨ i = .encInit ∧ t.enc.ph = .coding := by
  obtain hkept | hinit | ⟨hcoding, -⟩ | ⟨hcoding, -⟩ := h.phase
  · exact .inl (hkept.trans hph)
  · exact .inr hinit
  · cases hph.symm.trans hcoding
  · cases hph.symm.trans hcoding

/-- A command from a FAILED decoder leaves it FAILED, or is its INIT. -/
theorem DecEvent.ph_of_failed {i : Instr} {s t : State} (h : DecEvent s t i) (hph : s.dec.ph = .failed) :
    t.dec.ph = .failed ∨ ∃ inp, i = .decInit inp ∧ t.dec.ph = .decoding := by
  obtain hkept | ⟨inp, hi, hto | hto⟩ | ⟨hdecoding, -⟩ := h.phase
  · exact .inl (hkept.trans hph)
  · exact .inr ⟨inp, hi, hto⟩
  · exact .inl hto
  · cases hph.symm.trans hdecoding

theorem step_from_failed_encoder {s t : State} (hph : s.enc.ph = .failed) (hstep : step s = .next t) :
    t.enc.ph = .failed ∨
    (∃ w inp rest, s.inputs = .command w inp :: rest ∧ decode w inp = .ok .encInit ∧ t.enc.ph = .coding) ∨
    ∃ rest, s.inputs = .reset :: rest ∧ t.enc.ph = .idle := by
  obtain ⟨-, rfl⟩ | ⟨rest, hin, rfl⟩ | ⟨w, inp, rest, i, hin, hdecode, hx⟩ | ⟨w, inp, rest, why, -, -, rfl⟩ :=
    step_cases hstep
  · exact .inl hph
  · exact .inr (.inr ⟨rest, hin, rfl⟩)
  · obtain hfailed | ⟨rfl, hto⟩ := (exec_encEvent hx).ph_of_failed hph
    · exact .inl hfailed
    · exact .inr (.inl ⟨w, inp, rest, hin, hdecode, hto⟩)
  · exact .inl hph

theorem step_from_failed_decoder {s t : State} (hph : s.dec.ph = .failed) (hstep : step s = .next t) :
    t.dec.ph = .failed ∨
    (∃ w inp rest, s.inputs = .command w inp :: rest ∧ decode w inp = .ok (.decInit inp) ∧ t.dec.ph = .decoding) ∨
    ∃ rest, s.inputs = .reset :: rest ∧ t.dec.ph = .idle := by
  obtain ⟨-, rfl⟩ | ⟨rest, hin, rfl⟩ | ⟨w, inp, rest, i, hin, hdecode, hx⟩ | ⟨w, inp, rest, why, -, -, rfl⟩ :=
    step_cases hstep
  · exact .inl hph
  · exact .inr (.inr ⟨rest, hin, rfl⟩)
  · obtain hfailed | ⟨inp', rfl, hto⟩ := (exec_decEvent hx).ph_of_failed hph
    · exact .inl hfailed
    · obtain rfl := (decode_eq_ok hdecode).2.2 inp' rfl
      exact .inr (.inl ⟨w, inp', rest, hin, hdecode, hto⟩)
  · exact .inl hph

/-- Settles O41: the INIT commands write every register of their unit, and the events of the units say which command
leaves FAILED. -/
theorem onlyInitLeavesFailed : Obligations.OnlyInitLeavesFailed :=
  ⟨fun _ => ⟨_, rfl, rfl⟩, fun _ inp => ⟨_, rfl, initDecoder_ph inp⟩,
    fun _ _ hin => ⟨_, step_of_reset hin, rfl, rfl⟩, fun _ _ => step_from_failed_encoder,
    fun _ _ => step_from_failed_decoder, fun _ _ => rfl, fun _ _ _ => rfl⟩

end Sys2Proof.Machine
end

section
/-! SUPPORT. Commands to different units, on one block and on a platform (spec/60_exceptions.md rule R111): each command
changes its own unit alone, and does so in the same way whatever the others hold. -/

namespace Sys2Proof.Machine

/-! ### One block -/

/-- The changes that commands of different units make commute, but for the order of their responses. -/
theorem after_after_comm {i j : Instr} (e e' : Enc) (f f' : Nat) (d d' : Dec) (r r' : Response) (s : State)
    (he : forEncoder i = false ∨ forEncoder j = false) (hd : forDecoder i = false ∨ forDecoder j = false) :
    (s.after j e' f' d' r').after i e f d r =
      { (s.after i e f d r).after j e' f' d' r' with responses := s.responses ++ [r', r] } := by
  obtain he | he := he <;> obtain hd | hd := hd <;> simp [State.after, he, hd]

theorem exec_exec_comm {i j : Instr} {s t u : State} (he : forEncoder i = false ∨ forEncoder j = false)
    (hd : forDecoder i = false ∨ forDecoder j = false) (hi : exec i s = .next t) (hj : exec j t = .next u) :
    ∃ t' ri rj, exec j s = .next t' ∧ exec i t' = .next { u with responses := s.responses ++ [rj, ri] } ∧
      t.responses = s.responses ++ [ri] ∧ u.responses = s.responses ++ [ri, rj] ∧
      t'.responses = s.responses ++ [rj] := by
  obtain ⟨e, f, d, ri, hi'⟩ := exec_local hi
  cases hi.symm.trans (hi' s (.refl i s))
  obtain ⟨e', f', d', rj, hj'⟩ := exec_local hj
  cases hj.symm.trans (hj' _ (.refl j _))
  have hback : SameUnit j (s.after i e f d ri) s := (SameUnit.after e f d ri s he.symm hd.symm).2
  have hforth : SameUnit i s (s.after j e' f' d' rj) := (SameUnit.after e' f' d' rj s he hd).1
  refine ⟨_, ri, rj, hj' s hback, (hi' _ hforth).trans ?_, rfl, by simp [State.after], rfl⟩
  rw [after_after_comm e e' f f' d d' ri rj s he hd]

/-! ### The units of a platform -/

/-- The platform with the unit `n` replaced: by `u` when it is an encoder, by `d` when it is a decoder. -/
def Platform.put (n : UnitName) (u : EncUnit) (d : Dec) (p : Platform) : Platform :=
  match n with
  | .encoder k => { p with encs := p.encs.set k u }
  | .decoder k => { p with decs := p.decs.set k d }
  | .rom => p

/-- The platforms agree on the parameters and on the unit `n`. -/
structure SameAt (n : UnitName) (p q : Platform) : Prop where
  cfg : q.cfg = p.cfg
  enc : ∀ k, n = .encoder k → q.encs[k]? = p.encs[k]?
  dec : ∀ k, n = .decoder k → q.decs[k]? = p.decs[k]?

@[simp] theorem put_cfg (n : UnitName) (u : EncUnit) (d : Dec) (p : Platform) : (p.put n u d).cfg = p.cfg := by
  cases n <;> rfl

@[simp] theorem put_encs_length (n : UnitName) (u : EncUnit) (d : Dec) (p : Platform) :
    (p.put n u d).encs.length = p.encs.length := by
  cases n <;> simp [Platform.put]

@[simp] theorem put_decs_length (n : UnitName) (u : EncUnit) (d : Dec) (p : Platform) :
    (p.put n u d).decs.length = p.decs.length := by
  cases n <;> simp [Platform.put]

theorem put_encs_of_ne {n : UnitName} {j : Nat} (h : n ≠ .encoder j) (u : EncUnit) (d : Dec) (p : Platform) :
    (p.put n u d).encs[j]? = p.encs[j]? := by
  cases n with
  | encoder k => exact List.getElem?_set_ne fun hk => h (congrArg _ hk)
  | decoder k => rfl
  | rom => rfl

theorem put_decs_of_ne {n : UnitName} {j : Nat} (h : n ≠ .decoder j) (u : EncUnit) (d : Dec) (p : Platform) :
    (p.put n u d).decs[j]? = p.decs[j]? := by
  cases n with
  | encoder k => rfl
  | decoder k => exact List.getElem?_set_ne fun hk => h (congrArg _ hk)
  | rom => rfl

theorem put_put_comm {m n : UnitName} (h : m ≠ n) (u u' : EncUnit) (d d' : Dec) (p : Platform) :
    (p.put m u d).put n u' d' = (p.put n u' d').put m u d := by
  cases m <;> cases n <;> simp only [Platform.put]
  case encoder.encoder j k => rw [List.set_comm _ _ fun hjk => h (congrArg _ hjk)]
  case decoder.decoder j k => rw [List.set_comm _ _ fun hjk => h (congrArg _ hjk)]

theorem SameAt.refl (n : UnitName) (p : Platform) : SameAt n p p := ⟨rfl, fun _ _ => rfl, fun _ _ => rfl⟩

theorem SameAt.symm {n : UnitName} {p q : Platform} (h : SameAt n p q) : SameAt n q p :=
  ⟨h.cfg.symm, fun k hk => (h.enc k hk).symm, fun k hk => (h.dec k hk).symm⟩

theorem SameAt.trans {n : UnitName} {p q v : Platform} (h : SameAt n p q) (h' : SameAt n q v) : SameAt n p v :=
  ⟨h'.cfg.trans h.cfg, fun k hk => (h'.enc k hk).trans (h.enc k hk), fun k hk => (h'.dec k hk).trans (h.dec k hk)⟩

/-- A change of another unit keeps the agreement. -/
theorem sameAt_put_of_ne {m n : UnitName} (h : m ≠ n) (u : EncUnit) (d : Dec) (p : Platform) :
    SameAt n p (p.put m u d) where
  cfg := put_cfg m u d p
  enc := by rintro k rfl; exact put_encs_of_ne h u d p
  dec := by rintro k rfl; exact put_decs_of_ne h u d p

/-- The same change of the unit keeps the agreement. -/
theorem SameAt.put {n : UnitName} {p q : Platform} (h : SameAt n p q) (u : EncUnit) (d : Dec) :
    SameAt n (p.put n u d) (q.put n u d) where
  cfg := by rw [put_cfg, put_cfg, h.cfg]
  enc := by
    rintro k rfl
    have hk := h.enc k rfl
    simp only [Platform.put, List.getElem?_set_self', hk]
  dec := by
    rintro k rfl
    have hk := h.dec k rfl
    simp only [Platform.put, List.getElem?_set_self', hk]

/-! ### A command to a unit of a platform -/

theorem SameAt.view {n : UnitName} {p q : Platform} (h : SameAt n p q) : q.view = p.view := by
  funext e d f
  rw [Platform.view, Platform.view, h.cfg]

theorem SameAt.freeAt {n : UnitName} {p q : Platform} (h : SameAt n p q) : q.freeAt = p.freeAt := by
  funext k u
  rw [Platform.freeAt, Platform.freeAt, h.cfg]

/-- The encoder unit `u` after a command that led its view of the block, with the free-value counter `free`, to `t`. -/
def EncUnit.after (u : EncUnit) (free : Nat) (t : State) : EncUnit :=
  { enc := t.enc, drawn := u.drawn + (t.free - free) }

theorem issueEnc_eq_some {p : Platform} {k : Nat} {i : Instr} {u : EncUnit} {r : Response} {t : State}
    (hu : p.encs[k]? = some u) (ht : issue i (p.view u.enc Dec.reset (p.freeAt k u)) = .response r t) (d : Dec) :
    p.issueEnc k i =
      some (r, p.put (.encoder k) (u.after (p.freeAt k u) t) d) := by
  simp only [Platform.issueEnc, hu, ht, Platform.put, EncUnit.after]

theorem issueDec_eq_some {p : Platform} {k : Nat} {i : Instr} {d : Dec} {r : Response} {t : State}
    (hd : p.decs[k]? = some d) (ht : issue i (p.view Enc.reset d 0) = .response r t) (u : EncUnit) :
    p.issueDec k i = some (r, p.put (.decoder k) u t.dec) := by
  simp only [Platform.issueDec, hd, ht, Platform.put]

theorem issueRom_eq_some {p : Platform} {i : Instr} {r : Response} {t : State}
    (ht : issue i (p.view Enc.reset Dec.reset 0) = .response r t) : p.issueRom i = some (r, p) := by
  simp only [Platform.issueRom, ht]

theorem issueEnc_cases {p p1 : Platform} {k : Nat} {i : Instr} {r : Response} (h : p.issueEnc k i = some (r, p1)) :
    ∃ u t, p.encs[k]? = some u ∧ issue i (p.view u.enc Dec.reset (p.freeAt k u)) = .response r t := by
  unfold Platform.issueEnc at h
  split at h
  · cases h
  next u hu =>
    split at h
    · cases h
    next r' t ht =>
      cases h
      exact ⟨u, t, hu, ht⟩

theorem issueDec_cases {p p1 : Platform} {k : Nat} {i : Instr} {r : Response} (h : p.issueDec k i = some (r, p1)) :
    ∃ d t, p.decs[k]? = some d ∧ issue i (p.view Enc.reset d 0) = .response r t := by
  unfold Platform.issueDec at h
  split at h
  · cases h
  next d hd =>
    split at h
    · cases h
    next r' t ht =>
      cases h
      exact ⟨d, t, hd, ht⟩

theorem issueRom_cases {p p1 : Platform} {i : Instr} {r : Response} (h : p.issueRom i = some (r, p1)) :
    ∃ t, issue i (p.view Enc.reset Dec.reset 0) = .response r t := by
  unfold Platform.issueRom at h
  split at h
  · cases h
  next r' t ht =>
    cases h
    exact ⟨t, ht⟩

theorem issueTo_of_encoder {k : Nat} {i : Instr} (h : unitOf k i = .encoder k) (p : Platform) :
    p.issueTo k i = p.issueEnc k i := by
  rw [Platform.issueTo, h]

theorem issueTo_of_decoder {k : Nat} {i : Instr} (h : unitOf k i = .decoder k) (p : Platform) :
    p.issueTo k i = p.issueDec k i := by
  rw [Platform.issueTo, h]

theorem issueTo_of_rom {k : Nat} {i : Instr} (h : unitOf k i = .rom) (p : Platform) :
    p.issueTo k i = p.issueRom i := by
  rw [Platform.issueTo, h]

/-- All that an answered command to a unit can do: one change of that unit and one response, the same on every platform
that agrees on the parameters and on that unit. -/
theorem issueTo_local {p p1 : Platform} {k : Nat} {i : Instr} {r : Response} (h : p.issueTo k i = some (r, p1)) :
    ∃ u d, ∀ q, SameAt (unitOf k i) p q → q.issueTo k i = some (r, q.put (unitOf k i) u d) := by
  obtain ⟨-, -, hunit⟩ | ⟨-, -, hunit⟩ | ⟨-, -, hunit⟩ := unitOf_cases k i
  · rw [issueTo_of_encoder hunit] at h
    obtain ⟨u, t, hu, ht⟩ := issueEnc_cases h
    refine ⟨u.after (p.freeAt k u) t, Dec.reset, fun q hq => ?_⟩
    rw [hunit] at hq ⊢
    rw [← hq.view, ← hq.freeAt] at ht
    rw [issueTo_of_encoder hunit, ← hq.freeAt]
    exact issueEnc_eq_some ((hq.enc k rfl).trans hu) ht Dec.reset
  · rw [issueTo_of_decoder hunit] at h
    obtain ⟨d, t, hd, ht⟩ := issueDec_cases h
    refine ⟨⟨Enc.reset, 0⟩, t.dec, fun q hq => ?_⟩
    rw [hunit] at hq ⊢
    rw [← hq.view] at ht
    rw [issueTo_of_decoder hunit]
    exact issueDec_eq_some ((hq.dec k rfl).trans hd) ht _
  · rw [issueTo_of_rom hunit] at h
    obtain ⟨t, ht⟩ := issueRom_cases h
    refine ⟨⟨Enc.reset, 0⟩, Dec.reset, fun q hq => ?_⟩
    rw [hunit] at hq ⊢
    rw [← hq.view] at ht
    rw [issueTo_of_rom hunit]
    exact issueRom_eq_some ht

/-- An answered command changes its own unit alone. -/
theorem issueTo_put {p p1 : Platform} {k : Nat} {i : Instr} {r : Response} (h : p.issueTo k i = some (r, p1)) :
    ∃ u d, p1 = p.put (unitOf k i) u d := by
  obtain ⟨u, d, hall⟩ := issueTo_local h
  cases h.symm.trans (hall p (.refl _ p))
  exact ⟨u, d, rfl⟩

theorem issueTo_issueTo_comm {p p1 p2 : Platform} {j k : Nat} {a b : Instr} {r1 r2 : Response}
    (hne : unitOf j a ≠ unitOf k b) (ha : p.issueTo j a = some (r1, p1)) (hb : p1.issueTo k b = some (r2, p2)) :
    ∃ p3, p.issueTo k b = some (r2, p3) ∧ p3.issueTo j a = some (r1, p2) := by
  obtain ⟨u, d, ha'⟩ := issueTo_local ha
  cases ha.symm.trans (ha' p (.refl _ p))
  obtain ⟨u', d', hb'⟩ := issueTo_local hb
  cases hb.symm.trans (hb' _ (.refl _ _))
  refine ⟨_, hb' p (sameAt_put_of_ne hne u d p).symm, ?_⟩
  rw [ha' _ (sameAt_put_of_ne hne.symm u' d' p), put_put_comm hne]

/-- Settles O48: on a block and on a platform, the changes of two different units commute. -/
theorem interleavingDoesNotMatter : Obligations.InterleavingDoesNotMatter :=
  ⟨fun _ _ _ _ _ => exec_exec_comm, fun _ _ _ _ _ _ _ _ _ => issueTo_issueTo_comm⟩

/-! ### A sequence of commands -/

theorem issueAll_cons {p p1 : Platform} {c : Nat × Instr} {cs : List (Nat × Instr)} {rs : List Response}
    (h : p.issueAll (c :: cs) = some (rs, p1)) :
    ∃ r rs' p', p.issueTo c.1 c.2 = some (r, p') ∧ p'.issueAll cs = some (rs', p1) ∧ rs = r :: rs' := by
  unfold Platform.issueAll at h
  split at h
  · cases h
  next r p' hc =>
    split at h
    · cases h
    next rs' p2 hcs =>
      cases h
      exact ⟨r, rs', p', hc, hcs, rfl⟩

theorem issueAll_cons_of_next {p p' p1 : Platform} {c : Nat × Instr} {cs : List (Nat × Instr)} {r : Response}
    {rs : List Response} (hc : p.issueTo c.1 c.2 = some (r, p')) (hcs : p'.issueAll cs = some (rs, p1)) :
    p.issueAll (c :: cs) = some (r :: rs, p1) := by
  simp only [Platform.issueAll, hc, hcs]

/-- The commands of the unit `n`. -/
def commandsOf (n : UnitName) (cs : List (Nat × Instr)) : List (Nat × Instr) :=
  cs.filter fun c => unitOf c.1 c.2 = n

/-- The responses to the commands of the unit `n`. -/
def responsesOf (n : UnitName) (cs : List (Nat × Instr)) (rs : List Response) : List Response :=
  ((cs.zip rs).filter fun c => unitOf c.1.1 c.1.2 = n).map Prod.snd

/-- The commands of one unit, issued alone on a platform that agrees on it: by induction on the sequence, a command of
the unit does the same on both platforms, and any other leaves the agreement as it is. -/
theorem issueAll_commandsOf {n : UnitName} {cs : List (Nat × Instr)} {p p1 q : Platform} {rs : List Response}
    (h : p.issueAll cs = some (rs, p1)) (hq : SameAt n p q) :
    ∃ q1, q.issueAll (commandsOf n cs) = some (responsesOf n cs rs, q1) ∧ SameAt n p1 q1 := by
  induction cs generalizing p q rs with
  | nil =>
    cases h
    exact ⟨q, rfl, hq⟩
  | cons c cs ih =>
    obtain ⟨r, rs', p', hc, hcs, rfl⟩ := issueAll_cons h
    obtain ⟨u, d, hall⟩ := issueTo_local hc
    cases hc.symm.trans (hall p (.refl _ p))
    by_cases hn : unitOf c.1 c.2 = n
    · subst hn
      obtain ⟨q1, hq1, hsame⟩ := ih hcs (hq.put u d)
      refine ⟨q1, ?_, hsame⟩
      simpa [commandsOf, responsesOf] using issueAll_cons_of_next (hall q hq) hq1
    · obtain ⟨q1, hq1, hsame⟩ := ih hcs ((sameAt_put_of_ne hn u d p).symm.trans hq)
      refine ⟨q1, ?_, hsame⟩
      simpa [commandsOf, responsesOf, hn] using hq1

/-- Settles O49: the platform that issues the unit's commands alone starts as the one that issues them all. -/
theorem eachUnitRunsAsIfAlone : Obligations.EachUnitRunsAsIfAlone := by
  intro p p1 cs rs n h
  obtain ⟨p2, hissue, hsame⟩ := issueAll_commandsOf h (.refl n p)
  exact ⟨p2, hissue, hsame.enc, hsame.dec⟩

/-! ### A platform's unit and the block's -/

/-- An accessor whose word decodes has an index of the table (R44). -/
theorem wf_of_decode_encode {i j : Instr} {inp : List Byte} (h : decode (encode i) inp = .ok j) : i.wf = true := by
  obtain ⟨hop, hlow⟩ := encode_fields i
  have hlegal := (decodes_iff (encode i) inp).mp ⟨j, h⟩
  rw [LegalNumber, hop, hlow] at hlegal
  have index : ∀ s : BitVec 7, s.toNat ≤ 112 → decide (s ≤ 112) = true := fun s hs => decide_eq_true hs
  cases i with
  | encInit => rfl
  | encBit _ => rfl
  | encFlush => rfl
  | decInit _ => rfl
  | decBit => rfl
  | tblQe s => exact index s (by simpa [opcode, operand] using hlegal)
  | tblNlps s => exact index s (by simpa [opcode, operand] using hlegal)
  | tblNmps s => exact index s (by simpa [opcode, operand] using hlegal)
  | tblSwitch s => exact index s (by simpa [opcode, operand] using hlegal)

theorem issue_of_decode_error {i : Instr} {why : IllegalWord} (h : decode (encode i) (encodeSideBand i) = .error why)
    (s : State) : issue i s = .response ⟨.illegal, 0⟩ (respond .illegal 0 s) := by
  have hstep := step_of_decode_error (s := issueFirst (encode i) (encodeSideBand i) s) rfl h
  rw [issue, hstep, refuse]
  simp only [respond_responses, issueFirst_responses, List.getLast?_concat]
  rfl

/-- Blocks that agree on the parameters and on a command's unit give the command one response, and still agree. -/
theorem SameUnit.issue_response {i : Instr} {s v t : State} {r : Response} (h : SameUnit i s v)
    (ht : issue i s = .response r t) : ∃ t', issue i v = .response r t' ∧ SameUnit i t t' := by
  cases hdecode : decode (encode i) (encodeSideBand i) with
  | error why =>
    cases ht.symm.trans (issue_of_decode_error hdecode s)
    exact ⟨_, issue_of_decode_error hdecode v, h⟩
  | ok j =>
    have hwf : i.wf = true := wf_of_decode_encode hdecode
    cases hx : exec i s with
    | next t' =>
      obtain ⟨e, f, d, r', hall⟩ := exec_local hx
      cases ht.symm.trans (issue_of_next hwf (hall s (.refl i s)) rfl)
      refine ⟨_, issue_of_next hwf (hall v h) rfl, h.1, fun hi => ?_, fun hi => ?_⟩ <;> simp [State.after, hi]
    | fault why => cases ht.symm.trans (issue_of_fault hwf hx)
    | refused why =>
      rw [issue, step_issueFirst hwf, hx] at ht
      cases ht

theorem sameUnit_of_encoder {k : Nat} {i : Instr} {s v : State} (hunit : unitOf k i = .encoder k)
    (hcfg : v.cfg = s.cfg) (henc : v.enc = s.enc) (hfree : v.free = s.free) :
    forEncoder i = true ∧ SameUnit i s v := by
  obtain ⟨he, hd, -⟩ | ⟨-, -, h⟩ | ⟨-, -, h⟩ := unitOf_cases k i
  · exact ⟨he, hcfg, fun _ => ⟨henc, hfree⟩, by rw [hd]; nofun⟩
  · cases hunit.symm.trans h
  · cases hunit.symm.trans h

theorem sameUnit_of_decoder {k : Nat} {i : Instr} {s v : State} (hunit : unitOf k i = .decoder k)
    (hcfg : v.cfg = s.cfg) (hdec : v.dec = s.dec) : forDecoder i = true ∧ SameUnit i s v := by
  obtain ⟨-, -, h⟩ | ⟨he, hd, -⟩ | ⟨-, -, h⟩ := unitOf_cases k i
  · cases hunit.symm.trans h
  · exact ⟨hd, hcfg, by rw [he]; nofun, fun _ => hdec⟩
  · cases hunit.symm.trans h

theorem sameUnit_of_rom {k : Nat} {i : Instr} {s v : State} (hunit : unitOf k i = .rom) (hcfg : v.cfg = s.cfg) :
    SameUnit i s v := by
  obtain ⟨-, -, h⟩ | ⟨-, -, h⟩ | ⟨he, hd, -⟩ := unitOf_cases k i
  · cases hunit.symm.trans h
  · cases hunit.symm.trans h
  · exact ⟨hcfg, by rw [he]; nofun, by rw [hd]; nofun⟩

theorem issueTo_encoder_of_block {p : Platform} {k : Nat} {i : Instr} {u : EncUnit} {s t : State} {r : Response}
    (hunit : unitOf k i = .encoder k) (hu : p.encs[k]? = some u) (hcfg : s.cfg = p.cfg.block) (henc : s.enc = u.enc)
    (hfree : s.free = p.freeAt k u) (h : issue i s = .response r t) :
    ∃ p1 u1, p.issueTo k i = some (r, p1) ∧ p1.encs[k]? = some u1 ∧ u1.enc = t.enc ∧
      p1.decs = p.decs ∧ ∀ j, j ≠ k → p1.encs[j]? = p.encs[j]? := by
  obtain ⟨hi, hsame⟩ := sameUnit_of_encoder (v := p.view u.enc Dec.reset (p.freeAt k u)) hunit hcfg.symm henc.symm
    hfree.symm
  obtain ⟨t', ht', -, hunits, -⟩ := hsame.issue_response h
  refine ⟨p.put (.encoder k) (u.after (p.freeAt k u) t') Dec.reset, u.after (p.freeAt k u) t', ?_, ?_,
    (hunits hi).1, rfl, fun j hj => put_encs_of_ne (fun hkj => hj (UnitName.encoder.inj hkj).symm) _ _ p⟩
  · rw [issueTo_of_encoder hunit]
    exact issueEnc_eq_some hu ht' Dec.reset
  · exact List.getElem?_set_self (List.getElem?_eq_some_iff.mp hu).1

theorem issueTo_decoder_of_block {p : Platform} {k : Nat} {i : Instr} {s t : State} {r : Response}
    (hunit : unitOf k i = .decoder k) (hd : p.decs[k]? = some s.dec) (hcfg : s.cfg = p.cfg.block)
    (h : issue i s = .response r t) :
    ∃ p1, p.issueTo k i = some (r, p1) ∧ p1.decs[k]? = some t.dec ∧
      p1.encs = p.encs ∧ ∀ j, j ≠ k → p1.decs[j]? = p.decs[j]? := by
  obtain ⟨hi, hsame⟩ := sameUnit_of_decoder (v := p.view Enc.reset s.dec 0) hunit hcfg.symm rfl
  obtain ⟨t', ht', -, -, hdec⟩ := hsame.issue_response h
  refine ⟨p.put (.decoder k) ⟨Enc.reset, 0⟩ t'.dec, ?_, ?_, rfl,
    fun j hj => put_decs_of_ne (fun hkj => hj (UnitName.decoder.inj hkj).symm) _ _ p⟩
  · rw [issueTo_of_decoder hunit]
    exact issueDec_eq_some hd ht' _
  · rw [← hdec hi]
    exact List.getElem?_set_self (List.getElem?_eq_some_iff.mp hd).1

theorem issueTo_rom_of_block {p : Platform} {k : Nat} {i : Instr} {s t : State} {r : Response}
    (hunit : unitOf k i = .rom) (hcfg : s.cfg = p.cfg.block) (h : issue i s = .response r t) :
    p.issueTo k i = some (r, p) := by
  obtain ⟨t', ht', -⟩ := (sameUnit_of_rom (v := p.view Enc.reset Dec.reset 0) hunit hcfg.symm).issue_response h
  rw [issueTo_of_rom hunit, issueRom_eq_some ht']

/-- A change of one unit keeps the number of units of each kind. -/
theorem put_wf (n : UnitName) (u : EncUnit) (d : Dec) (p : Platform) : (p.put n u d).wf = p.wf := by
  simp [Platform.wf]

theorem reset_wf {cfg : PlatformConfig} (h : cfg.ok = true) : (Platform.reset cfg).wf = true := by
  simp [Platform.wf, Platform.reset, h]

/-- Settles O50: a platform gives a unit's command to the unit's view of the block, which agrees on the unit with any
block of those registers. -/
theorem platformUnitsAreCopiesOfTheBlock : Obligations.PlatformUnitsAreCopiesOfTheBlock := by
  refine ⟨fun _ _ _ _ _ _ _ => issueTo_encoder_of_block, fun _ _ _ _ _ _ => issueTo_decoder_of_block,
    fun _ _ _ _ _ _ => issueTo_rom_of_block, fun p p1 k i r hwf h => ?_, fun _ => reset_wf⟩
  obtain ⟨u, d, rfl⟩ := issueTo_put h
  rwa [put_wf]

end Sys2Proof.Machine
end

section
/-! SUPPORT. Reset and the step with nothing issued (spec/70_reset_and_hazards.md rule R120; spec/60_exceptions.md rule
R110; spec/10_state.md rule R28). -/

namespace Sys2Proof.Machine

/-- Settles O8: the step takes a reset from the interface and puts both units at `Enc.reset` and `Dec.reset`, and with
no input it answers its own state. -/
theorem resetAndIdleSteps : Obligations.ResetAndIdleSteps :=
  ⟨fun _ _ => step_of_reset, rfl, rfl, rfl, fun _ => step_of_no_input⟩

/-- Settles O33: the table of R50 meets R56, both units are good after reset, and an empty buffer fits every capacity. -/
theorem resetStateHasTheInvariant : Obligations.ResetStateHasTheInvariant :=
  ⟨inv_iff.mpr ⟨defaultConfig_ok, encGood_reset, decGood_reset⟩, fits_of_length_le_one (Nat.zero_le 1)⟩

end Sys2Proof.Machine
end
